-- ==== Sys2Proof/Word.lean ====
section
/-! DEFINITION. The word types of the GF256-SSS core: R2 (a field element is a byte), R60 (every transaction
concerns one 32-bit word). -/

namespace Sys2Proof

/-- A byte: a field element, coefficient, node, y-value, share id, payload or secret byte (R2, R62). -/
abbrev Byte := BitVec 8

/-- The 32-bit word of the host bus and of a command (R60, R90). -/
abbrev Word := BitVec 32

end Sys2Proof
end

