-- ==== Sys2Proof/Config.lean ====
section
/-! DEFINITION. What an implementation fixes (R7) and the free values (R44): constants without a body, so no
proof can see a value of one. -/

namespace Sys2Proof

/-- P_SLOTS - 1 of this part, the value CAPS.SLOTS_M1 reports (R7, R23): P_SLOTS is in [1, 256]. Log 9. -/
opaque Config.slotsM1 : BitVec 8

/-- P_MAXLEN - 1 of this part, the value CAPS.MAXLEN_M1 reports (R7, R23): P_MAXLEN is in [1, 65536] and OPEN.
Log 9. -/
opaque Config.maxlenM1 : BitVec 16

/-- FREE VALUE (R44, D44): `Config.unwrittenByte e a` is the unspecified byte that the buffer RAM holds at byte
offset `a` after the `e`-th reset, until it is first written. Log 6, log 7. -/
opaque Config.unwrittenByte : Nat → Nat → Byte

end Sys2Proof
end

