-- ==== Sys2Proof/Syntax.lean ====
section
/-! DEFINITION. The command set, version 1 (R3, R92): one constructor per row of spec/opcode_table.json; and the
assembler's written form of a command (R98). -/

namespace Sys2Proof

/-- The eight commands (R92). An operand field is an unsigned 8-bit value, taken as is (R91), so every term of
this type is a legal command. -/
inductive Instr where
  /-- NOP (R117) -/
  | nop
  /-- INIT: build the field tables (R111) -/
  | init
  /-- TRESET: discard the field tables (R116) -/
  | treset
  /-- MUL a, b: field multiplication (R118) -/
  | mul (a b : Byte)
  /-- EVAL x: Horner evaluation of COEF at x (R142) -/
  | eval (x : Byte)
  /-- GENPTS s, N, T: share points of a random polynomial (R150) -/
  | genpts (secret numShares threshold : Byte)
  /-- LAGR at: Lagrange interpolation of XS/YS at one point (R172) -/
  | lagr (pt : Byte)
  /-- COMBINE at: reconstruct a secret from share slots (R180) -/
  | combine (pt : Byte)
  deriving DecidableEq, Repr

/-- The decoder's own verdicts on a word that is no command (R97). -/
inductive Verdict where
  /-- a defined OP with a nonzero field its format requires to be 0 (R93) -/
  | badCmd
  /-- a reserved OP (R94) -/
  | badOpcode
  deriving DecidableEq, Repr

/-- The mnemonics of R92 and R98. -/
inductive Mnemonic where
  | nop | init | treset | mul | eval | genpts | lagr | combine
  deriving DecidableEq, Repr

/-- A command as it is written (R98): a mnemonic and its operands in the order A, B, C, each an integer. -/
structure Asm where
  mnemonic : Mnemonic
  operands : List Nat
  deriving DecidableEq, Repr

end Sys2Proof
end

