-- ==== Sys2Proof/WellFormed.lean ====
section
/-! DEFINITION. When a written command is legal (R98): as many operands as its format uses (R90), each an integer
0..255 ("any other operand is a syntax error"). A term of `Instr` needs no check: its operands are bytes by type
and its unused fields do not exist, so every `Instr` is well formed. -/

namespace Sys2Proof

/-- How many operand fields the mnemonic's format uses: F0 none, F1 A, F2 A and B, F3 A, B and C (R90, R92). -/
def Mnemonic.arity : Mnemonic → Nat
  | .nop => 0
  | .init => 0
  | .treset => 0
  | .mul => 2
  | .eval => 1
  | .genpts => 3
  | .lagr => 1
  | .combine => 1

/-- The number of operands is the format's (R90, R98). -/
def Asm.arityOk (c : Asm) : Bool := c.operands.length == c.mnemonic.arity

/-- Each operand is an integer 0..255 (R98). -/
def Asm.rangeOk (c : Asm) : Bool := c.operands.all (fun v => decide (v ≤ 255))

/-- A written command is well formed (R98). -/
def Asm.wellFormed (c : Asm) : Bool := c.arityOk && c.rangeOk

end Sys2Proof
end

