-- ==== Sys2Proof/Decode.lean ====
section
/-! DEFINITION. Decoding (R97), total on every 32-bit word; the encoder (R98: `{C, B, A, OP}`); the assembler of
written commands (R98); the opcode map's (match, mask) rows (R92). -/

namespace Sys2Proof

/-- OP = w[7:0] (R90). -/
def opField (w : Word) : Byte := w.extractLsb' 0 8

/-- A = w[15:8] (R90, R91). -/
def aField (w : Word) : Byte := w.extractLsb' 8 8

/-- B = w[23:16] (R90, R91). -/
def bField (w : Word) : Byte := w.extractLsb' 16 8

/-- C = w[31:24] (R90, R91). -/
def cField (w : Word) : Byte := w.extractLsb' 24 8

/-- A format-F0 word: A, B and C must be 0 (R90, R97). -/
def decodeF0 (w : Word) (i : Instr) : Except Verdict Instr :=
  if aField w = 0 ∧ bField w = 0 ∧ cField w = 0 then .ok i else .error .badCmd

/-- A format-F1 word: B and C must be 0 (R90, R97). -/
def decodeF1 (w : Word) (i : Instr) : Except Verdict Instr :=
  if bField w = 0 ∧ cField w = 0 then .ok i else .error .badCmd

/-- A format-F2 word: C must be 0 (R90, R97). -/
def decodeF2 (w : Word) (i : Instr) : Except Verdict Instr :=
  if cField w = 0 then .ok i else .error .badCmd

/-- `decode(w)` of R97: a command, or the decoder's verdict by name. -/
def decode (w : Word) : Except Verdict Instr :=
  if opField w = 0x00 then decodeF0 w .nop
  else if opField w = 0x01 then decodeF0 w .init
  else if opField w = 0x02 then decodeF0 w .treset
  else if opField w = 0x10 then decodeF2 w (.mul (aField w) (bField w))
  else if opField w = 0x11 then decodeF1 w (.eval (aField w))
  else if opField w = 0x12 then .ok (.genpts (aField w) (bField w) (cField w))
  else if opField w = 0x20 then decodeF1 w (.lagr (aField w))
  else if opField w = 0x21 then decodeF1 w (.combine (aField w))
  else .error .badOpcode

/-- The word `{C, B, A, OP}` (R90, R98). -/
def packWord (c b a op : Byte) : Word := c ++ b ++ a ++ op

/-- The encoding of a command, unused fields 0 (R92, R98). -/
def encode : Instr → Word
  | .nop => packWord 0 0 0 0x00
  | .init => packWord 0 0 0 0x01
  | .treset => packWord 0 0 0 0x02
  | .mul a b => packWord 0 b a 0x10
  | .eval x => packWord 0 0 x 0x11
  | .genpts secret numShares threshold => packWord threshold numShares secret 0x12
  | .lagr pt => packWord 0 0 pt 0x20
  | .combine pt => packWord 0 0 pt 0x21

/-- The mnemonic of a command (R92). -/
def Instr.mnemonic : Instr → Mnemonic
  | .nop => .nop
  | .init => .init
  | .treset => .treset
  | .mul _ _ => .mul
  | .eval _ => .eval
  | .genpts _ _ _ => .genpts
  | .lagr _ => .lagr
  | .combine _ => .combine

/-- One row of R92's (match, mask) table: a word `w` selects the row iff `w & mask = match`. -/
structure OpRow where
  mnemonic : Mnemonic
  matchBits : Word
  maskBits : Word
  deriving DecidableEq, Repr

/-- The (match, mask) table of R92. -/
def opRow : Mnemonic → OpRow
  | .nop => ⟨.nop, 0x00000000, 0xFFFFFFFF⟩
  | .init => ⟨.init, 0x00000001, 0xFFFFFFFF⟩
  | .treset => ⟨.treset, 0x00000002, 0xFFFFFFFF⟩
  | .mul => ⟨.mul, 0x00000010, 0xFF0000FF⟩
  | .eval => ⟨.eval, 0x00000011, 0xFFFF00FF⟩
  | .genpts => ⟨.genpts, 0x00000012, 0x000000FF⟩
  | .lagr => ⟨.lagr, 0x00000020, 0xFFFF00FF⟩
  | .combine => ⟨.combine, 0x00000021, 0xFFFF00FF⟩

/-- Word `w` selects the row of mnemonic `m` (R92). -/
def selectsRow (w : Word) (m : Mnemonic) : Bool := w &&& (opRow m).maskBits == (opRow m).matchBits

/-- The command a well-formed written command stands for (R98); none for a syntax error. -/
def Asm.toInstr (c : Asm) : Option Instr :=
  if c.wellFormed then
    match c.mnemonic, c.operands.map (BitVec.ofNat 8) with
    | .nop, [] => some .nop
    | .init, [] => some .init
    | .treset, [] => some .treset
    | .mul, [a, b] => some (.mul a b)
    | .eval, [x] => some (.eval x)
    | .genpts, [a, b, t] => some (.genpts a b t)
    | .lagr, [pt] => some (.lagr pt)
    | .combine, [pt] => some (.combine pt)
    | _, _ => none
  else none

/-- The assembler (R98): the word a written command is encoded as, none for a syntax error. -/
def assemble (c : Asm) : Option Word := c.toInstr.map encode

/-- The command word that `nbits` given bits of an instruction stand for: every bit above them is 0. -/
def tableWord (nbits w : Nat) : Word := BitVec.ofNat 32 (w % 2 ^ nbits)

/-- The instruction the decoder reads from an instruction whose bits are `w`, numbered as the opcode table
numbers them (R90: one 32-bit word, bit 0 its least significant). -/
def decodeTableWord (nbits w : Nat) : Option Instr :=
  match decode (tableWord nbits w) with
  | .ok i => some i
  | .error _ => none

end Sys2Proof
end

