-- ==== Sys2Proof/Machine/State.lean ====
section
/-! DEFINITION. The architectural state of the GF256-SSS core (R20), the ports (R61), and the state after reset
(R43). Everything is plain data. -/

namespace Sys2Proof.Machine

/-- The completion codes (R205). -/
inductive Code where
  | ok | badOpcode | badCmd | notReady | initFail | count
  | valNshares | valThreshold | valTGtN | rng | logZero
  | shareFormat | shareId | lenMismatch | lenRange
  deriving DecidableEq, Repr

/-- A field table: 256 entries of one byte (R30). -/
abbrev Table := Vector Byte 256

/-- The table lifecycle state TSTATE with the tables it makes readable (R30, R31). While Uninitialized the
tables' content is unspecified and unobservable (R30), so the state holds none. Log 8. -/
inductive TState where
  | uninitialized
  | ready (exps logs : Table)
  deriving DecidableEq, Repr

/-- The engine state ENG: IDLE, or BUSY with the accepted command word (R39). -/
inductive Eng where
  | idle
  | busy (w : Word)
  deriving DecidableEq, Repr

/-- The random-source request handshake RNGREQ: pending is `rng_req` raised and held (R41, R212). -/
inductive RngReq where
  | idle
  | pending
  deriving DecidableEq, Repr

/-- An answer of the random source (R212): `Byte(b)`, or `Fail`. -/
inductive RngAnswer where
  | byte (b : Byte)
  | fail
  deriving DecidableEq, Repr

/-- A host bus transaction: `MemRead(addr, 4)` or `MemWrite(addr, 4, wdata)` (R60). -/
inductive BusOp where
  | read (addr : Word)
  | write (addr wdata : Word)
  deriving DecidableEq, Repr

/-- The response to a transaction: OKAY or ERR, and the word read (R60). -/
structure BusResp where
  okay : Bool
  rdata : Word
  deriving DecidableEq, Repr

/-- One event of the world the block stands in: which agent moves next (R72, R212, R240, R250). Log 1. -/
inductive Event where
  /-- the host performs a bus transaction (R60) -/
  | bus (op : BusOp)
  /-- the engine takes its turn: "any number of host steps may come before it" (R250) -/
  | engine
  /-- the random source presents `rng_ack` = 1 with these levels of `rng_fail` and `rng_data` (R61, R212) -/
  | rng (fail : Bool) (data : Byte)
  /-- the `rst_n` pin takes this level (R240) -/
  | rst (level : Bool)
  deriving DecidableEq, Repr

/-- Buffer RAM: (byte offset, byte), offsets strictly rising; an offset not listed has no value yet (R44). -/
abbrev Memory := List Host.Cell

/-- Why the machine would stop with a fault. The spec gives the block no way to stop: "no error stops the block
permanently" (R210), an error is a completion (R203) or an ERR response (R60). So there is no such reason and
nobody raises one (log 17). -/
inductive Fault where
  deriving DecidableEq, Repr

/-- Why the model would refuse. -/
inductive Refusal where
  /-- raised by an arm of `exec` whose instruction has no meaning yet (there is none): safe, the model stops -/
  | notModelled (mnemonic : String)
  deriving DecidableEq, Repr

/-- The state (R20), the ports (R61) and the outside world's events still to come. STATUS.READY and STATUS.BUSY
are computed from `tstate` and `eng` (R25); ID, POLY and CAPS.MAX_SHARES are hardwired (R21 to R23); CMD stores no
value (R26). -/
structure State where
  /-- CAPS.SLOTS_M1 = P_SLOTS - 1, hardwired per part (R23) -/
  slotsM1 : BitVec 8
  /-- CAPS.MAXLEN_M1 = P_MAXLEN - 1, hardwired per part (R23) -/
  maxlenM1 : BitVec 16
  /-- CTRL.IE_DONE (R24) -/
  ieDone : Bool
  /-- CTRL.IE_ERR (R24) -/
  ieErr : Bool
  /-- STATUS.DONE (R25) -/
  done : Bool
  /-- STATUS.ERR (R25) -/
  err : Bool
  /-- STATUS.OVR (R25) -/
  ovr : Bool
  /-- RESULT.VALUE (R27) -/
  result : Byte
  /-- ERRINFO.CODE (R28, R205) -/
  errCode : Code
  /-- ERRINFO.INFO (R28, R206) -/
  errInfo : BitVec 16
  /-- NCOEF (R29) -/
  ncoef : BitVec 9
  /-- NPTS (R29) -/
  npts : BitVec 9
  /-- NSLOTS (R29) -/
  nslots : BitVec 9
  /-- SECLEN (R29) -/
  seclen : BitVec 17
  /-- TSTATE, exps and logs (R30, R31) -/
  tstate : TState
  /-- the buffers COEF, XS, YS, SLOT_ID, SLOT_LEN, PAY and SECRET at their offsets (R32 to R38, R66) -/
  ram : Memory
  /-- ENG (R39) -/
  eng : Eng
  /-- ICOEF[0..254] (R40) -/
  icoef : Vector Byte 255
  /-- RNGREQ (R41) -/
  rngReq : RngReq
  /-- the `k` of the loop of R151 while a GENPTS is in it, none outside; log 12 -/
  drawAt : Option Nat
  /-- the level of the `rst_n` pin (R61, R240) -/
  rstN : Bool
  /-- the response to the last bus transaction, none before the first (R60, R61); log 10 -/
  busResp : Option BusResp
  /-- the MODEL's counter that selects the unspecified buffer content of R44; log 7 -/
  ramEpoch : Nat
  /-- the events still to come, oldest first; log 1 -/
  schedule : List Event
  deriving DecidableEq, Repr

/-- The reset state of R43 for a part with the given hardwired parameters. -/
def State.resetOf (slotsM1 : BitVec 8) (maxlenM1 : BitVec 16) : State where
  slotsM1 := slotsM1
  maxlenM1 := maxlenM1
  ieDone := false
  ieErr := false
  done := false
  err := false
  ovr := false
  result := 0
  errCode := .ok
  errInfo := 0
  ncoef := 0
  npts := 0
  nslots := 0
  seclen := 0
  tstate := .uninitialized
  ram := []
  eng := .idle
  icoef := Vector.replicate 255 0
  rngReq := .idle
  drawAt := none
  rstN := true
  busResp := none
  ramEpoch := 0
  schedule := []

/-- The machine right after reset (R43, R240), for the part's own parameters (log 9). -/
def State.reset : State := State.resetOf Config.slotsM1 Config.maxlenM1

end Sys2Proof.Machine
end

