-- ==== Sys2Proof/Machine/Ops.lean ====
section
/-! DEFINITION. The named operations over memory, tables and registers: buffer RAM (R44, R62, R65), table entries
(R30), the command lifecycle (R200, R202, R69), taking an error (R203) and acknowledging it (R25, R209), reset (R240). -/

namespace Sys2Proof.Machine

/-! ### Buffer RAM -/

/-- The byte listed at an offset, none where nothing was written since reset (R44). -/
def Memory.read : Memory → Nat → Option Byte
  | [], _ => none
  | (k, v) :: rest, a => if k = a then some v else Memory.read rest a

/-- Write one byte, keeping the offsets strictly rising. -/
def Memory.write : Memory → Nat → Byte → Memory
  | [], a, b => [(a, b)]
  | (k, v) :: rest, a, b =>
    if a < k then (a, b) :: (k, v) :: rest
    else if a = k then (a, b) :: rest
    else (k, v) :: Memory.write rest a b

/-- Every listed offset is above `lo`, and the offsets rise strictly. -/
def Memory.risesFrom : Nat → Memory → Bool
  | _, [] => true
  | lo, (k, _) :: rest => decide (lo < k) && Memory.risesFrom k rest

/-- The canonical form: offsets strictly rising. (An unlisted offset has no value, so no entry can equal it.) -/
def Memory.wf : Memory → Bool
  | [] => true
  | (k, _) :: rest => Memory.risesFrom k rest

/-- Write a sequence of byte elements into a window, one element per 32-bit word (R62, R66). -/
def Memory.writeElems : Memory → Nat → List Byte → Memory
  | m, _, [] => m
  | m, base, b :: rest => Memory.writeElems (Memory.write m base b) (base + 4) rest

/-- The byte the RAM holds at an offset: the last value written, and before that the unspecified value of R44,
which a host read returns and a command uses. -/
def State.elemByte (s : State) (a : Nat) : Byte :=
  match Memory.read s.ram a with
  | some b => b
  | none => Config.unwrittenByte s.ramEpoch a

/-- A write to a byte element stores `wdata[7:0]` (R65). -/
def State.setElem (s : State) (a : Nat) (b : Byte) : State :=
  { s with ram := Memory.write s.ram a b }

/-- A 17-bit element in the byte lanes `a`, `a + 1`, `a + 2` of its word, little-endian (R36, R62). Log 18. -/
def State.elem17 (s : State) (a : Nat) : BitVec 17 :=
  (s.elemByte (a + 2) ++ s.elemByte (a + 1) ++ s.elemByte a).setWidth 17

/-- Store a 17-bit element in its byte lanes (R36, R65). Log 18. -/
def State.setElem17 (s : State) (a : Nat) (v : BitVec 17) : State :=
  { s with
    ram := Memory.write (Memory.write (Memory.write s.ram a (v.extractLsb' 0 8))
      (a + 1) (v.extractLsb' 8 8)) (a + 2) ((v.extractLsb' 16 1).setWidth 8) }

/-- Store byte elements at a window's base and the following words. -/
def State.setElems (s : State) (base : Nat) (bs : List Byte) : State :=
  { s with ram := Memory.writeElems s.ram base bs }

/-! ### Table entries -/

/-- Entry `i` of a field table (R30). -/
def Table.entry (t : Table) (i : Byte) : Byte := t[i.toNat]'i.isLt

/-- A field table with entry `i` set. -/
def Table.setEntry (t : Table) (i v : Byte) : Table := t.set i.toNat v i.isLt

/-- `exps[n]` for an exponent already reduced mod 255, or the table index 255 itself (R118, R172). -/
def expAt (exps : Table) (n : Nat) : Byte := Table.entry exps (BitVec.ofNat 8 n)

/-- `logs[v]` as an unsigned number (R8, R118). -/
def logOf (logs : Table) (v : Byte) : Nat := (Table.entry logs v).toNat

/-! ### ICOEF -/

/-- ICOEF with every entry 0 (R40, R153). -/
def icoefZero : Vector Byte 255 := Vector.replicate 255 0

/-- `ICOEF[k]` (R40). -/
def icoefAt (coeffs : Vector Byte 255) (k : Nat) : Byte := coeffs[k]?.getD 0

/-- `ICOEF[k] <- b` (R151). -/
def icoefSet (coeffs : Vector Byte 255) (k : Nat) (b : Byte) : Vector Byte 255 :=
  coeffs.setIfInBounds k b

/-! ### Register updates by commands -/

/-- `RESULT <- zext_32(r)` (R27). -/
def State.setResult (s : State) (r : Byte) : State := { s with result := r }

/-- TSTATE and the tables (R111, R116). -/
def State.setTables (s : State) (t : TState) : State := { s with tstate := t }

/-! ### The events and the ports -/

/-- The events still to come. -/
def State.setSchedule (s : State) (rest : List Event) : State := { s with schedule := rest }

/-- The response on the bus outputs (R60, R61). -/
def State.respond (s : State) (r : BusResp) : State := { s with busResp := some r }

/-! ### Drawing the coefficients (R151) and the random-source port (R212) -/

/-- `ICOEF[0] <- s`, and the loop of R151 begins at k = 1. -/
def State.startDraws (s : State) (secret : Byte) : State :=
  { s with icoef := icoefSet s.icoef 0 secret, drawAt := some 1 }

/-- `ICOEF[k] <- b`, and the loop goes on to the next k (R151). -/
def State.keepDraw (s : State) (k : Nat) (b : Byte) : State :=
  { s with icoef := icoefSet s.icoef k b, drawAt := some (k + 1) }

/-- Every entry of ICOEF to 0 (R153); the loop of R151 is over. -/
def State.clearDraws (s : State) : State := { s with icoef := icoefZero, drawAt := none }

/-- A `Draw()` makes its request: the block raises `rng_req`, RNGREQ = pending (R212). -/
def State.request (s : State) : State := { s with rngReq := .pending }

/-- The request is answered: the block drops `rng_req`, RNGREQ = idle (R212). -/
def State.dropRequest (s : State) : State := { s with rngReq := .idle }

/-! ### Register writes of the host -/

/-- CTRL: IE_DONE is bit 0, IE_ERR is bit 1 (R24). -/
def State.setCtrl (s : State) (d : Word) : State := { s with ieDone := d.getLsbD 0, ieErr := d.getLsbD 1 }

/-- NCOEF stores the low 9 bits (R29). -/
def State.setNcoef (s : State) (v : BitVec 9) : State := { s with ncoef := v }

/-- NPTS stores the low 9 bits (R29). -/
def State.setNpts (s : State) (v : BitVec 9) : State := { s with npts := v }

/-- NSLOTS stores the low 9 bits (R29). -/
def State.setNslots (s : State) (v : BitVec 9) : State := { s with nslots := v }

/-- SECLEN holds 17 bits (R29). -/
def State.setSeclen (s : State) (v : BitVec 17) : State := { s with seclen := v }

/-! ### The command lifecycle -/

/-- Acceptance: ENG <- BUSY(w), BUSY <- 1, DONE <- 0; ERR, OVR, RESULT and ERRINFO keep their values (R200). -/
def State.accept (s : State) (w : Word) : State := { s with eng := .busy w, done := false }

/-- A CMD write while BUSY is dropped: OVR <- 1, nothing else (R69). -/
def State.dropCmd (s : State) : State := { s with ovr := true }

/-- `complete()`: ENG <- IDLE, BUSY <- 0, DONE <- 1, ERRINFO <- 0; ERR and OVR keep their values (R202). -/
def State.complete (s : State) : State :=
  { s with eng := .idle, done := true, errCode := .ok, errInfo := 0 }

/-- TAKING AN ERROR, `raise Error(CODE, info)`: ENG <- IDLE, BUSY <- 0, DONE <- 1, ERR <- 1 and
ERRINFO <- (info, CODE), in one transition; no other state changes (R203, R204). -/
def State.raise (s : State) (code : Code) (info : Nat) : State :=
  { s with eng := .idle, done := true, err := true, errCode := code, errInfo := BitVec.ofNat 16 info }

/-- RETURN AND ACKNOWLEDGEMENT: a write to STATUS clears each of DONE, ERR and OVR whose written bit is 1; nothing
is restored, there is no saved state (R25, R209). -/
def State.ackStatus (s : State) (d : Word) : State :=
  { s with
    done := s.done && !d.getLsbD 2
    err := s.err && !d.getLsbD 3
    ovr := s.ovr && !d.getLsbD 4 }

/-! ### Reset -/

/-- Reset: every register takes its value of R43, a running command is abandoned, the buffers hold unspecified
values (R44, R240). The pin's level, the hardwired parameters and the outside world's events stay. -/
def State.takeReset (s : State) : State :=
  { State.resetOf s.slotsM1 s.maxlenM1 with
    ramEpoch := s.ramEpoch + 1
    rstN := s.rstN
    schedule := s.schedule }

/-- The `rst_n` pin takes a level: "while `rst_n` = 0, and on its release, the block takes the reset state" (R240). -/
def State.setRstN (s : State) (level : Bool) : State :=
  if level && s.rstN then s else { s.takeReset with rstN := level }

end Sys2Proof.Machine
end

