-- ==== Sys2Proof/Machine/AddressMap.lean ====
section
/-! DEFINITION. The address map (R66), window index decoding (R67) and which locations the bus lock covers (R68). -/

namespace Sys2Proof.Machine

/-- What an aligned, mapped offset names (R66). -/
inductive Loc where
  | id | caps | poly | ctrl | status | cmd | result | errinfo | ncoef | npts | nslots | seclen
  | coef (i : Nat)
  | xs (i : Nat)
  | ys (i : Nat)
  | exps (i : Nat)
  | logs (v : Nat)
  | slotId (slot : Nat)
  | slotLen (slot : Nat)
  | secret (j : Nat)
  | pay (slot j : Nat)
  deriving DecidableEq, Repr

/-- The byte offset of a location (R66; R32 to R38 for the windows). -/
def Loc.offset : Loc → Nat
  | .id => 0x0000
  | .caps => 0x0004
  | .poly => 0x0008
  | .ctrl => 0x000C
  | .status => 0x0010
  | .cmd => 0x0014
  | .result => 0x0018
  | .errinfo => 0x001C
  | .ncoef => 0x0020
  | .npts => 0x0024
  | .nslots => 0x0028
  | .seclen => 0x002C
  | .coef i => 0x0400 + 4 * i
  | .xs i => 0x0800 + 4 * i
  | .ys i => 0x0C00 + 4 * i
  | .exps i => 0x1000 + 4 * i
  | .logs v => 0x1400 + 4 * v
  | .slotId slot => 0x1800 + 4 * slot
  | .slotLen slot => 0x1C00 + 4 * slot
  | .secret j => 0x00800000 + 4 * j
  | .pay slot j => 0x01000000 + 0x40000 * slot + 4 * j

/-- The index of the location is inside its window on a part with these parameters (R66, R67). -/
def Loc.mapped (slots maxlen : Nat) : Loc → Bool
  | .coef i => decide (i < 256)
  | .xs i => decide (i < 256)
  | .ys i => decide (i < 256)
  | .exps i => decide (i < 256)
  | .logs v => decide (v < 256)
  | .slotId slot => decide (slot < slots)
  | .slotLen slot => decide (slot < slots)
  | .secret j => decide (j < maxlen)
  | .pay slot j => decide (slot < slots ∧ j < maxlen)
  | _ => true

/-- The register at an aligned offset below 0x0030 (R66). -/
def registerAt (a : Nat) : Option Loc :=
  match a / 4 with
  | 0 => some .id
  | 1 => some .caps
  | 2 => some .poly
  | 3 => some .ctrl
  | 4 => some .status
  | 5 => some .cmd
  | 6 => some .result
  | 7 => some .errinfo
  | 8 => some .ncoef
  | 9 => some .npts
  | 10 => some .nslots
  | 11 => some .seclen
  | _ => none

/-- The window location at an aligned offset, before its index is checked (R66, R67). -/
def regionAt (a : Nat) : Option Loc :=
  if a < 0x0030 then registerAt a
  else if a < 0x0400 then none
  else if a < 0x0800 then some (.coef ((a - 0x0400) / 4))
  else if a < 0x0C00 then some (.xs ((a - 0x0800) / 4))
  else if a < 0x1000 then some (.ys ((a - 0x0C00) / 4))
  else if a < 0x1400 then some (.exps ((a - 0x1000) / 4))
  else if a < 0x1800 then some (.logs ((a - 0x1400) / 4))
  else if a < 0x1C00 then some (.slotId ((a - 0x1800) / 4))
  else if a < 0x2000 then some (.slotLen ((a - 0x1C00) / 4))
  else if a < 0x00800000 then none
  else if a < 0x00840000 then some (.secret ((a - 0x00800000) / 4))
  else if a < 0x01000000 then none
  else if a < 0x05000000 then
    some (.pay ((a - 0x01000000) / 0x40000) ((a - 0x01000000) / 4 % 0x10000))
  else none

/-- The location an aligned offset names, none where the map has nothing (R64, R66, R67). -/
def locate (slots maxlen a : Nat) : Option Loc :=
  match regionAt a with
  | some l => if l.mapped slots maxlen then some l else none
  | none => none

/-- While BUSY every location but ID, CAPS, POLY, CTRL, STATUS and CMD is locked (R68). -/
def Loc.locked : Loc → Bool
  | .id => false
  | .caps => false
  | .poly => false
  | .ctrl => false
  | .status => false
  | .cmd => false
  | _ => true

/-- A write to a read-only register or window gets ERR (R65). -/
def Loc.readOnly : Loc → Bool
  | .id => true
  | .caps => true
  | .poly => true
  | .result => true
  | .errinfo => true
  | .seclen => true
  | .exps _ => true
  | .logs _ => true
  | .secret _ => true
  | _ => false

/-- P_SLOTS of the part, in [1, 256] (R7, R23). -/
def State.slots (s : State) : Nat := s.slotsM1.toNat + 1

/-- P_MAXLEN of the part, in [1, 65536] (R7, R23). -/
def State.maxlen (s : State) : Nat := s.maxlenM1.toNat + 1

end Sys2Proof.Machine
end

