-- ==== Sys2Proof/Machine/Flags.lean ====
section
/-! DEFINITION. The STATUS flags and the words of the status and control registers (R21 to R29), the code values of
ERRINFO (R205), and the output pins computed from the state (R208, R212). -/

namespace Sys2Proof.Machine

/-- STATUS.READY = 1 exactly when TSTATE = Ready (R25, R31). -/
def State.ready (s : State) : Bool :=
  match s.tstate with
  | .uninitialized => false
  | .ready _ _ => true

/-- STATUS.BUSY = 1 exactly when ENG is not IDLE (R25, R39). -/
def State.busy (s : State) : Bool :=
  match s.eng with
  | .idle => false
  | .busy _ => true

/-- ERRINFO.CODE values (R205). -/
def Code.value : Code → Byte
  | .ok => 0x00
  | .badOpcode => 0x01
  | .badCmd => 0x02
  | .notReady => 0x03
  | .initFail => 0x04
  | .count => 0x05
  | .valNshares => 0x10
  | .valThreshold => 0x11
  | .valTGtN => 0x12
  | .rng => 0x13
  | .logZero => 0x18
  | .shareFormat => 0x20
  | .shareId => 0x21
  | .lenMismatch => 0x22
  | .lenRange => 0x23

/-- The completion code of a word the decoder rejects (R93, R94). -/
def verdictCode : Verdict → Code
  | .badCmd => .badCmd
  | .badOpcode => .badOpcode

/-- ID (R21). -/
def idWord : Word := 0x53470001

/-- POLY (R22). -/
def polyWord : Word := 0x0000011D

/-- CAPS: MAXLEN_M1, SLOTS_M1, MAX_SHARES = 0xFF (R23). -/
def State.capsWord (s : State) : Word := s.maxlenM1 ++ s.slotsM1 ++ (0xFF : Byte)

/-- CTRL: IE_ERR, IE_DONE; reserved bits read 0 (R24). -/
def State.ctrlWord (s : State) : Word :=
  (BitVec.ofBool s.ieErr ++ BitVec.ofBool s.ieDone).setWidth 32

/-- STATUS: OVR, ERR, DONE, BUSY, READY; reserved bits read 0 (R25). -/
def State.statusWord (s : State) : Word :=
  (BitVec.ofBool s.ovr ++ BitVec.ofBool s.err ++ BitVec.ofBool s.done ++
    BitVec.ofBool s.busy ++ BitVec.ofBool s.ready).setWidth 32

/-- ERRINFO: INFO, 0x00, CODE (R28, R203). -/
def State.errinfoWord (s : State) : Word := s.errInfo ++ (0 : Byte) ++ s.errCode.value

/-- The level interrupt output `irq` (R208). -/
def State.irq (s : State) : Bool := (s.ieDone && s.done) || (s.ieErr && s.err)

/-- The `rng_req` output: raised while RNGREQ = pending (R212). -/
def State.rngReqPin (s : State) : Bool :=
  match s.rngReq with
  | .idle => false
  | .pending => true

end Sys2Proof.Machine
end

