-- ==== Sys2Proof/Machine/Operands.lean ====
section
/-! DEFINITION. Where commands take their operands (R42, R91): the byte fields of the word come decoded; the counts
come from registers; the vectors come from the buffers (R32 to R37) at their offsets (R66). -/

namespace Sys2Proof.Machine

/-- COEF[k], the coefficient of x^k (R32). -/
def State.coef (s : State) (k : Nat) : Byte := s.elemByte (Loc.coef k).offset

/-- XS[i] (R33). -/
def State.xsAt (s : State) (i : Nat) : Byte := s.elemByte (Loc.xs i).offset

/-- YS[i] (R34). -/
def State.ysAt (s : State) (i : Nat) : Byte := s.elemByte (Loc.ys i).offset

/-- SLOT_ID[slot] (R35). -/
def State.slotIdAt (s : State) (slot : Nat) : Byte := s.elemByte (Loc.slotId slot).offset

/-- SLOT_LEN[slot] as an unsigned number (R36). -/
def State.slotLenAt (s : State) (slot : Nat) : Nat := (s.elem17 (Loc.slotLen slot).offset).toNat

/-- PAY[slot][j] (R37). -/
def State.payAt (s : State) (slot j : Nat) : Byte := s.elemByte (Loc.pay slot j).offset

/-- SECRET[j] (R38). -/
def State.secretAt (s : State) (j : Nat) : Byte := s.elemByte (Loc.secret j).offset

/-- XS[0..], YS[0..], SECRET[0..] written in order from index 0 (R152, R180). -/
def State.setXs (s : State) (bs : List Byte) : State := s.setElems (Loc.xs 0).offset bs

/-- YS[0..] written in order from index 0 (R152). -/
def State.setYs (s : State) (bs : List Byte) : State := s.setElems (Loc.ys 0).offset bs

/-- SECRET[0..] written in order from index 0 (R180). -/
def State.setSecret (s : State) (bs : List Byte) : State := s.setElems (Loc.secret 0).offset bs

/-- Run a computation that may raise over a list of indices, keeping the results in order; the first index that
raises ends it. -/
def collect (f : Nat → Except Nat Byte) : List Nat → Except Nat (List Byte)
  | [] => .ok []
  | i :: rest =>
    match f i with
    | .error k => .error k
    | .ok b =>
      match collect f rest with
      | .error k => .error k
      | .ok bs => .ok (b :: bs)

end Sys2Proof.Machine
end

