-- ==== Sys2Proof/Machine/Bus.lean ====
section
/-! DEFINITION. The host bus (20_memory.md): one aligned 32-bit word per transaction (R60, R63), what a read returns
and what a write does at each location (R65, R66, R77), the bus lock (R68). -/

namespace Sys2Proof.Machine

/-- A read of EXPS or LOGS: the entry when Ready, 0 when Uninitialized (R77). -/
def State.expsWindow (s : State) (i : Nat) : Byte :=
  match s.tstate with
  | .uninitialized => 0
  | .ready exps _ => Table.entry exps (BitVec.ofNat 8 i)

/-- A read of LOGS (R77). -/
def State.logsWindow (s : State) (v : Nat) : Byte :=
  match s.tstate with
  | .uninitialized => 0
  | .ready _ logs => Table.entry logs (BitVec.ofNat 8 v)

/-- The word a read of a location returns; an element is zero-extended (R65). Reads have no side effects (R71). -/
def readLoc (s : State) : Loc → Word
  | .id => idWord
  | .caps => s.capsWord
  | .poly => polyWord
  | .ctrl => s.ctrlWord
  | .status => s.statusWord
  | .cmd => 0
  | .result => s.result.setWidth 32
  | .errinfo => s.errinfoWord
  | .ncoef => s.ncoef.setWidth 32
  | .npts => s.npts.setWidth 32
  | .nslots => s.nslots.setWidth 32
  | .seclen => s.seclen.setWidth 32
  | .coef i => (s.coef i).setWidth 32
  | .xs i => (s.xsAt i).setWidth 32
  | .ys i => (s.ysAt i).setWidth 32
  | .exps i => (s.expsWindow i).setWidth 32
  | .logs v => (s.logsWindow v).setWidth 32
  | .slotId slot => (s.slotIdAt slot).setWidth 32
  | .slotLen slot => (s.elem17 (Loc.slotLen slot).offset).setWidth 32
  | .secret j => (s.secretAt j).setWidth 32
  | .pay slot j => (s.payAt slot j).setWidth 32

/-- A CMD write: accepted when the engine is idle, dropped when it is busy (R200, R69). -/
def cmdWrite (s : State) (w : Word) : State := if s.busy then s.dropCmd else s.accept w

/-- What a write does at a location that may be written (R65); a read-only location keeps the state. -/
def writeLoc (s : State) (d : Word) : Loc → State
  | .ctrl => s.setCtrl d
  | .status => s.ackStatus d
  | .cmd => cmdWrite s d
  | .ncoef => s.setNcoef (d.setWidth 9)
  | .npts => s.setNpts (d.setWidth 9)
  | .nslots => s.setNslots (d.setWidth 9)
  | .coef i => s.setElem (Loc.coef i).offset (d.setWidth 8)
  | .xs i => s.setElem (Loc.xs i).offset (d.setWidth 8)
  | .ys i => s.setElem (Loc.ys i).offset (d.setWidth 8)
  | .slotId slot => s.setElem (Loc.slotId slot).offset (d.setWidth 8)
  | .slotLen slot => s.setElem17 (Loc.slotLen slot).offset (d.setWidth 17)
  | .pay slot j => s.setElem (Loc.pay slot j).offset (d.setWidth 8)
  | .id => s
  | .caps => s
  | .poly => s
  | .result => s
  | .errinfo => s
  | .seclen => s
  | .exps _ => s
  | .logs _ => s
  | .secret _ => s

/-- The location a transaction at this offset may reach now: none where it gets ERR because `rst_n` = 0 (R240), the
offset is misaligned (R63) or unmapped (R64), or the location is locked (R68). -/
def reachable (s : State) (addr : Word) : Option Loc :=
  if s.rstN = false then none
  else if addr.toNat % 4 ≠ 0 then none
  else
    match locate s.slots s.maxlen addr.toNat with
    | none => none
    | some l => if s.busy && l.locked then none else some l

/-- The ERR response: `rdata` is 0 and no state changes (R60). -/
def errResp : BusResp := ⟨false, 0⟩

/-- The OKAY response. A write returns no word: `rdata` 0 (log 10). -/
def okayResp (rdata : Word) : BusResp := ⟨true, rdata⟩

/-- The response to a transaction (R60, R63 to R65, R68). -/
def busResponse (s : State) : BusOp → BusResp
  | .read addr =>
    match reachable s addr with
    | none => errResp
    | some l => okayResp (readLoc s l)
  | .write addr _ =>
    match reachable s addr with
    | none => errResp
    | some l => if l.readOnly then errResp else okayResp 0

/-- What a transaction does to the block's state (R60, R65, R71). -/
def busEffect (s : State) : BusOp → State
  | .read _ => s
  | .write addr wdata =>
    match reachable s addr with
    | none => s
    | some l => if l.readOnly then s else writeLoc s wdata l

/-- One bus transaction: its effect, in full, and its response (R60, R70, R72). -/
def busStep (s : State) (op : BusOp) : State :=
  (busEffect s op).respond (busResponse s op)

end Sys2Proof.Machine
end

