-- ==== Sys2Proof/Machine/FieldTables.lean ====
section
/-! DEFINITION. The field tables and the multiplier (40_field_tables.md): NOP, INIT, TRESET, MUL. -/

namespace Sys2Proof.Machine

/-! ### NOP (R117) -/

/-- NOP: `complete()` (R117). -/
def execNop (s : State) : Host.Outcome State Fault Refusal := .next s.complete

/-! ### INIT (R111 to R115) -/

/-- `x <- x << 1; if x > 255 then x <- x xor 0x11D`, on the 9-bit working value (R111). -/
def doubleReduce (x : BitVec 9) : BitVec 9 :=
  if 255 < (x <<< 1).toNat then x <<< 1 ^^^ 0x11D else x <<< 1

/-- The loop of R111 from position `i` on, `n` positions: `exps[i] <- x; logs[x] <- i; x <- 2x`. -/
def buildLoop : (n i : Nat) → (x : BitVec 9) → (exps logs : Table) → Table × Table
  | 0, _, _, exps, logs => (exps, logs)
  | n + 1, i, x, exps, logs =>
    buildLoop n (i + 1) (doubleReduce x)
      (Table.setEntry exps (BitVec.ofNat 8 i) (x.setWidth 8))
      (Table.setEntry logs (x.setWidth 8) (BitVec.ofNat 8 i))

/-- The 256-position loop and `logs[0] <- 0` (R111), over any content the tables held before. -/
def buildTablesOver (exps logs : Table) : Table × Table :=
  let t := buildLoop 256 0 1 exps logs
  (t.1, Table.setEntry t.2 0 0)

/-- The tables INIT builds. What they held before does not matter (R115: R111 "depends on no state"). Log 13. -/
def builtTables : Table × Table := buildTablesOver (Vector.replicate 256 0) (Vector.replicate 256 0)

/-- `SelfCheck() = for all v in [1, 255]: exps[logs[v]] == v` (R114). -/
def selfCheck (exps logs : Table) : Bool :=
  (List.range 255).all fun n =>
    Table.entry exps (Table.entry logs (BitVec.ofNat 8 (n + 1))) == BitVec.ofNat 8 (n + 1)

/-- INIT's end for the tables it has built: INIT_FAIL with TSTATE Uninitialized, or Ready (R111). -/
def finishInit (exps logs : Table) (s : State) : State :=
  if selfCheck exps logs then (s.setTables (.ready exps logs)).complete
  else (s.setTables .uninitialized).raise .initFail 0

/-- INIT (R111). -/
def execInit (s : State) : Host.Outcome State Fault Refusal :=
  .next (finishInit builtTables.1 builtTables.2 s)

/-! ### TRESET (R116) -/

/-- TRESET: `TSTATE <- Uninitialized`, then `complete()` (R116). -/
def execTreset (s : State) : Host.Outcome State Fault Refusal :=
  .next (s.setTables .uninitialized).complete

/-! ### MUL (R118) -/

/-- The product by the tables, 0 with a zero operand and no table read (R118). -/
def gfMul (exps logs : Table) (a b : Byte) : Byte :=
  if a = 0 ∨ b = 0 then 0 else expAt exps ((logOf logs a + logOf logs b) % 255)

/-- MUL a, b (R110, R118). -/
def execMul (a b : Byte) (s : State) : Host.Outcome State Fault Refusal :=
  match s.tstate with
  | .uninitialized => .next (s.raise .notReady 0)
  | .ready exps logs => .next (s.setResult (gfMul exps logs a b)).complete

end Sys2Proof.Machine
end

