-- ==== Sys2Proof/Machine/Polynomial.lean ====
section
/-! DEFINITION. The polynomial engine (41_polynomial.md): EVAL, GENPTS. -/

namespace Sys2Proof.Machine

/-! ### Horner evaluation (R142) -/

/-- The loop of `HornerEval`: the coefficients `k - 1` down to 0 are still to come, and `fx` is the running value.
A step that would read logs[0] raises LOG_ZERO with the index of its coefficient (R142, R143). -/
def hornerLoop (exps logs : Table) (x : Byte) (c : Nat → Byte) : Nat → Byte → Except Nat Byte
  | 0, fx => .ok fx
  | k + 1, fx =>
    if fx = 0 then hornerLoop exps logs x c k (c k)
    else if x = 0 then .error k
    else hornerLoop exps logs x c k (expAt exps ((logOf logs x + logOf logs fx) % 255) ^^^ c k)

/-- `HornerEval(x, c[0..n-1])`, from `fx = 0` (R142). -/
def hornerEval (exps logs : Table) (x : Byte) (c : Nat → Byte) (n : Nat) : Except Nat Byte :=
  hornerLoop exps logs x c n 0

/-! ### EVAL (R141 to R145) -/

/-- A command whose only output is RESULT ends: the value into RESULT, or LOG_ZERO (R142, R172). -/
def finishResult (r : Except Nat Byte) (s : State) : State :=
  match r with
  | .error k => s.raise .logZero k
  | .ok v => (s.setResult v).complete

/-- EVAL x (R142): NOT_READY, COUNT, LOG_ZERO, in that order of checking. -/
def execEval (x : Byte) (s : State) : Host.Outcome State Fault Refusal :=
  match s.tstate with
  | .uninitialized => .next (s.raise .notReady 0)
  | .ready exps logs =>
    if 256 < s.ncoef.toNat then .next (s.raise .count 0)
    else .next (finishResult (hornerEval exps logs x s.coef s.ncoef.toNat) s)

/-! ### GENPTS (R150 to R156) -/

/-- The answer to an outstanding `Draw()` (R151, R212): the block drops `rng_req`; a zero byte is discarded, so the loop
draws again for the same k; a nonzero byte becomes ICOEF[k]; `Fail` clears ICOEF and raises RNG with INFO k. -/
def takeDraw (a : RngAnswer) (s : State) : State :=
  match s.drawAt, a with
  | none, _ => s.dropRequest
  | some k, .fail => s.dropRequest.clearDraws.raise .rng k
  | some k, .byte b => if b = 0 then s.dropRequest else s.dropRequest.keepDraw k b

/-- The points of R152: XS[k-1] = k and YS[k-1] = HornerEval(k, ICOEF[0..T-1]) for k = 1..N; then NPTS <- N, ICOEF <- 0
and completion. (LOG_ZERO cannot be raised, since k is not 0; log 14.) -/
def finishGenpts (exps logs : Table) (numShares threshold : Byte) (s : State) : State :=
  match collect (fun i => hornerEval exps logs (BitVec.ofNat 8 (i + 1)) (icoefAt s.icoef) threshold.toNat)
      (List.range numShares.toNat) with
  | .error k => s.clearDraws.raise .logZero k
  | .ok ys =>
    (((s.setXs ((List.range numShares.toNat).map fun i => BitVec.ofNat 8 (i + 1))).setYs ys).setNpts
      (numShares.setWidth 9)).clearDraws.complete

/-- The operand checks of R150, in the source's order; none when they all pass. -/
def genptsCheck (numShares threshold : Byte) : Option Code :=
  if numShares.toNat < 2 ∨ 255 < numShares.toNat then some .valNshares
  else if threshold.toNat < 2 ∨ 255 < threshold.toNat then some .valThreshold
  else if numShares.toNat < threshold.toNat then some .valTGtN
  else none

/-- The loop of R151 at coefficient `k`: nothing while a `Draw()` is outstanding; the next request while k <= T-1; then
the outputs of R152. -/
def goOnGenpts (exps logs : Table) (numShares threshold : Byte) (k : Nat) (s : State) : State :=
  match s.rngReq with
  | .pending => s
  | .idle => if k < threshold.toNat then s.request else finishGenpts exps logs numShares threshold s

/-- GENPTS s, N, T (R150 to R153). The engine's first turn checks the operands and makes the first request; every later
turn goes on from where the loop of R151 is. Each `Draw()` is an interaction of its own (R201): a request in a turn of
the engine, then the answer (`takeDraw`). -/
def execGenpts (secret numShares threshold : Byte) (s : State) : Host.Outcome State Fault Refusal :=
  match s.tstate with
  | .uninitialized => .next (s.clearDraws.raise .notReady 0)
  | .ready exps logs =>
    match s.drawAt with
    | some k => .next (goOnGenpts exps logs numShares threshold k s)
    | none =>
      match genptsCheck numShares threshold with
      | some code => .next (s.clearDraws.raise code 0)
      | none => .next (s.startDraws secret).request

end Sys2Proof.Machine
end

