-- ==== Sys2Proof/Machine/Reconstructor.lean ====
section
/-! DEFINITION. The reconstructor (42_reconstructor.md): LAGR, COMBINE. -/

namespace Sys2Proof.Machine

/-! ### Lagrange interpolation at one point (R172, R173) -/

/-- The term of node `i` is skipped: some other node is the point itself (R172). -/
def skipped (pt : Byte) (xs : Nat → Byte) (n i : Nat) : Bool :=
  (List.range n).any fun j => decide (j ≠ i) && xs j == pt

/-- The inner loop of R172 over the nodes `j`: the product's log; LOG_ZERO with INFO `i` where another node equals
node `i` (R173). -/
def termLoop (logs : Table) (pt : Byte) (xs : Nat → Byte) (i : Nat) : List Nat → Nat → Except Nat Nat
  | [], product => .ok product
  | j :: rest, product =>
    if j = i then termLoop logs pt xs i rest product
    else if xs i ^^^ xs j = 0 then .error i
    else
      termLoop logs pt xs i rest
        ((product + logOf logs (pt ^^^ xs j) + 255 - logOf logs (xs i ^^^ xs j)) % 255)

/-- The outer loop of R172 over the terms `i`, from the running sum on. -/
def sumLoop (exps logs : Table) (pt : Byte) (xs ys : Nat → Byte) (n : Nat) :
    List Nat → Byte → Except Nat Byte
  | [], sum => .ok sum
  | i :: rest, sum =>
    if ys i = 0 then sumLoop exps logs pt xs ys n rest sum
    else if skipped pt xs n i then sumLoop exps logs pt xs ys n rest sum
    else
      match termLoop logs pt xs i (List.range n) (logOf logs (ys i)) with
      | .error k => .error k
      | .ok product => sumLoop exps logs pt xs ys n rest (sum ^^^ expAt exps product)

/-- `Lagrange(at, xs[0..n-1], ys[0..n-1])` (R172). -/
def lagrange (exps logs : Table) (pt : Byte) (xs ys : Nat → Byte) (n : Nat) : Except Nat Byte :=
  sumLoop exps logs pt xs ys n (List.range n) 0

/-! ### LAGR (R171 to R175) -/

/-- LAGR at (R172): NOT_READY, COUNT, LOG_ZERO, in that order of checking. -/
def execLagr (pt : Byte) (s : State) : Host.Outcome State Fault Refusal :=
  match s.tstate with
  | .uninitialized => .next (s.raise .notReady 0)
  | .ready exps logs =>
    if 256 < s.npts.toNat then .next (s.raise .count 0)
    else .next (finishResult (lagrange exps logs pt s.xsAt s.ysAt s.npts.toNat) s)

/-! ### COMBINE (R176 to R183) -/

/-- The decode checks of one slot (R177): empty payload, id 0, payload beyond P_MAXLEN, in that order. -/
def slotError (s : State) (slot : Nat) : Option Code :=
  if s.slotLenAt slot = 0 then some .shareFormat
  else if s.slotIdAt slot = 0 then some .shareId
  else if s.maxlen < s.slotLenAt slot then some .lenRange
  else none

/-- The first slot that fails its decode checks, with the code (R177). -/
def firstSlotError (s : State) : List Nat → Option (Code × Nat)
  | [] => none
  | slot :: rest =>
    match slotError s slot with
    | some code => some (code, slot)
    | none => firstSlotError s rest

/-- The de-duplication loop of R178: `seen` is U so far, in first-seen order. -/
def dedupLoop (ids : Nat → Byte) (seen : List Nat) : List Nat → List Nat
  | [] => seen
  | slot :: rest =>
    if seen.any fun u => ids u == ids slot then dedupLoop ids seen rest
    else dedupLoop ids (seen ++ [slot]) rest

/-- U: the unique slots in first-seen order (R178). -/
def uniqueSlots (s : State) : List Nat := dedupLoop s.slotIdAt [] (List.range s.nslots.toNat)

/-- L: the payload length of the first unique slot, 0 with none (R179). -/
def payloadLength (s : State) : List Nat → Nat
  | [] => 0
  | u :: _ => s.slotLenAt u

/-- The first unique slot whose length is not L (R179). -/
def firstMismatch (s : State) (len : Nat) : List Nat → Option Nat
  | [] => none
  | u :: rest => if s.slotLenAt u = len then firstMismatch s len rest else some u

/-- The interpolations of R180, one per byte position, over the unique slots. -/
def combineBytes (exps logs : Table) (pt : Byte) (s : State) (unique : List Nat) (len : Nat) :
    Except Nat (List Byte) :=
  collect (fun j =>
    lagrange exps logs pt (fun i => s.slotIdAt (unique.getD i 0)) (fun i => s.payAt (unique.getD i 0) j)
      unique.length) (List.range len)

/-- COMBINE's end once the slots have passed R177: LEN_MISMATCH (R179), or SECRET[0..L-1] and SECLEN (R180).
(LOG_ZERO cannot be raised, R182; log 14.) -/
def finishCombine (exps logs : Table) (pt : Byte) (unique : List Nat) (s : State) : State :=
  match firstMismatch s (payloadLength s unique) unique with
  | some u => s.raise .lenMismatch u
  | none =>
    match combineBytes exps logs pt s unique (payloadLength s unique) with
    | .error k => s.raise .logZero k
    | .ok bytes => ((s.setSecret bytes).setSeclen (BitVec.ofNat 17 (payloadLength s unique))).complete

/-- COMBINE at (R176 to R180): NOT_READY, COUNT, the slot checks, the length check, then the outputs. -/
def execCombine (pt : Byte) (s : State) : Host.Outcome State Fault Refusal :=
  match s.tstate with
  | .uninitialized => .next (s.raise .notReady 0)
  | .ready exps logs =>
    if s.slots < s.nslots.toNat then .next (s.raise .count 0)
    else
      match firstSlotError s (List.range s.nslots.toNat) with
      | some (code, slot) => .next (s.raise code slot)
      | none => .next (finishCombine exps logs pt (uniqueSlots s) s)

end Sys2Proof.Machine
end

