-- ==== Sys2Proof/Machine/Dispatch.lean ====
section
/-! DEFINITION. One arm per command (R92, R201): each is one direct call of its meaning. -/

namespace Sys2Proof.Machine

def exec (i : Instr) (s : State) : Host.Outcome State Fault Refusal :=
  match i with
  | .nop => Sys2Proof.Machine.execNop s
  | .init => Sys2Proof.Machine.execInit s
  | .treset => Sys2Proof.Machine.execTreset s
  | .mul a b => Sys2Proof.Machine.execMul a b s
  | .eval x => Sys2Proof.Machine.execEval x s
  | .genpts secret numShares threshold => Sys2Proof.Machine.execGenpts secret numShares threshold s
  | .lagr pt => Sys2Proof.Machine.execLagr pt s
  | .combine pt => Sys2Proof.Machine.execCombine pt s

end Sys2Proof.Machine
end

