-- ==== Sys2Proof/Machine/Engine.lean ====
section
/-! DEFINITION. The agents' turns (R72, R201, R212, R240, R250): the engine runs the accepted word, the host's
transactions, the random source's answers, the reset pin. -/

namespace Sys2Proof.Machine

/-- The engine performs `decode(w)` (R201); a word that is no command completes with its error (R93, R94). -/
def runCommand (w : Word) (s : State) : Host.Outcome State Fault Refusal :=
  match decode w with
  | .ok i => exec i s
  | .error v => .next (s.raise (verdictCode v) 0)

/-- The engine's turn: nothing while IDLE; nothing while a `Draw()` is outstanding (R156, R212); else the accepted
command runs (R201). -/
def engineTurn (s : State) : Host.Outcome State Fault Refusal :=
  match s.eng, s.rngReq with
  | .idle, _ => .next s
  | .busy _, .pending => .next s
  | .busy w, .idle => runCommand w s

/-- The answer on the port at `rng_ack` = 1: `Fail` if `rng_fail` = 1, and `Byte(rng_data)` otherwise (R212). -/
def portAnswer (fail : Bool) (data : Byte) : RngAnswer := if fail then .fail else .byte data

/-- The random source presents an answer. It answers the outstanding request of the running command (R212); with no
request outstanding it is ignored (R240). -/
def answerTurn (a : RngAnswer) (s : State) : State :=
  match s.eng, s.rngReq with
  | .busy _, .pending => takeDraw a s
  | .busy _, .idle => s
  | .idle, _ => s

/-- One turn while `rst_n` = 0: every transaction gets ERR, answers are ignored, the engine stands still (R240). -/
def resetTurn (s : State) : State :=
  match s.schedule with
  | [] => s
  | .bus op :: rest => busStep (s.setSchedule rest) op
  | .engine :: rest => s.setSchedule rest
  | .rng _ _ :: rest => s.setSchedule rest
  | .rst level :: rest => (s.setSchedule rest).setRstN level

/-- One turn while `rst_n` = 1: the head of the events moves; with none left the engine does (R250). -/
def activeTurn (s : State) : Host.Outcome State Fault Refusal :=
  match s.schedule with
  | [] => engineTurn s
  | .bus op :: rest => .next (busStep (s.setSchedule rest) op)
  | .engine :: rest => engineTurn (s.setSchedule rest)
  | .rng fail data :: rest => .next (answerTurn (portAnswer fail data) (s.setSchedule rest))
  | .rst level :: rest => .next ((s.setSchedule rest).setRstN level)

/-- One step of the block and the world it stands in. -/
def agentTurn (s : State) : Host.Outcome State Fault Refusal :=
  if s.rstN then activeTurn s else .next (resetTurn s)

/-- A state whose engine has just accepted the word and has its turn next: what an accepted CMD write leaves (R200),
with reset released and no draw begun. -/
def State.withCommand (s : State) (w : Word) : State :=
  { s.accept w with
    rstN := true
    rngReq := .idle
    drawAt := none
    icoef := icoefZero
    schedule := .engine :: s.schedule }

end Sys2Proof.Machine
end

