-- ==== Sys2Proof/Machine/Step.lean ====
section
/-! DEFINITION. One step of the machine, and how an instruction is put where the next step runs it. -/

namespace Sys2Proof.Machine

/-- One step: one event of the schedule, or the engine's turn (R72, R250). -/
def step (s : State) : Host.Outcome State Fault Refusal := Sys2Proof.Machine.agentTurn s

/-- The state in which the very next step runs the command word: the block fetches nothing (R75), a command comes by
a CMD write (R26), so this is the state an accepted write of the word leaves, the engine's turn next. Log 2. -/
def State.withFetchWord (s : State) (nbits w : Nat) : State := s.withCommand (tableWord nbits w)

end Sys2Proof.Machine
end

