-- ==== Sys2Proof/Machine/HostProgram.lean ====
section
/-! DEFINITION. Host programs (R99): the statements, the host actions they expand to, and how a program runs on the
block while the other agents move between the host's transactions (R72, R250). -/

namespace Sys2Proof.Machine

/-- A host program statement (R99). -/
inductive HostStmt where
  /-- `wr OFF, V` -/
  | wr (off v : Word)
  /-- `rd OFF`, or `rd OFF -> V` with the expected `rdata` -/
  | rd (off : Word) (expected : Option Word)
  /-- a command (R98): its CMD write -/
  | command (i : Instr)
  /-- `wait`: repeat `rd 0x0010` until bit 1 (BUSY) of the result is 0 -/
  | wait
  /-- `clr`: clear DONE, ERR, OVR -/
  | clr
  /-- `ldcoef c0, c1, ...` -/
  | ldcoef (coeffs : List Byte)
  /-- `ldpts (x0,y0), (x1,y1), ...` -/
  | ldpts (points : List (Byte × Byte))
  /-- `ldslot s, id, [p0, p1, ...]` -/
  | ldslot (slot : Nat) (id : Byte) (payload : List Byte)
  deriving DecidableEq, Repr

/-- What the statements expand to: one action of the host. -/
inductive HostOp where
  /-- one transaction, with the `rdata` it is expected to return if one is stated -/
  | access (op : BusOp) (expected : Option Word)
  /-- `rd 0x0010`, again and again until its result has BUSY = 0 -/
  | poll
  deriving DecidableEq, Repr

/-! ### The expansions -/

/-- `MemWrite(OFF, 4, V)` at a location's offset (R99). -/
def writeAt (l : Loc) (v : Word) : HostOp := .access (.write (BitVec.ofNat 32 l.offset) v) none

/-- Byte elements written at consecutive indices of a window, from index `i` on. -/
def writeFrom (at_ : Nat → Loc) : Nat → List Byte → List HostOp
  | _, [] => []
  | i, b :: rest => writeAt (at_ i) (b.setWidth 32) :: writeFrom at_ (i + 1) rest

/-- The points of `ldpts` from index `i` on: `wr 0x0800+4i, x_i`, `wr 0x0C00+4i, y_i`. -/
def writePoints : Nat → List (Byte × Byte) → List HostOp
  | _, [] => []
  | i, (x, y) :: rest =>
    writeAt (.xs i) (x.setWidth 32) :: writeAt (.ys i) (y.setWidth 32) :: writePoints (i + 1) rest

/-- The expansion of a statement (R99). -/
def HostStmt.ops : HostStmt → List HostOp
  | .wr off v => [.access (.write off v) none]
  | .rd off expected => [.access (.read off) expected]
  | .command i => [writeAt .cmd (encode i)]
  | .wait => [.poll]
  | .clr => [writeAt .status 0x0000001C]
  | .ldcoef coeffs => writeFrom .coef 0 coeffs ++ [writeAt .ncoef (BitVec.ofNat 32 coeffs.length)]
  | .ldpts points => writePoints 0 points ++ [writeAt .npts (BitVec.ofNat 32 points.length)]
  | .ldslot slot id payload =>
    writeAt (.slotId slot) (id.setWidth 32) :: writeAt (.slotLen slot) (BitVec.ofNat 32 payload.length) ::
      writeFrom (.pay slot) 0 payload

/-- The expansion of a host program. -/
def programOps (p : List HostStmt) : List HostOp := p.flatMap HostStmt.ops

/-- An action as an event, where it is one transaction whatever the block answers; none for the polling loop. -/
def HostOp.event? : HostOp → Option Event
  | .access op _ => some (.bus op)
  | .poll => none

/-- The transactions of a statement as events (R99). `wait` has no fixed list of them and gives none: it runs by
`HostRun.move`. -/
def HostStmt.events (st : HostStmt) : List Event := st.ops.filterMap HostOp.event?

/-! ### Running a program -/

/-- The transaction an action performs: a poll is `rd 0x0010` (R99). -/
def HostOp.transaction : HostOp → BusOp
  | .access op _ => op
  | .poll => .read (BitVec.ofNat 32 Loc.status.offset)

/-- Bit 1 (BUSY) of the result of a read of STATUS (R25, R99). An ERR result is 0 (R60), so it ends the loop. -/
def busyBit : Option BusResp → Bool
  | some r => r.rdata.getLsbD 1
  | none => false

/-- The actions still to come after this one got its response: a poll that sees BUSY = 1 comes again (R99). -/
def HostOp.remaining (o : HostOp) (resp : Option BusResp) (rest : List HostOp) : List HostOp :=
  match o with
  | .access _ _ => rest
  | .poll => if busyBit resp then .poll :: rest else rest

/-- The expectation of `rd OFF -> V` about the response (R99). The rule states the expected `rdata` only; that the
response is OKAY as well is the model's choice (DESIGN CHOICE, log 24). -/
def HostOp.met : HostOp → Option BusResp → Bool
  | .access _ (some v), resp => resp == some (okayResp v)
  | .access _ none, _ => true
  | .poll, _ => true

/-- A host in the middle of its program: the actions to come, whether every expectation was met so far, the block. -/
structure HostRun where
  todo : List HostOp
  met : Bool
  block : State
  deriving DecidableEq, Repr

/-- A program about to run on a block. -/
def HostRun.start (p : List HostStmt) (s : State) : HostRun := ⟨programOps p, true, s⟩

/-- Which agent moves next: the host goes on with its program, or another agent does its event (the engine's turn, an
answer, the reset pin, another master's transaction). Log 20. -/
inductive Move where
  | host
  | other (e : Event)
  deriving DecidableEq, Repr

/-- One move: one step of the block on one event. A host without actions left does nothing. Log 20. -/
def HostRun.move (r : HostRun) : Move → Host.Outcome HostRun Fault Refusal
  | .other e =>
    match step (r.block.setSchedule [e]) with
    | .next t => .next { r with block := t }
    | .fault f => .fault f
    | .refused q => .refused q
  | .host =>
    match r.todo with
    | [] => .next r
    | o :: rest =>
      match step (r.block.setSchedule [.bus o.transaction]) with
      | .next t => .next ⟨o.remaining t.busResp rest, r.met && o.met t.busResp, t⟩
      | .fault f => .fault f
      | .refused q => .refused q

/-- The moves of a list, one after the other. -/
def HostRun.run (r : HostRun) : List Move → Host.Outcome HostRun Fault Refusal
  | [] => .next r
  | m :: rest =>
    match r.move m with
    | .next t => t.run rest
    | .fault f => .fault f
    | .refused q => .refused q

end Sys2Proof.Machine
end

