-- ==== Sys2Proof/Safety.lean ====
section
/-! DEFINITION. What holds of every state of a run: the invariant of the block, in the terms the statements use. -/

namespace Sys2Proof.Machine

/-- The buffer RAM keeps its canonical form. -/
def RamCanonical (s : State) : Prop := Memory.wf s.ram = true

/-- In state Ready the tables hold the content of R112. -/
def TablesListed (s : State) : Prop :=
  s.tstate = .uninitialized ∨ s.tstate = .ready expsTable logsTable

/-- The command `w` is a GENPTS whose operand checks passed (R150), with this secret byte, N and T. -/
def IsGenpts (w : Word) (secret numShares threshold : Byte) : Prop :=
  decode w = .ok (.genpts secret numShares threshold) ∧ genptsCheck numShares threshold = none

/-- ICOEF while the loop of R151 is at coefficient `k`: the secret byte, `k - 1` nonzero coefficients, then zeros. -/
def IcoefDrawn (c : Vector Byte 255) (secret : Byte) (k : Nat) : Prop :=
  icoefAt c 0 = secret ∧ (∀ i, 1 ≤ i → i < k → icoefAt c i ≠ 0) ∧ (∀ i, 1 ≤ i → k ≤ i → icoefAt c i = 0)

/-- The loop of R151 is entered only by a running GENPTS whose checks passed, for one of its coefficients 1..T-1 or, with
all of them drawn and no request outstanding, at T. -/
def DrawInsideGenpts (s : State) : Prop :=
  ∀ k, s.drawAt = some k →
    ∃ w secret numShares threshold, s.eng = .busy w ∧ IsGenpts w secret numShares threshold ∧
      s.ready = true ∧ 1 ≤ k ∧ k ≤ threshold.toNat ∧ (s.rngReq = .pending → k < threshold.toNat) ∧
      IcoefDrawn s.icoef secret k

/-- RNGREQ is pending only while a `Draw()` is outstanding inside a GENPTS (R41). -/
def RequestInsideLoop (s : State) : Prop := s.rngReq = .pending → s.drawAt ≠ none

/-- Outside the loop of a GENPTS every entry of ICOEF is 0 (R40, R153). -/
def IcoefCleared (s : State) : Prop := s.drawAt = none → s.icoef = icoefZero

/-- DONE is 0 while a command runs: acceptance clears it, only a completion sets it (R25, R200, R202). -/
def DoneOnlyWhenIdle (s : State) : Prop := s.busy = true → s.done = false

/-- The codes whose INFO is an index (R206). -/
def Code.hasIndex : Code → Bool
  | .logZero => true
  | .rng => true
  | .shareFormat => true
  | .shareId => true
  | .lenRange => true
  | .lenMismatch => true
  | .ok => false
  | .badOpcode => false
  | .badCmd => false
  | .notReady => false
  | .initFail => false
  | .count => false
  | .valNshares => false
  | .valThreshold => false
  | .valTGtN => false

/-- INFO is 0 with every code that qualifies no index (R206). -/
def InfoOnlyWithIndex (s : State) : Prop := s.errCode.hasIndex = false → s.errInfo = 0

/-- While `rst_n` = 0 the block is in the reset state of R43 (R240). -/
def HeldInReset (s : State) : Prop :=
  s.rstN = false →
    s = { State.resetOf s.slotsM1 s.maxlenM1 with
          rstN := false, busResp := s.busResp, ramEpoch := s.ramEpoch, schedule := s.schedule }

/-- The invariant of the block. -/
structure Inv (s : State) : Prop where
  ramCanonical : RamCanonical s
  tablesListed : TablesListed s
  drawInsideGenpts : DrawInsideGenpts s
  requestInsideLoop : RequestInsideLoop s
  icoefCleared : IcoefCleared s
  doneOnlyWhenIdle : DoneOnlyWhenIdle s
  infoOnlyWithIndex : InfoOnlyWithIndex s
  heldInReset : HeldInReset s

/-- The byte offset belongs to a buffer element that exists on this part (R66, R67): the low byte of its word, or
one of the three low bytes for SLOT_LEN. -/
def BufferByte (s : State) (a : Nat) : Prop :=
  (∃ l : Loc, l.mapped s.slots s.maxlen = true ∧ a = l.offset ∧
    ((∃ i, l = .coef i ∨ l = .xs i ∨ l = .ys i ∨ l = .slotId i ∨ l = .slotLen i ∨ l = .secret i) ∨
      ∃ slot j, l = .pay slot j)) ∨
  (∃ slot, slot < s.slots ∧ (a = (Loc.slotLen slot).offset + 1 ∨ a = (Loc.slotLen slot).offset + 2))

/-- Buffer RAM lists nothing outside the buffers (R66). -/
def RamInBuffers (s : State) : Prop := ∀ cell ∈ s.ram, BufferByte s cell.1

end Sys2Proof.Machine
end

