-- ==== Sys2Proof/Certificates/Slice0/Obligations.lean ====
section
/-! DEFINITION. The statements about the model, each from the rules of spec/ its docstring names. -/

open Sys2Proof Sys2Proof.Machine

/-! ### The words the statements use -/

/-- What a successful completion leaves (R202): ENG IDLE (so BUSY 0), DONE 1, ERRINFO 0, all else as it was. -/
def Sys2Proof.Spec.completed (s : State) : State :=
  { s with eng := .idle, done := true, errCode := .ok, errInfo := 0 }

/-- What a completion with an error leaves (R203): ENG IDLE, DONE 1, ERR 1, ERRINFO = (info, code), all else as it
was. -/
def Sys2Proof.Spec.failed (s : State) (code : Code) (info : Nat) : State :=
  { s with eng := .idle, done := true, err := true, errCode := code, errInfo := BitVec.ofNat 16 info }

/-- The tables are ready with the content of R112. -/
def Sys2Proof.Spec.tablesReady (s : State) : Prop := s.tstate = .ready expsTable logsTable

/-- The product of MUL over the tables of R112 (R118). -/
def Sys2Proof.Spec.times (a b : Byte) : Byte := gfMul expsTable logsTable a b

/-- x multiplied by itself n times, 1 for none (R144). -/
def Sys2Proof.Spec.power (x : Byte) : Nat → Byte
  | 0 => 1
  | n + 1 => Sys2Proof.Spec.times (Sys2Proof.Spec.power x n) x

/-- c_0 + c_1 x + ... + c_(n-1) x^(n-1) in the field (R144). -/
def Sys2Proof.Spec.polyValue (c : Nat → Byte) (x : Byte) : Nat → Byte
  | 0 => 0
  | n + 1 =>
    Sys2Proof.Spec.polyValue c x n ^^^ Sys2Proof.Spec.times (c n) (Sys2Proof.Spec.power x n)

/-- The unique inverse of a nonzero element, exps[(255 - logs[a]) mod 255] (R119). -/
def Sys2Proof.Spec.inverse (a : Byte) : Byte := expAt expsTable ((255 - logOf logsTable a) % 255)

/-- y_i times the product over the other nodes j < n of (pt + x_j) (x_i + x_j)^-1 (R174). -/
def Sys2Proof.Spec.lagrangeTerm (pt : Byte) (xs ys : Nat → Byte) (i : Nat) : Nat → Byte
  | 0 => ys i
  | n + 1 =>
    if n = i then Sys2Proof.Spec.lagrangeTerm pt xs ys i n
    else
      Sys2Proof.Spec.times (Sys2Proof.Spec.lagrangeTerm pt xs ys i n)
        (Sys2Proof.Spec.times (pt ^^^ xs n) (Sys2Proof.Spec.inverse (xs i ^^^ xs n)))

/-- The sum of the terms i < m that are not skipped (R172, R174). -/
def Sys2Proof.Spec.lagrangeSum (pt : Byte) (xs ys : Nat → Byte) (n : Nat) : Nat → Byte
  | 0 => 0
  | m + 1 =>
    if ∃ j, j < n ∧ j ≠ m ∧ xs j = pt then Sys2Proof.Spec.lagrangeSum pt xs ys n m
    else Sys2Proof.Spec.lagrangeSum pt xs ys n m ^^^ Sys2Proof.Spec.lagrangeTerm pt xs ys m n

/-- Term i reads logs[0]: its y is not 0, it is not skipped, and another node has the same x (R173). -/
def Sys2Proof.Spec.termReadsLogZero (pt : Byte) (xs ys : Nat → Byte) (n i : Nat) : Prop :=
  i < n ∧ ys i ≠ 0 ∧ (∀ j, j < n → j ≠ i → xs j ≠ pt) ∧ ∃ j, j < n ∧ j ≠ i ∧ xs j = xs i

/-- Slot u is the first with its id among the slots below m (R178). -/
def Sys2Proof.Spec.firstWithId (s : State) (m u : Nat) : Prop :=
  u < m ∧ ∀ v, v < u → s.slotIdAt v ≠ s.slotIdAt u

/-- Slot u passes the decode checks (R177). -/
def Sys2Proof.Spec.slotPasses (s : State) (u : Nat) : Prop :=
  s.slotLenAt u ≠ 0 ∧ s.slotIdAt u ≠ 0 ∧ s.slotLenAt u ≤ s.maxlen

/-- The coefficients of a GENPTS: the secret byte, then the nonzero bytes drawn, in order (R151). -/
def Sys2Proof.Spec.coefficients (secret : Byte) (draws : List Byte) : List Byte :=
  secret :: draws.filter (fun b => b ≠ 0)

/-- The exchanges of R212 that draw these bytes: for each byte the engine's turn that makes the request, then the
answer, `rng_ack` = 1 with `rng_fail` = 0 and the byte as `rng_data`. -/
def Sys2Proof.Spec.exchanges (draws : List Byte) : List Event := draws.flatMap fun b => [.engine, .rng false b]

/-- How many nonzero bytes are drawn. -/
def Sys2Proof.Spec.kept (draws : List Byte) : Nat := (draws.filter fun b => b ≠ 0).length

/-- GENPTS's buffers after it: XS[k-1] = k and YS[k-1] = c_0 + c_1 k + ... + c_(T-1) k^(T-1) for k = 1..N, and every
other byte as it was (R152). -/
def Sys2Proof.Spec.pointsWritten (c : Nat → Byte) (numShares threshold : Byte) (s t : State) : Prop :=
  (∀ k, 1 ≤ k → k ≤ numShares.toNat →
    t.xsAt (k - 1) = BitVec.ofNat 8 k ∧
    t.ysAt (k - 1) = Sys2Proof.Spec.polyValue c (BitVec.ofNat 8 k) threshold.toNat) ∧
  ∀ a, (∀ i, i < numShares.toNat → a ≠ (Loc.xs i).offset ∧ a ≠ (Loc.ys i).offset) → t.elemByte a = s.elemByte a

/-- GENPTS s, N, T is accepted, its operands pass the checks of R150, the tables are ready and no draw has begun: the
engine's next turn is the command's first. -/
def Sys2Proof.Spec.genptsAccepted (s : State) (secret numShares threshold : Byte) : Prop :=
  s.rstN = true ∧ (∃ w, s.eng = .busy w ∧ decode w = .ok (.genpts secret numShares threshold)) ∧ s.ready = true ∧
  2 ≤ threshold.toNat ∧ threshold.toNat ≤ numShares.toNat ∧ s.rngReq = .idle ∧ s.drawAt = none

/-- Multiplication of polynomials over GF(2) modulo x^8+x^4+x^3+x^2+1: the sum of b_k a x^k, each a x^k reduced by
0x11D as it is shifted (R2, R119, G1). -/
def Sys2Proof.Spec.polyTimesFrom (b : Byte) : Nat → Nat → Byte → Byte → Byte
  | 0, _, _, acc => acc
  | n + 1, k, a, acc =>
    Sys2Proof.Spec.polyTimesFrom b n (k + 1)
      (if a.getLsbD 7 then a <<< 1 ^^^ 0x1D else a <<< 1)
      (if b.getLsbD k then acc ^^^ a else acc)

/-- The product of two polynomials of degree < 8 modulo 0x11D. -/
def Sys2Proof.Spec.polyTimes (a b : Byte) : Byte := Sys2Proof.Spec.polyTimesFrom b 8 0 a 0

open Sys2Proof.Spec

/-! ### Encoding (30_encoding.md) -/

/-- R90, R91, R97, R98: every command is read back from its word with every operand, and a word the decoder accepts is
the encoding of the command it reads: no bit is dropped or ignored. -/
def Obligations.DecodeAndEncodeAgree : Prop :=
  (∀ i : Instr, decode (encode i) = .ok i) ∧ ∀ (w : Word) (i : Instr), decode w = .ok i → encode i = w

/-- R92: a word selects the row of a mnemonic (w & mask = match) iff it decodes to a command of that mnemonic; so no
two rows match the same word. -/
def Obligations.MatchMaskRowsAreTheDecoder : Prop :=
  ∀ (w : Word) (m : Mnemonic), selectsRow w m = true ↔ ∃ i, decode w = .ok i ∧ i.mnemonic = m

/-- R94: a word with a reserved OP completes with BAD_OPCODE (code 0x01, INFO 0), whatever its other fields hold and
whatever TSTATE is, and changes nothing else. -/
def Obligations.ReservedOpcodeCompletesWithBadOpcode : Prop :=
  Code.badOpcode.value = 0x01 ∧
  ∀ (w : Word) (s : State), s.busy = false → s.rstN = true → s.rngReq = .idle →
    opField w ∉ ([0x00, 0x01, 0x02, 0x10, 0x11, 0x12, 0x20, 0x21] : List Byte) →
      decode w = .error .badOpcode ∧
      busEffect s (.write 0x14 w) = { s with eng := .busy w, done := false } ∧
      engineTurn (busEffect s (.write 0x14 w)) = .next (failed s .badOpcode 0)

/-- R93: a word with a defined OP and a nonzero field its format requires to be 0 completes with BAD_CMD (code 0x02,
INFO 0), whatever TSTATE is, and changes nothing else. -/
def Obligations.IllegalFieldCompletesWithBadCmd : Prop :=
  Code.badCmd.value = 0x02 ∧
  ∀ (w : Word) (s : State), s.busy = false → s.rstN = true → s.rngReq = .idle →
    ((opField w ∈ ([0x00, 0x01, 0x02] : List Byte) ∧ (aField w ≠ 0 ∨ bField w ≠ 0 ∨ cField w ≠ 0)) ∨
      (opField w = 0x10 ∧ cField w ≠ 0) ∨
      (opField w ∈ ([0x11, 0x20, 0x21] : List Byte) ∧ (bField w ≠ 0 ∨ cField w ≠ 0))) →
      decode w = .error .badCmd ∧ (∀ m, selectsRow w m = false) ∧
      busEffect s (.write 0x14 w) = { s with eng := .busy w, done := false } ∧
      engineTurn (busEffect s (.write 0x14 w)) = .next (failed s .badCmd 0)

/-- R97 on words written out from R92 and the spec's test vectors L2.1. -/
def Obligations.SampleWordsDecode : Prop :=
  decode 0x00000000 = .ok .nop ∧ decode 0x00000001 = .ok .init ∧ decode 0x00000002 = .ok .treset ∧
  decode 0x00800210 = .ok (.mul 0x02 0x80) ∧ decode 0x00000211 = .ok (.eval 0x02) ∧
  decode 0x02036812 = .ok (.genpts 104 3 2) ∧ decode 0x00000020 = .ok (.lagr 0) ∧
  decode 0x00000321 = .ok (.combine 3) ∧ decode 0x01800210 = .error .badCmd ∧
  decode 0x00010021 = .error .badCmd ∧ decode 0x00000022 = .error .badOpcode

/-- R98: a written command is encoded as (C, B, A, OP) with unused fields 0, and assembles exactly when it has its
format's number of operands, each an integer 0..255. -/
def Obligations.AssemblerEncodesWrittenCommands : Prop :=
  (∀ c : Asm, (∃ w, assemble c = some w) ↔
    c.operands.length = c.mnemonic.arity ∧ ∀ v ∈ c.operands, v ≤ 255) ∧
  assemble ⟨.nop, []⟩ = some 0x00 ∧ assemble ⟨.init, []⟩ = some 0x01 ∧ assemble ⟨.treset, []⟩ = some 0x02 ∧
  ∀ a b c : Nat, a ≤ 255 → b ≤ 255 → c ≤ 255 →
    assemble ⟨.mul, [a, b]⟩ = some (BitVec.ofNat 32 (b * 2 ^ 16 + a * 2 ^ 8 + 0x10)) ∧
    assemble ⟨.eval, [a]⟩ = some (BitVec.ofNat 32 (a * 2 ^ 8 + 0x11)) ∧
    assemble ⟨.genpts, [a, b, c]⟩ = some (BitVec.ofNat 32 (c * 2 ^ 24 + b * 2 ^ 16 + a * 2 ^ 8 + 0x12)) ∧
    assemble ⟨.lagr, [a]⟩ = some (BitVec.ofNat 32 (a * 2 ^ 8 + 0x20)) ∧
    assemble ⟨.combine, [a]⟩ = some (BitVec.ofNat 32 (a * 2 ^ 8 + 0x21))

/-! ### The step -/

/-- R201, R212, R250: at the engine's turn, when a command word that decodes to `i` is accepted and no draw is
outstanding, the step is `exec i`; with a draw outstanding the engine's turn does nothing, and `rng_ack` = 1 answers the
draw: `Fail` if `rng_fail` = 1, else `Byte(rng_data)`. The turn comes at an `.engine` event, or when no event is left (the
model's schedule, log 1). -/
def Obligations.StepRunsTheAcceptedCommand : Prop :=
  ∀ (s : State) (w : Word) (i : Instr), s.rstN = true → s.eng = .busy w → decode w = .ok i →
    (∀ rest, s.rngReq = .idle → s.schedule = .engine :: rest → step s = exec i { s with schedule := rest }) ∧
    (s.rngReq = .idle → s.schedule = [] → step s = exec i s) ∧
    (∀ rest, s.rngReq = .pending → s.schedule = .engine :: rest → step s = .next { s with schedule := rest }) ∧
    (s.rngReq = .pending → s.schedule = [] → step s = .next s) ∧
    (∀ fail data rest, s.rngReq = .pending → s.schedule = .rng fail data :: rest →
      step s = .next (takeDraw (if fail then .fail else .byte data) { s with schedule := rest }))

/-- R210: no error stops the block: every step of every state answers a next state. -/
def Obligations.NoStepStops : Prop := ∀ s : State, ∃ t, step s = .next t

/-- R20 to R44: the invariant of the block is kept by every step: the RAM keeps its form, a Ready table holds the
content of R112, RNGREQ is pending only while a draw is outstanding inside a GENPTS (R41; log 12), ICOEF is 0 outside one (R40), DONE is 0 while BUSY
(R200), INFO is 0 with a code that qualifies no index (R206), reset holds the reset state (R240; log 11). The steps are
events of the model's schedule (log 1). -/
def Obligations.StepKeepsInvariant : Prop :=
  ∀ s t : State, Inv s → step s = .next t → Inv t

/-- The invariant holds after reset (R43). -/
def Obligations.ResetMeetsInvariant : Prop := Inv State.reset

/-- R66, R67: no step makes the buffer RAM hold anything outside the buffers of this part. -/
def Obligations.StepKeepsRamInBuffers : Prop :=
  ∀ s t : State, RamInBuffers s → step s = .next t → RamInBuffers t

/-! ### Reset (R43, R240, R241) -/

/-- R43: the listed values after reset. (Buffers and tables are unspecified: the model's RAM lists
nothing and it holds no table, logs 6 and 8; CAPS reads the part's parameters, log 9; no draw is in progress, log 12.) -/
def Obligations.ResetValues : Prop :=
  let s := State.reset
  readLoc s .id = 0x53470001 ∧ readLoc s .poly = 0x0000011D ∧
  readLoc s .caps = (Config.maxlenM1 ++ Config.slotsM1 ++ (0xFF : Byte) : Word) ∧
  readLoc s .ctrl = 0 ∧ readLoc s .status = 0 ∧ readLoc s .result = 0 ∧ readLoc s .errinfo = 0 ∧
  s.ncoef = 0 ∧ s.npts = 0 ∧ s.nslots = 0 ∧ s.seclen = 0 ∧ s.tstate = .uninitialized ∧ s.eng = .idle ∧
  (∀ k, icoefAt s.icoef k = 0) ∧ s.rngReq = .idle ∧ s.drawAt = none ∧ s.ram = [] ∧ s.irq = false ∧ s.rngReqPin = false

/-- R240: when `rst_n` goes to 0, from any state, a running command is abandoned and every register takes its reset
value; while it is 0 every transaction gets ERR with no effect, and engine turns and random answers change nothing; on
its release the block is in the reset state. With `rst_n` = 1 too a random answer to a request the block does not hold
(RNGREQ idle, or no command running) is ignored, and an engine turn while IDLE changes nothing.
(The model's choices shown here: the events, log 1; ignored answers, log 5; RAM listed empty, log 6; the counter
`ramEpoch`, log 7; `busResp` none after reset and the word 0 in the ERR response of a write, log 10; the state after
release, log 11.) -/
def Obligations.ResetPinForcesResetState : Prop :=
  ∀ (s : State) (rest : List Event),
    (s.schedule = .rst false :: rest →
      step s = .next { State.resetOf s.slotsM1 s.maxlenM1 with
        rstN := false, ramEpoch := s.ramEpoch + 1, schedule := rest }) ∧
    (∀ op, s.rstN = false → s.schedule = .bus op :: rest →
      step s = .next { s with busResp := some ⟨false, 0⟩, schedule := rest }) ∧
    (s.rstN = false → s.schedule = .engine :: rest → step s = .next { s with schedule := rest }) ∧
    (∀ fail data, s.rstN = false → s.schedule = .rng fail data :: rest →
      step s = .next { s with schedule := rest }) ∧
    (s.rstN = false → s.schedule = .rst true :: rest →
      step s = .next { State.resetOf s.slotsM1 s.maxlenM1 with
        rstN := true, ramEpoch := s.ramEpoch + 1, schedule := rest }) ∧
    (∀ fail data, s.rstN = true → s.rngReq = .idle ∨ s.eng = .idle → s.schedule = .rng fail data :: rest →
      step s = .next { s with schedule := rest }) ∧
    (s.rstN = true → s.eng = .idle → s.schedule = .engine :: rest → step s = .next { s with schedule := rest })

/-- R23, R21, R22: no step changes what ID, CAPS and POLY read. -/
def Obligations.IdentityRegistersNeverChange : Prop :=
  ∀ s t : State, step s = .next t →
    readLoc t .id = 0x53470001 ∧ readLoc t .poly = 0x0000011D ∧ readLoc t .caps = readLoc s .caps

/-! ### The command lifecycle (60_exceptions.md) -/

/-- R200: every word written to CMD while BUSY = 0 is accepted: ENG <- BUSY(w), BUSY 1, DONE 0, OKAY, and nothing else
changes. (The event, log 1, and a write response's word 0, log 10, are the model's.) -/
def Obligations.IdleCmdWriteIsAccepted : Prop :=
  ∀ (s : State) (w : Word) (rest : List Event), s.rstN = true → s.busy = false →
    s.schedule = .bus (.write 0x14 w) :: rest →
      ∃ t, step s = .next t ∧ t.busy = true ∧
        t = { s with eng := .busy w, done := false, busResp := some ⟨true, 0⟩, schedule := rest }

/-- R69: a CMD write while BUSY = 1 is dropped: OVR <- 1, the response is OKAY, the running command and all else are
unaffected (so the dropped word never completes and sets neither DONE nor ERR). -/
def Obligations.BusyCmdWriteIsDropped : Prop :=
  ∀ (s : State) (w : Word), s.rstN = true → s.busy = true →
    ∃ r : BusResp, r.okay = true ∧
      busStep s (.write 0x14 w) = { s with ovr := true, busResp := some r }

/-- R201 to R203, R212: what a running word can end its turn in: a success, which leaves ERR and OVR alone; an error,
which sets ERR; or a GENPTS with a request to the random source, still BUSY with DONE and ERRINFO as they were. And what
the answer to a request can end in: with `rng_req` dropped, the error of a `Fail`, or a command still BUSY. -/
def Obligations.CommandCompletesOrWaits : Prop :=
  (∀ (w : Word) (s t : State), s.busy = true → runCommand w s = .next t →
    t.ovr = s.ovr ∧
    ((t.busy = false ∧ t.done = true ∧ t.err = s.err ∧ t.errCode = .ok ∧ t.errInfo = 0) ∨
      (t.busy = false ∧ t.done = true ∧ t.err = true ∧ t.errCode ≠ .ok) ∨
      (t.eng = s.eng ∧ t.done = s.done ∧ t.err = s.err ∧ t.errCode = s.errCode ∧ t.errInfo = s.errInfo ∧
        t.rngReqPin = true ∧ ∃ secret n thr, decode w = .ok (.genpts secret n thr)))) ∧
  ∀ (a : RngAnswer) (s : State), s.busy = true →
    (takeDraw a s).ovr = s.ovr ∧ (takeDraw a s).rngReqPin = false ∧
    ((a = .fail ∧ (takeDraw a s).busy = false ∧ (takeDraw a s).done = true ∧ (takeDraw a s).err = true ∧
        (takeDraw a s).errCode = .rng) ∨
      ((takeDraw a s).eng = s.eng ∧ (takeDraw a s).done = s.done ∧ (takeDraw a s).err = s.err ∧
        (takeDraw a s).errCode = s.errCode ∧ (takeDraw a s).errInfo = s.errInfo))

/-- R204: a step in which a command completes with an error (at the engine's turn, or at a `Fail` answer) changes no
architectural state but the completion state: not RESULT, the counts or any buffer; not TSTATE or the tables, except that
INIT_FAIL sets TSTATE to Uninitialized. ICOEF keeps its content or becomes 0 (R153), and no request is left. (The events:
the model's schedule, log 1.) -/
def Obligations.FailedCommandChangesNothingElse : Prop :=
  ∀ s t : State, s.rstN = true → s.busy = true → (∀ level rest, s.schedule ≠ .rst level :: rest) →
    step s = .next t → t.busy = false → t.errCode ≠ .ok →
    t.result = s.result ∧ t.ncoef = s.ncoef ∧ t.npts = s.npts ∧ t.nslots = s.nslots ∧ t.seclen = s.seclen ∧
    (∀ a, t.elemByte a = s.elemByte a) ∧ t.ram = s.ram ∧
    (t.tstate = s.tstate ∨ (t.errCode = .initFail ∧ t.tstate = .uninitialized)) ∧
    (t.icoef = s.icoef ∨ t.icoef = icoefZero) ∧ t.rngReq = .idle ∧
    t.ieDone = s.ieDone ∧ t.ieErr = s.ieErr ∧ t.ovr = s.ovr ∧ t.slotsM1 = s.slotsM1 ∧ t.maxlenM1 = s.maxlenM1 ∧
    t.rstN = s.rstN ∧ t.busResp = s.busResp

/-- R27: RESULT reads its byte zero-extended and is 0 at reset; a write to it gets ERR; and while `rst_n` stays 1 only
a MUL, EVAL or LAGR that completes without error changes it. (A write response's word 0: the model's, log 10.) -/
def Obligations.OnlySuccessfulMulEvalLagrWriteResult : Prop :=
  State.reset.result = 0 ∧
  (∀ s : State, readLoc s .result = s.result.setWidth 32) ∧
  (∀ (s : State) (d : Word), busResponse s (.write 0x18 d) = ⟨false, 0⟩ ∧ busEffect s (.write 0x18 d) = s) ∧
  ∀ s t : State, s.rstN = true → (∀ level rest, s.schedule ≠ .rst level :: rest) → step s = .next t →
    t.result ≠ s.result →
      t.errCode = .ok ∧ ∃ w, s.eng = .busy w ∧
        ((∃ a b, decode w = .ok (.mul a b)) ∨ (∃ x, decode w = .ok (.eval x)) ∨ (∃ pt, decode w = .ok (.lagr pt)))

/-- R209, R25: once ERR is 1 it stays 1 until a write of 1 to it or a reset (as events of the model's schedule, log 1). -/
def Obligations.ErrStaysUntilWrittenOrReset : Prop :=
  ∀ s t : State, s.rstN = true → s.err = true → step s = .next t →
    t.err = true ∨ (∃ d rest, s.schedule = .bus (.write 0x10 d) :: rest ∧ d.getLsbD 3 = true) ∨
      ∃ rest, s.schedule = .rst false :: rest

/-- R110, R140, R170: MUL, EVAL, GENPTS, LAGR and COMBINE need TSTATE = Ready. When it is Uninitialized they complete
with NOT_READY (0x03, INFO 0) before any other check, write nothing and draw nothing (GENPTS leaves ICOEF 0). -/
def Obligations.CommandsBeforeInitGetNotReady : Prop :=
  Code.notReady.value = 0x03 ∧
  ∀ s : State, s.tstate = .uninitialized →
    (∀ a b, exec (.mul a b) s = .next (failed s .notReady 0)) ∧
    (∀ x, exec (.eval x) s = .next (failed s .notReady 0)) ∧
    (∀ secret n thr,
      exec (.genpts secret n thr) s = .next (failed { s with icoef := icoefZero, drawAt := none } .notReady 0)) ∧
    (∀ pt, exec (.lagr pt) s = .next (failed s .notReady 0)) ∧
    (∀ pt, exec (.combine pt) s = .next (failed s .notReady 0))

/-! ### Field tables and multiplier (40_field_tables.md) -/

/-- R117: NOP completes; only the completion state changes. -/
def Obligations.NopOnlyCompletes : Prop := ∀ s : State, exec .nop s = .next (completed s)

/-- R111, R112, R114, R115: INIT, in either TSTATE, completes with the tables of R112 and READY = 1, and changes
nothing else; INIT_FAIL does not occur. -/
def Obligations.InitBuildsTheListedTables : Prop :=
  ∀ s : State, ∃ t, exec .init s = .next t ∧ t.ready = true ∧
    t = completed { s with tstate := .ready expsTable logsTable }

/-- R112, R113: in the listed tables exps[0] = 1, each entry is the one before it doubled and reduced by 0x11D,
exps[255] = 1; for every nonzero v, logs[v] is in [1, 255] and exps[logs[v]] = v; logs[exps[i]] = i for i in
[1, 255]; logs[0] = 0. -/
def Obligations.ListedTablesAreExpAndLog : Prop :=
  expAt expsTable 0 = 1 ∧ expAt expsTable 255 = 1 ∧
  (∀ i, i < 255 →
    expAt expsTable (i + 1) = (doubleReduce ((expAt expsTable i).setWidth 9)).setWidth 8) ∧
  (∀ v : Byte, v ≠ 0 →
    1 ≤ logOf logsTable v ∧ logOf logsTable v ≤ 255 ∧ expAt expsTable (logOf logsTable v) = v) ∧
  (∀ i, 1 ≤ i → i ≤ 255 → logOf logsTable (expAt expsTable i) = i) ∧ logOf logsTable 0 = 0

/-- R111, R115: INIT's loop writes every entry, so what the tables held before does not matter. -/
def Obligations.TableBuildIgnoresOldContent : Prop :=
  ∀ exps logs : Table, buildTablesOver exps logs = builtTables

/-- R116: TRESET, in either TSTATE, sets TSTATE to Uninitialized (READY 0) and completes, and changes nothing else;
then the EXPS and LOGS windows read 0. -/
def Obligations.TresetDiscardsTheTables : Prop :=
  ∀ s : State, ∃ t, exec .treset s = .next t ∧ t.ready = false ∧
    t = completed { s with tstate := .uninitialized } ∧
    ∀ i, readLoc t (.exps i) = 0 ∧ readLoc t (.logs i) = 0

/-- R118: MUL writes to RESULT exps[(logs[a] + logs[b]) mod 255], or 0 with a zero operand, and completes; nothing
else changes. For any tables. -/
def Obligations.MulWritesTheProduct : Prop :=
  ∀ (s : State) (exps logs : Table) (a b : Byte), s.tstate = .ready exps logs →
    (a = 0 ∨ b = 0 → exec (.mul a b) s = .next (completed { s with result := 0 })) ∧
    (a ≠ 0 → b ≠ 0 →
      exec (.mul a b) s =
        .next (completed { s with result := expAt exps ((logOf logs a + logOf logs b) % 255) }))

/-- R119: the product is commutative, has identity 1 and zero 0, and every nonzero element has exactly one inverse,
exps[(255 - logs[a]) mod 255]; it is associative and distributes over the XOR addition (these two G1, which R119 marks
as from general knowledge). -/
def Obligations.ProductObeysTheFieldLaws : Prop :=
  (∀ a b, times a b = times b a) ∧ (∀ a b c, times (times a b) c = times a (times b c)) ∧
  (∀ a, times 1 a = a) ∧ (∀ a, times 0 a = 0) ∧
  (∀ a b c, times a (b ^^^ c) = times a b ^^^ times a c) ∧
  (∀ a b, a ≠ 0 → (times a b = 1 ↔ b = inverse a))

/-- R2, R119 (G1, from general knowledge): the table product is multiplication of polynomials over GF(2) modulo
x^8+x^4+x^3+x^2+1. -/
def Obligations.TableProductIsPolynomialProduct : Prop := ∀ a b, times a b = polyTimes a b

/-! ### Polynomial engine (41_polynomial.md) -/

/-- R142, R144: EVAL x, with the tables of R112 and NCOEF <= 256, for x nonzero or c_1..c_(n-1) all 0, writes
c_0 + c_1 x + ... + c_(n-1) x^(n-1) to RESULT and completes; nothing else changes. -/
def Obligations.EvalWritesThePolynomialValue : Prop :=
  ∀ (s : State) (x : Byte), tablesReady s → s.ncoef.toNat ≤ 256 →
    (x ≠ 0 ∨ ∀ k, 1 ≤ k → k < s.ncoef.toNat → s.coef k = 0) →
      exec (.eval x) s = .next (completed { s with result := polyValue s.coef x s.ncoef.toNat })

/-- R143: EVAL 0 with some c_k nonzero for k in [1, n-1] completes with LOG_ZERO (0x18) and INFO m - 1, m the largest
such k, and nothing else changes; otherwise EVAL 0 returns c_0; and EVAL with x nonzero never raises LOG_ZERO: it
completes with some value. For any tables. -/
def Obligations.EvalAtZeroRaisesLogZero : Prop :=
  Code.logZero.value = 0x18 ∧
  ∀ (s : State) (exps logs : Table), s.tstate = .ready exps logs → s.ncoef.toNat ≤ 256 →
    (∀ m, 1 ≤ m → m < s.ncoef.toNat → s.coef m ≠ 0 → (∀ k, m < k → k < s.ncoef.toNat → s.coef k = 0) →
      exec (.eval 0) s = .next (failed s .logZero (m - 1))) ∧
    (1 ≤ s.ncoef.toNat → (∀ k, 1 ≤ k → k < s.ncoef.toNat → s.coef k = 0) →
      exec (.eval 0) s = .next (completed { s with result := s.coef 0 })) ∧
    ∀ x : Byte, x ≠ 0 → ∃ v, exec (.eval x) s = .next (completed { s with result := v })

/-- R141, R171, R176: a count register above its legal range is held, and the command that reads it completes with
COUNT (0x05, INFO 0): EVAL with NCOEF > 256, LAGR with NPTS > 256, COMBINE with NSLOTS > P_SLOTS. -/
def Obligations.CountsOutOfRangeCompleteWithCount : Prop :=
  Code.count.value = 0x05 ∧
  ∀ (s : State) (exps logs : Table), s.tstate = .ready exps logs →
    (256 < s.ncoef.toNat → ∀ x, exec (.eval x) s = .next (failed s .count 0)) ∧
    (256 < s.npts.toNat → ∀ pt, exec (.lagr pt) s = .next (failed s .count 0)) ∧
    (s.slots < s.nslots.toNat → ∀ pt, exec (.combine pt) s = .next (failed s .count 0))

/-- R150: the operand checks of GENPTS in their order, each failure writing nothing and drawing nothing (ICOEF is 0
after it, R153). -/
def Obligations.GenptsChecksItsOperandsInOrder : Prop :=
  Code.valNshares.value = 0x10 ∧ Code.valThreshold.value = 0x11 ∧ Code.valTGtN.value = 0x12 ∧
  ∀ (s : State) (exps logs : Table) (secret n thr : Byte), s.tstate = .ready exps logs → s.drawAt = none →
    (n.toNat < 2 →
      exec (.genpts secret n thr) s = .next (failed { s with icoef := icoefZero } .valNshares 0)) ∧
    (2 ≤ n.toNat → thr.toNat < 2 →
      exec (.genpts secret n thr) s = .next (failed { s with icoef := icoefZero } .valThreshold 0)) ∧
    (2 ≤ n.toNat → 2 ≤ thr.toNat → n.toNat < thr.toNat →
      exec (.genpts secret n thr) s = .next (failed { s with icoef := icoefZero } .valTGtN 0))

/-- R151 to R153, R155: GENPTS s, N, T with 2 <= T <= N. At the engine's turn with all T-1 coefficients drawn, it writes
XS[k-1] = k and YS[k-1] = p(k) for k = 1..N, p the polynomial with the coefficients in ICOEF[0..T-1], sets NPTS = N, clears
ICOEF and completes; every other byte of RAM and every other register is unchanged. Over its whole run, when the source
answers its requests with bytes of which the last is the (T-1)-th nonzero one, it consumes exactly those answers, one per
request, and p has the coefficients s and then the nonzero bytes in order. (The events: logs 1 and 5; `drawAt`: log 12.) -/
def Obligations.GenptsWritesTheSharePoints : Prop :=
  (∀ (s : State) (secret n thr : Byte), tablesReady s → 2 ≤ thr.toNat → thr.toNat ≤ n.toNat →
    s.rngReq = .idle → s.drawAt = some thr.toNat →
      ∃ t, exec (.genpts secret n thr) s = .next t ∧ pointsWritten (icoefAt s.icoef) n thr s t ∧
        { t with ram := s.ram } =
          completed { s with npts := n.setWidth 9, icoef := icoefZero, drawAt := none }) ∧
  ∀ (s : State) (secret n thr last : Byte) (draws : List Byte) (rest : List Event),
    genptsAccepted s secret n thr → tablesReady s →
    s.schedule = exchanges (draws ++ [last]) ++ .engine :: rest → last ≠ 0 → kept draws = thr.toNat - 2 →
      ∃ t, Host.Core.run Sys2Proof.core (2 * (draws.length + 1) + 1) s = .next t ∧
        pointsWritten (fun i => (coefficients secret (draws ++ [last])).getD i 0) n thr s t ∧
        { t with ram := s.ram } =
          completed { s with npts := n.setWidth 9, icoef := icoefZero, schedule := rest }

/-- R151, R204, R212: GENPTS, when the source answers `Fail` to the draw for coefficient k (after bytes of which k - 1 are
nonzero), completes with RNG (0x13) and INFO k at that answer, with no further request; it writes none of XS, YS and NPTS,
and leaves ICOEF 0 and RNGREQ idle. `rng_data` does not matter. (The events: logs 1 and 5.) -/
def Obligations.GenptsReportsTheFailedDraw : Prop :=
  Code.rng.value = 0x13 ∧
  ∀ (s : State) (secret n thr data : Byte) (draws : List Byte) (rest : List Event),
    genptsAccepted s secret n thr →
    s.schedule = exchanges draws ++ .engine :: .rng true data :: rest → kept draws < thr.toNat - 1 →
      Host.Core.run Sys2Proof.core (2 * draws.length + 2) s =
        .next (failed { s with icoef := icoefZero, schedule := rest } .rng (kept draws + 1))

/-- R151, R156, R212: GENPTS makes its requests one by one. Its first turn puts the secret byte into ICOEF[0] and raises
`rng_req`; after any answers too few to complete it, the engine's next turn raises `rng_req` (RNGREQ = pending) for the next
draw; and each answer drops it (RNGREQ = idle) before the next request. At both points BUSY and every register and buffer
the host can reach are as they were, and ICOEF holds the secret byte and the nonzero bytes drawn so far. (The events: logs
1 and 5; `drawAt`: log 12.) -/
def Obligations.GenptsWaitsForTheSource : Prop :=
  ∀ (s : State) (secret n thr : Byte), genptsAccepted s secret n thr → s.icoef = icoefZero →
    (∃ t, exec (.genpts secret n thr) s = .next t ∧ t.rngReqPin = true ∧
      t = { s with rngReq := .pending, drawAt := some 1, icoef := t.icoef } ∧
      ∀ i, i < 255 → icoefAt t.icoef i = (coefficients secret []).getD i 0) ∧
    (∀ (draws : List Byte) (rest : List Event), s.schedule = exchanges draws ++ .engine :: rest →
      kept draws < thr.toNat - 1 →
        ∃ t, Host.Core.run Sys2Proof.core (2 * draws.length + 1) s = .next t ∧ t.rngReqPin = true ∧
          t = { s with
            rngReq := .pending, drawAt := some (kept draws + 1), icoef := t.icoef, schedule := rest } ∧
          ∀ i, i < 255 → icoefAt t.icoef i = (coefficients secret draws).getD i 0) ∧
    ∀ (draws : List Byte) (b : Byte) (rest : List Event), s.schedule = exchanges (draws ++ [b]) ++ rest →
      kept draws < thr.toNat - 1 →
        ∃ t, Host.Core.run Sys2Proof.core (2 * (draws.length + 1)) s = .next t ∧ t.rngReqPin = false ∧
          t = { s with drawAt := some (kept (draws ++ [b]) + 1), icoef := t.icoef, schedule := rest } ∧
          ∀ i, i < 255 → icoefAt t.icoef i = (coefficients secret (draws ++ [b])).getD i 0

/-- R201, R212: a raised `rng_req` is held, with the draws so far untouched, over every host transaction, until `rng_ack`,
which drops it; and it does not matter when a byte, or the engine's turn that makes the next request, comes: any host
transactions before it give the state they give after it. (The events: logs 1 and 5; `drawAt`: log 12.) -/
def Obligations.GenptsResumesWhereItWaited : Prop :=
  ∀ (s : State) (w : Word) (rest : List Event), s.rstN = true → s.eng = .busy w →
    (∀ op, s.rngReq = .pending → s.schedule = .bus op :: rest →
      ∃ t, step s = .next t ∧ t.rngReqPin = true ∧ t.eng = s.eng ∧ t.drawAt = s.drawAt ∧ t.icoef = s.icoef) ∧
    (∀ fail data, s.rngReq = .pending → s.schedule = .rng fail data :: rest →
      ∃ t, step s = .next t ∧ t.rngReqPin = false) ∧
    ∀ (ops : List BusOp) (e : Event),
      (s.rngReq = .pending ∧ ∃ b, e = .rng false b) ∨
        (s.rngReq = .idle ∧ e = .engine ∧ s.ready = true ∧
          ∃ secret n thr, decode w = .ok (.genpts secret n thr) ∧ 2 ≤ thr.toNat ∧ thr.toNat ≤ n.toNat ∧
            ∀ k, s.drawAt = some k → k < thr.toNat) →
      Host.Core.run Sys2Proof.core (ops.length + 1) { s with schedule := ops.map .bus ++ e :: rest } =
        Host.Core.run Sys2Proof.core (ops.length + 1) { s with schedule := e :: (ops.map .bus ++ rest) }

/-- R156, R241: a waiting GENPTS that gets only zero bytes, or no answer, stays BUSY at the same coefficient, with ICOEF as
it is, whatever the host does on the bus and however often the engine has its turn: without a reset nothing ends it. (The
model's schedule and invariant: logs 1, 5 and 12.) -/
def Obligations.UnansweredGenptsStaysBusy : Prop :=
  ∀ (s t : State) (k n : Nat), Inv s → s.rngReq = .pending → s.drawAt = some k → s.rstN = true →
    (∀ e ∈ s.schedule, e = .engine ∨ e = .rng false 0 ∨ ∃ op, e = .bus op) →
    Host.Core.run Sys2Proof.core n s = .next t →
      t.drawAt = some k ∧ t.icoef = s.icoef ∧ t.eng = s.eng ∧ t.busy = true

/-! ### Reconstructor (42_reconstructor.md) -/

/-- R172, R174: LAGR at, with the tables of R112 and NPTS <= 256, when no term reads logs[0], writes the sum of
y_i (product over j of (at + x_j) (x_i + x_j)^-1) over the terms not skipped to RESULT and completes; nothing else
changes. -/
def Obligations.LagrWritesTheInterpolatedValue : Prop :=
  ∀ (s : State) (pt : Byte), tablesReady s → s.npts.toNat ≤ 256 →
    (∀ i, ¬ termReadsLogZero pt s.xsAt s.ysAt s.npts.toNat i) →
      exec (.lagr pt) s =
        .next (completed
          { s with result := lagrangeSum pt s.xsAt s.ysAt s.npts.toNat s.npts.toNat })

/-- R173: LAGR completes with LOG_ZERO (0x18) and INFO i, i the first term that reads logs[0], and nothing else changes;
when no term does (a term with y = 0 and a skipped term read none, even with repeated nodes) it completes with some
value. For any tables. -/
def Obligations.LagrReportsTheFirstRepeatedNode : Prop :=
  Code.logZero.value = 0x18 ∧
  ∀ (s : State) (exps logs : Table) (pt : Byte), s.tstate = .ready exps logs → s.npts.toNat ≤ 256 →
    (∀ i, termReadsLogZero pt s.xsAt s.ysAt s.npts.toNat i →
      (∀ i', i' < i → ¬ termReadsLogZero pt s.xsAt s.ysAt s.npts.toNat i') →
        exec (.lagr pt) s = .next (failed s .logZero i)) ∧
    ((∀ i, ¬ termReadsLogZero pt s.xsAt s.ysAt s.npts.toNat i) →
      ∃ v, exec (.lagr pt) s = .next (completed { s with result := v }))

/-- R174, R175: with pairwise distinct nodes, LAGR at a node x_m gives y_m. -/
def Obligations.LagrAtANodeGivesItsValue : Prop :=
  ∀ (s : State) (m : Nat), tablesReady s → s.npts.toNat ≤ 256 → m < s.npts.toNat →
    (∀ i j, i < s.npts.toNat → j < s.npts.toNat → i ≠ j → s.xsAt i ≠ s.xsAt j) →
      exec (.lagr (s.xsAt m)) s = .next (completed { s with result := s.ysAt m })

/-- R155, R174 (G2, G3, from general knowledge): any T >= 1 points of a polynomial of T coefficients, at pairwise
distinct nodes, give its constant term at 0. -/
def Obligations.InterpolationRecoversTheSecret : Prop :=
  ∀ (c xs : Nat → Byte) (n : Nat), 1 ≤ n → (∀ i j, i < n → j < n → i ≠ j → xs i ≠ xs j) →
    lagrange expsTable logsTable 0 xs (fun i => polyValue c (xs i) n) n = .ok (c 0)

/-- R177: COMBINE, after NOT_READY and COUNT, checks slot by slot, duplicates included: SHARE_FORMAT for an empty payload,
then SHARE_ID for id 0, then LEN_RANGE for a payload beyond P_MAXLEN; the first failing slot is INFO, and nothing else
changes; when every slot passes none of the three is raised. -/
def Obligations.CombineReportsTheFirstBadSlot : Prop :=
  Code.shareFormat.value = 0x20 ∧ Code.shareId.value = 0x21 ∧ Code.lenRange.value = 0x23 ∧
  ∀ (s : State) (exps logs : Table) (pt : Byte), s.tstate = .ready exps logs → s.nslots.toNat ≤ s.slots →
    (∀ u, u < s.nslots.toNat → (∀ v, v < u → slotPasses s v) →
      (s.slotLenAt u = 0 → exec (.combine pt) s = .next (failed s .shareFormat u)) ∧
      (s.slotLenAt u ≠ 0 → s.slotIdAt u = 0 → exec (.combine pt) s = .next (failed s .shareId u)) ∧
      (s.slotLenAt u ≠ 0 → s.slotIdAt u ≠ 0 → s.maxlen < s.slotLenAt u →
        exec (.combine pt) s = .next (failed s .lenRange u))) ∧
    ((∀ v, v < s.nslots.toNat → slotPasses s v) →
      ∃ t, exec (.combine pt) s = .next t ∧
        t.errCode ∉ ([.shareFormat, .shareId, .lenRange] : List Code))

/-- R178: the unique slots are exactly the first slot of each id, in increasing order. -/
def Obligations.FirstOccurrenceOfAnIdWins : Prop :=
  ∀ s : State, (uniqueSlots s).Pairwise (· < ·) ∧ ∀ u, u ∈ uniqueSlots s ↔ firstWithId s s.nslots.toNat u

/-- R179: once every slot passes, COMBINE completes with LEN_MISMATCH (0x22) and INFO u, u the first unique slot whose
length differs from the first slot's; nothing else changes. -/
def Obligations.CombineReportsTheFirstMismatch : Prop :=
  Code.lenMismatch.value = 0x22 ∧
  ∀ (s : State) (exps logs : Table) (pt : Byte) (u : Nat), s.tstate = .ready exps logs →
    s.nslots.toNat ≤ s.slots → (∀ v, v < s.nslots.toNat → slotPasses s v) →
    firstWithId s s.nslots.toNat u → s.slotLenAt u ≠ s.slotLenAt 0 →
    (∀ v, v < u → firstWithId s s.nslots.toNat v → s.slotLenAt v = s.slotLenAt 0) →
      exec (.combine pt) s = .next (failed s .lenMismatch u)

/-- R180, R181, R182, R183: once every slot passes and the unique slots agree on the length L (0 with no slot), COMBINE
writes to SECRET[j], for each j < L, the interpolation over the unique slots' ids and payload bytes j, sets SECLEN to
L and completes, however few the slots are; every other byte of RAM and every other register is unchanged. -/
def Obligations.CombineWritesTheSecret : Prop :=
  ∀ (s : State) (pt : Byte) (len : Nat), tablesReady s → s.nslots.toNat ≤ s.slots →
    (∀ v, v < s.nslots.toNat → slotPasses s v) →
    (∀ u, firstWithId s s.nslots.toNat u → s.slotLenAt u = len) → (s.nslots.toNat = 0 → len = 0) →
      ∃ t, exec (.combine pt) s = .next t ∧
        (∀ j, j < len →
          t.secretAt j =
            lagrangeSum pt (fun i => s.slotIdAt ((uniqueSlots s).getD i 0))
              (fun i => s.payAt ((uniqueSlots s).getD i 0) j) (uniqueSlots s).length (uniqueSlots s).length) ∧
        (∀ a, (∀ j, j < len → a ≠ (Loc.secret j).offset) → t.elemByte a = s.elemByte a) ∧
        { t with ram := s.ram } = completed { s with seclen := BitVec.ofNat 17 len }

/-! ### The host bus (20_memory.md) and the registers (10_state.md) -/

/-- R63, R64: a misaligned offset, and one that names no location of this part, gets ERR and has no effect on any state
(only the response, `busResp`, is new); a read's `rdata` is 0. -/
def Obligations.MisalignedOrUnmappedGetsErr : Prop :=
  ∀ (s : State) (addr wdata : Word),
    addr.toNat % 4 ≠ 0 ∨ (∀ l : Loc, l.mapped s.slots s.maxlen = true → addr.toNat ≠ l.offset) →
      busStep s (.read addr) = { s with busResp := some ⟨false, 0⟩ } ∧
      ∃ r : BusResp, r.okay = false ∧ busStep s (.write addr wdata) = { s with busResp := some r }

/-- R66, R67: the address map is one to one: every location that exists on the part is what its offset names, and an
aligned offset names only the location it is the offset of. -/
def Obligations.AddressMapIsOneToOne : Prop :=
  ∀ slots maxlen : Nat, slots ≤ 256 → maxlen ≤ 65536 →
    (∀ l : Loc, l.mapped slots maxlen = true → locate slots maxlen l.offset = some l) ∧
    ∀ (a : Nat) (l : Loc), a % 4 = 0 → locate slots maxlen a = some l → l.offset = a ∧ l.mapped slots maxlen = true

/-- R65: a write to ID, CAPS, POLY, RESULT, ERRINFO, SECLEN, EXPS, LOGS or SECRET gets ERR and has no effect.
(A write response's word 0: the model's, log 10.) -/
def Obligations.ReadOnlyWriteGetsErr : Prop :=
  ∀ (s : State) (l : Loc) (wdata : Word),
    (l ∈ ([.id, .caps, .poly, .result, .errinfo, .seclen] : List Loc) ∨
      ∃ i, l = .exps i ∨ l = .logs i ∨ l = .secret i) → l.mapped s.slots s.maxlen = true →
      busStep s (.write (BitVec.ofNat 32 l.offset) wdata) = { s with busResp := some ⟨false, 0⟩ }

/-- R68: while BUSY = 1 every transaction to a location other than ID, CAPS, POLY, CTRL, STATUS and CMD gets ERR and
has no effect, and a read of one of those six is answered as ever. (A write response's word 0: the model's, log 10.) -/
def Obligations.BusyLocksOperandsAndResults : Prop :=
  ∀ (s : State) (l : Loc) (wdata : Word), s.busy = true → l.mapped s.slots s.maxlen = true →
    (l ∉ ([.id, .caps, .poly, .ctrl, .status, .cmd] : List Loc) →
      busStep s (.read (BitVec.ofNat 32 l.offset)) = { s with busResp := some ⟨false, 0⟩ } ∧
      busStep s (.write (BitVec.ofNat 32 l.offset) wdata) = { s with busResp := some ⟨false, 0⟩ }) ∧
    (s.rstN = true → l ∈ ([.id, .caps, .poly, .ctrl, .status, .cmd] : List Loc) →
      busStep s (.read (BitVec.ofNat 32 l.offset)) = { s with busResp := some ⟨true, readLoc s l⟩ })

/-- R71, R65: an accepted read returns the location's word and changes nothing (as an event of the model's schedule,
log 1). The words of SECRET[j] and SECLEN are the stored byte and the 17 stored bits, zero-extended (R38, R29); those of
the other locations are in ResetValues, IdentityRegistersNeverChange, OnlySuccessfulMulEvalLagrWriteResult and the
statements below. -/
def Obligations.ReadsReturnTheLocationAndChangeNothing : Prop :=
  (∀ (s : State) (j : Nat), readLoc s (.secret j) = (s.secretAt j).setWidth 32) ∧
  (∀ s : State, readLoc s .seclen = s.seclen.setWidth 32) ∧
  ∀ (s : State) (l : Loc) (rest : List Event), s.rstN = true → s.busy = false →
    l.mapped s.slots s.maxlen = true → s.schedule = .bus (.read (BitVec.ofNat 32 l.offset)) :: rest →
      step s = .next { s with busResp := some ⟨true, readLoc s l⟩, schedule := rest }

/-- R32 to R35, R37, R65: a write to an element of COEF, XS, YS, SLOT_ID or PAY stores wdata[7:0], which a read
returns zero-extended; every other byte of RAM and every register is unchanged. (A write response's word 0: the
model's, log 10.) -/
def Obligations.ByteElementReadsBackWhatWasWritten : Prop :=
  ∀ (s : State) (l : Loc) (wdata : Word), s.rstN = true → s.busy = false →
    l.mapped s.slots s.maxlen = true →
    ((∃ i, l = .coef i ∨ l = .xs i ∨ l = .ys i ∨ l = .slotId i) ∨ ∃ slot j, l = .pay slot j) →
      ∃ t, busStep s (.write (BitVec.ofNat 32 l.offset) wdata) = t ∧ t.busResp = some ⟨true, 0⟩ ∧
        busResponse t (.read (BitVec.ofNat 32 l.offset)) = ⟨true, wdata &&& 0xFF⟩ ∧
        (∀ a, a ≠ l.offset → t.elemByte a = s.elemByte a) ∧
        { t with ram := s.ram, busResp := s.busResp } = s

/-- R36, R65: a write to SLOT_LEN[s] stores wdata[16:0], which a read returns; every other byte of RAM and every
register is unchanged. (The byte lanes, log 18, and a write response's word 0, log 10, are the model's.) -/
def Obligations.SlotLenReadsBackWhatWasWritten : Prop :=
  ∀ (s : State) (slot : Nat) (wdata : Word), s.rstN = true → s.busy = false → slot < s.slots →
    ∃ t, busStep s (.write (BitVec.ofNat 32 (Loc.slotLen slot).offset) wdata) = t ∧
      t.busResp = some ⟨true, 0⟩ ∧
      busResponse t (.read (BitVec.ofNat 32 (Loc.slotLen slot).offset)) = ⟨true, wdata &&& 0x1FFFF⟩ ∧
      t.slotLenAt slot = wdata.toNat % 2 ^ 17 ∧
      (∀ a, a < (Loc.slotLen slot).offset ∨ (Loc.slotLen slot).offset + 2 < a → t.elemByte a = s.elemByte a) ∧
      { t with ram := s.ram, busResp := s.busResp } = s

/-- R29, R65: a write to NCOEF, NPTS or NSLOTS stores wdata[8:0], held as written whatever its range, and nothing else
changes; a read returns it with the upper bits 0. (A write response's word 0: the model's, log 10.) -/
def Obligations.CountRegistersStoreNineBits : Prop :=
  ∀ (s : State) (wdata : Word), s.rstN = true → s.busy = false →
    busStep s (.write 0x20 wdata) = { s with ncoef := wdata.setWidth 9, busResp := some ⟨true, 0⟩ } ∧
    busStep s (.write 0x24 wdata) = { s with npts := wdata.setWidth 9, busResp := some ⟨true, 0⟩ } ∧
    busStep s (.write 0x28 wdata) = { s with nslots := wdata.setWidth 9, busResp := some ⟨true, 0⟩ } ∧
    busResponse (busStep s (.write 0x20 wdata)) (.read 0x20) = ⟨true, wdata &&& 0x1FF⟩ ∧
    busResponse (busStep s (.write 0x24 wdata)) (.read 0x24) = ⟨true, wdata &&& 0x1FF⟩ ∧
    busResponse (busStep s (.write 0x28 wdata)) (.read 0x28) = ⟨true, wdata &&& 0x1FF⟩

/-- R24 to R26, R28: CTRL stores bits 0 and 1 whether or not BUSY; STATUS reads READY, BUSY, DONE, ERR and OVR in bits
0 to 4, and a write clears each of DONE, ERR and OVR whose bit is 1; ERRINFO reads INFO in [31:16] and CODE in [7:0];
CMD reads 0; bits that are no field read 0, and the writes change nothing else. (A write response's word 0: the
model's, log 10.) -/
def Obligations.ControlAndStatusRegistersAsLaidOut : Prop :=
  ∀ (s : State) (wdata : Word), s.rstN = true →
    busStep s (.write 0x0C wdata) =
      { s with ieDone := wdata.getLsbD 0, ieErr := wdata.getLsbD 1, busResp := some ⟨true, 0⟩ } ∧
    busResponse (busStep s (.write 0x0C wdata)) (.read 0x0C) = ⟨true, wdata &&& 0x3⟩ ∧
    (∀ n, (readLoc s .status).getLsbD n =
      ((n == 0 && s.ready) || (n == 1 && s.busy) || (n == 2 && s.done) || (n == 3 && s.err) || (n == 4 && s.ovr))) ∧
    busStep s (.write 0x10 wdata) =
      { s with
        done := s.done && !wdata.getLsbD 2, err := s.err && !wdata.getLsbD 3, ovr := s.ovr && !wdata.getLsbD 4,
        busResp := some ⟨true, 0⟩ } ∧
    readLoc s .errinfo = BitVec.ofNat 32 (s.errInfo.toNat * 2 ^ 16 + s.errCode.value.toNat) ∧
    readLoc s .cmd = 0

/-- R77: the EXPS and LOGS windows read the tables when Ready and 0 with OKAY when Uninitialized; while BUSY = 1 they are
locked. -/
def Obligations.TableWindowsReadTheTables : Prop :=
  ∀ (s : State) (i : Nat), s.rstN = true → i < 256 →
    (s.busy = false → ∀ exps logs, s.tstate = .ready exps logs →
      busResponse s (.read (BitVec.ofNat 32 (0x1000 + 4 * i))) = ⟨true, BitVec.ofNat 32 exps[i]!.toNat⟩ ∧
      busResponse s (.read (BitVec.ofNat 32 (0x1400 + 4 * i))) = ⟨true, BitVec.ofNat 32 logs[i]!.toNat⟩) ∧
    (s.busy = false → s.tstate = .uninitialized →
      busResponse s (.read (BitVec.ofNat 32 (0x1000 + 4 * i))) = ⟨true, 0⟩ ∧
      busResponse s (.read (BitVec.ofNat 32 (0x1400 + 4 * i))) = ⟨true, 0⟩) ∧
    (s.busy = true →
      busResponse s (.read (BitVec.ofNat 32 (0x1000 + 4 * i))) = ⟨false, 0⟩ ∧
      busResponse s (.read (BitVec.ofNat 32 (0x1400 + 4 * i))) = ⟨false, 0⟩)

/-- R208: irq is 1 exactly when CTRL.IE_DONE and STATUS.DONE are 1, or CTRL.IE_ERR and STATUS.ERR are 1, as the two
registers read. -/
def Obligations.IrqFollowsStatusAndCtrl : Prop :=
  ∀ s : State,
    (s.irq = true ↔
      ((readLoc s .ctrl).getLsbD 0 = true ∧ (readLoc s .status).getLsbD 2 = true) ∨
        ((readLoc s .ctrl).getLsbD 1 = true ∧ (readLoc s .status).getLsbD 3 = true))

/-- R40: ICOEF is never observable: two states that differ in it alone give the same response to every transaction,
the same `irq` and `rng_req`, and differ in it alone afterwards. -/
def Obligations.IcoefIsNeverObservable : Prop :=
  ∀ (s : State) (c : Vector Byte 255) (op : BusOp),
    busResponse { s with icoef := c } op = busResponse s op ∧
    busStep { s with icoef := c } op = { busStep s op with icoef := c } ∧
    State.irq { s with icoef := c } = s.irq ∧ State.rngReqPin { s with icoef := c } = s.rngReqPin

/-- R31: only INIT, TRESET and a reset change TSTATE (the events are the model's, log 1). -/
def Obligations.OnlyInitAndTresetChangeTstate : Prop :=
  ∀ s t : State, s.rstN = true → (∀ level rest, s.schedule ≠ .rst level :: rest) → step s = .next t →
    t.tstate ≠ s.tstate → ∃ w, s.eng = .busy w ∧ (decode w = .ok .init ∨ decode w = .ok .treset)

/-- R99: the host statement `ldcoef c0, ..., c(n-1)`, run on an idle block, loads COEF[0..n-1] and sets NCOEF to n, and
changes nothing else. (The events, log 1, and a write response's word 0, log 10, are the model's.) -/
def Obligations.LdcoefLoadsTheCoefficients : Prop :=
  ∀ (s : State) (coeffs : List Byte) (rest : List Event), s.rstN = true → s.busy = false →
    coeffs.length ≤ 256 → s.schedule = (HostStmt.ldcoef coeffs).events ++ rest →
      ∃ t, Host.Core.run Sys2Proof.core (coeffs.length + 1) s = .next t ∧
        (∀ k, k < coeffs.length → t.coef k = coeffs.getD k 0) ∧
        (∀ a, (∀ k, k < coeffs.length → a ≠ (Loc.coef k).offset) → t.elemByte a = s.elemByte a) ∧
        { t with ram := s.ram } =
          { s with ncoef := BitVec.ofNat 9 coeffs.length, busResp := some ⟨true, 0⟩, schedule := rest }
end

