-- ==== Sys2Proof/Laws/Memory.lean ====
section
/-! SUPPORT. Laws of the buffer RAM: read after write, and that every operation keeps the canonical form. -/

namespace Sys2Proof.Machine

@[simp] theorem Memory.read_nil (a : Nat) : Memory.read [] a = none := rfl

@[simp] theorem Memory.wf_nil : Memory.wf [] = true := rfl

@[simp] theorem Memory.read_write_same (m : Memory) (a : Nat) (b : Byte) :
    Memory.read (Memory.write m a b) a = some b := by
  induction m with
  | nil => simp [Memory.write, Memory.read]
  | cons cell rest ih =>
    obtain ⟨k, v⟩ := cell
    simp only [Memory.write]
    split
    · simp [Memory.read]
    · split
      · simp [Memory.read]
      · have : k ≠ a := by omega
        simp [Memory.read, this, ih]

theorem Memory.read_write_other (m : Memory) {a a' : Nat} (b : Byte) (h : a' ≠ a) :
    Memory.read (Memory.write m a b) a' = Memory.read m a' := by
  induction m with
  | nil => simp [Memory.write, Memory.read, h.symm]
  | cons cell rest ih =>
    obtain ⟨k, v⟩ := cell
    simp only [Memory.write]
    split
    · simp [Memory.read, h.symm]
    · split
      · rename_i hk
        subst hk
        simp [Memory.read, h.symm]
      · simp only [Memory.read, ih]

theorem Memory.read_write (m : Memory) (a a' : Nat) (b : Byte) :
    Memory.read (Memory.write m a b) a' = if a' = a then some b else Memory.read m a' := by
  by_cases h : a' = a
  · subst h; simp
  · simp [h, Memory.read_write_other m b h]

theorem Memory.risesFrom_write {lo : Nat} {m : Memory} {a : Nat} (b : Byte) (ha : lo < a)
    (h : Memory.risesFrom lo m = true) : Memory.risesFrom lo (Memory.write m a b) = true := by
  induction m generalizing lo with
  | nil => simp [Memory.write, Memory.risesFrom, ha]
  | cons cell rest ih =>
    obtain ⟨k, v⟩ := cell
    simp only [Memory.risesFrom, Bool.and_eq_true, decide_eq_true_eq] at h
    simp only [Memory.write]
    split
    · rename_i hk
      simp [Memory.risesFrom, ha, hk, h.2]
    · split
      · rename_i hk
        subst hk
        simp [Memory.risesFrom, h.1, h.2]
      · have : k < a := by omega
        simp [Memory.risesFrom, h.1, ih this h.2]

/-- A write keeps the canonical form. -/
theorem Memory.wf_write {m : Memory} (a : Nat) (b : Byte) (h : Memory.wf m = true) :
    Memory.wf (Memory.write m a b) = true := by
  cases m with
  | nil => rfl
  | cons cell rest =>
    obtain ⟨k, v⟩ := cell
    simp only [Memory.wf] at h
    simp only [Memory.write]
    split
    · rename_i hk
      simp [Memory.wf, Memory.risesFrom, hk, h]
    · split
      · rename_i hk
        subst hk
        simp [Memory.wf, h]
      · have : k < a := by omega
        simp [Memory.wf, Memory.risesFrom_write b this h]

/-- Writing a sequence of elements keeps the canonical form. -/
theorem Memory.wf_writeElems {m : Memory} (base : Nat) (bs : List Byte) (h : Memory.wf m = true) :
    Memory.wf (Memory.writeElems m base bs) = true := by
  induction bs generalizing m base with
  | nil => exact h
  | cons b rest ih => exact ih (base + 4) (Memory.wf_write base b h)

/-- An offset that is no written element's reads as before. -/
theorem Memory.read_writeElems_other {m : Memory} {base a : Nat} {bs : List Byte}
    (h : ∀ i, i < bs.length → a ≠ base + 4 * i) :
    Memory.read (Memory.writeElems m base bs) a = Memory.read m a := by
  induction bs generalizing m base with
  | nil => rfl
  | cons b rest ih =>
    have h0 : a ≠ base := by simpa using h 0 (by simp)
    have hr : ∀ i, i < rest.length → a ≠ (base + 4) + 4 * i := by
      intro i hi
      have := h (i + 1) (by simpa using hi)
      omega
    rw [Memory.writeElems, ih hr, Memory.read_write_other m b h0]

/-- Element `i` of a written sequence reads back. -/
theorem Memory.read_writeElems_same {m : Memory} {base : Nat} {bs : List Byte} {i : Nat} (h : i < bs.length) :
    Memory.read (Memory.writeElems m base bs) (base + 4 * i) = some bs[i] := by
  induction bs generalizing m base i with
  | nil => simp at h
  | cons b rest ih =>
    cases i with
    | zero =>
      rw [Memory.writeElems, Memory.read_writeElems_other (by intro j _; omega)]
      simp
    | succ i =>
      have : base + 4 * (i + 1) = (base + 4) + 4 * i := by ring
      rw [Memory.writeElems, this, ih (by simpa using h)]
      simp

/-- The cells of a written memory: the written one, or cells that were there. -/
theorem Memory.mem_write {m : Memory} {a : Nat} {b : Byte} {cell : Host.Cell}
    (h : cell ∈ Memory.write m a b) : cell = (a, b) ∨ cell ∈ m := by
  induction m with
  | nil => simpa [Memory.write] using h
  | cons c rest ih =>
    obtain ⟨k, v⟩ := c
    simp only [Memory.write] at h
    split at h
    · rcases List.mem_cons.1 h with h | h
      · exact .inl h
      · exact .inr h
    · split at h
      · rcases List.mem_cons.1 h with h | h
        · exact .inl h
        · exact .inr (List.mem_cons_of_mem _ h)
      · rcases List.mem_cons.1 h with h | h
        · exact .inr (by simp [h])
        · rcases ih h with h | h
          · exact .inl h
          · exact .inr (List.mem_cons_of_mem _ h)

/-! ### The same of the state's element accessors -/

@[simp] theorem State.elemByte_setElem_same (s : State) (a : Nat) (b : Byte) :
    (s.setElem a b).elemByte a = b := by
  simp [State.elemByte, State.setElem]

theorem State.elemByte_setElem_other (s : State) {a a' : Nat} (b : Byte) (h : a' ≠ a) :
    (s.setElem a b).elemByte a' = s.elemByte a' := by
  simp [State.elemByte, State.setElem, Memory.read_write_other _ b h]

theorem State.elemByte_setElems_same (s : State) {base i : Nat} {bs : List Byte} (h : i < bs.length) :
    (s.setElems base bs).elemByte (base + 4 * i) = bs[i] := by
  simp [State.elemByte, State.setElems, Memory.read_writeElems_same h]

theorem State.elemByte_setElems_other (s : State) {base a : Nat} {bs : List Byte}
    (h : ∀ i, i < bs.length → a ≠ base + 4 * i) :
    (s.setElems base bs).elemByte a = s.elemByte a := by
  simp [State.elemByte, State.setElems, Memory.read_writeElems_other h]

/-- A byte is read through RAM and epoch alone. -/
theorem State.elemByte_congr {s t : State} (hram : t.ram = s.ram) (hepoch : t.ramEpoch = s.ramEpoch) (a : Nat) :
    t.elemByte a = s.elemByte a := by
  simp [State.elemByte, hram, hepoch]

end Sys2Proof.Machine
end

