-- ==== Sys2Proof/Laws/State.lean ====
section
/-! SUPPORT. One lemma per field per named update of the state, each true by rfl, so that no later proof unfolds a
record update. -/

namespace Sys2Proof.Machine

/-! ### setElem -/

@[simp] theorem State.setElem_slotsM1 (s : State) (a : Nat) (b : Byte) : (s.setElem a b).slotsM1 = s.slotsM1 := rfl
@[simp] theorem State.setElem_maxlenM1 (s : State) (a : Nat) (b : Byte) : (s.setElem a b).maxlenM1 = s.maxlenM1 := rfl
@[simp] theorem State.setElem_ieDone (s : State) (a : Nat) (b : Byte) : (s.setElem a b).ieDone = s.ieDone := rfl
@[simp] theorem State.setElem_ieErr (s : State) (a : Nat) (b : Byte) : (s.setElem a b).ieErr = s.ieErr := rfl
@[simp] theorem State.setElem_done (s : State) (a : Nat) (b : Byte) : (s.setElem a b).done = s.done := rfl
@[simp] theorem State.setElem_err (s : State) (a : Nat) (b : Byte) : (s.setElem a b).err = s.err := rfl
@[simp] theorem State.setElem_ovr (s : State) (a : Nat) (b : Byte) : (s.setElem a b).ovr = s.ovr := rfl
@[simp] theorem State.setElem_result (s : State) (a : Nat) (b : Byte) : (s.setElem a b).result = s.result := rfl
@[simp] theorem State.setElem_errCode (s : State) (a : Nat) (b : Byte) : (s.setElem a b).errCode = s.errCode := rfl
@[simp] theorem State.setElem_errInfo (s : State) (a : Nat) (b : Byte) : (s.setElem a b).errInfo = s.errInfo := rfl
@[simp] theorem State.setElem_ncoef (s : State) (a : Nat) (b : Byte) : (s.setElem a b).ncoef = s.ncoef := rfl
@[simp] theorem State.setElem_npts (s : State) (a : Nat) (b : Byte) : (s.setElem a b).npts = s.npts := rfl
@[simp] theorem State.setElem_nslots (s : State) (a : Nat) (b : Byte) : (s.setElem a b).nslots = s.nslots := rfl
@[simp] theorem State.setElem_seclen (s : State) (a : Nat) (b : Byte) : (s.setElem a b).seclen = s.seclen := rfl
@[simp] theorem State.setElem_tstate (s : State) (a : Nat) (b : Byte) : (s.setElem a b).tstate = s.tstate := rfl
@[simp] theorem State.setElem_ram (s : State) (a : Nat) (b : Byte) : (s.setElem a b).ram = Memory.write s.ram a b := rfl
@[simp] theorem State.setElem_eng (s : State) (a : Nat) (b : Byte) : (s.setElem a b).eng = s.eng := rfl
@[simp] theorem State.setElem_icoef (s : State) (a : Nat) (b : Byte) : (s.setElem a b).icoef = s.icoef := rfl
@[simp] theorem State.setElem_rngReq (s : State) (a : Nat) (b : Byte) : (s.setElem a b).rngReq = s.rngReq := rfl
@[simp] theorem State.setElem_drawAt (s : State) (a : Nat) (b : Byte) : (s.setElem a b).drawAt = s.drawAt := rfl
@[simp] theorem State.setElem_rstN (s : State) (a : Nat) (b : Byte) : (s.setElem a b).rstN = s.rstN := rfl
@[simp] theorem State.setElem_busResp (s : State) (a : Nat) (b : Byte) : (s.setElem a b).busResp = s.busResp := rfl
@[simp] theorem State.setElem_ramEpoch (s : State) (a : Nat) (b : Byte) : (s.setElem a b).ramEpoch = s.ramEpoch := rfl
@[simp] theorem State.setElem_schedule (s : State) (a : Nat) (b : Byte) : (s.setElem a b).schedule = s.schedule := rfl
@[simp] theorem State.setElem_ready (s : State) (a : Nat) (b : Byte) : (s.setElem a b).ready = s.ready := rfl
@[simp] theorem State.setElem_busy (s : State) (a : Nat) (b : Byte) : (s.setElem a b).busy = s.busy := rfl

/-! ### setElem17 -/

@[simp] theorem State.setElem17_slotsM1 (s : State) (a : Nat) (v : BitVec 17) : (s.setElem17 a v).slotsM1 = s.slotsM1 := rfl
@[simp] theorem State.setElem17_maxlenM1 (s : State) (a : Nat) (v : BitVec 17) : (s.setElem17 a v).maxlenM1 = s.maxlenM1 := rfl
@[simp] theorem State.setElem17_ieDone (s : State) (a : Nat) (v : BitVec 17) : (s.setElem17 a v).ieDone = s.ieDone := rfl
@[simp] theorem State.setElem17_ieErr (s : State) (a : Nat) (v : BitVec 17) : (s.setElem17 a v).ieErr = s.ieErr := rfl
@[simp] theorem State.setElem17_done (s : State) (a : Nat) (v : BitVec 17) : (s.setElem17 a v).done = s.done := rfl
@[simp] theorem State.setElem17_err (s : State) (a : Nat) (v : BitVec 17) : (s.setElem17 a v).err = s.err := rfl
@[simp] theorem State.setElem17_ovr (s : State) (a : Nat) (v : BitVec 17) : (s.setElem17 a v).ovr = s.ovr := rfl
@[simp] theorem State.setElem17_result (s : State) (a : Nat) (v : BitVec 17) : (s.setElem17 a v).result = s.result := rfl
@[simp] theorem State.setElem17_errCode (s : State) (a : Nat) (v : BitVec 17) : (s.setElem17 a v).errCode = s.errCode := rfl
@[simp] theorem State.setElem17_errInfo (s : State) (a : Nat) (v : BitVec 17) : (s.setElem17 a v).errInfo = s.errInfo := rfl
@[simp] theorem State.setElem17_ncoef (s : State) (a : Nat) (v : BitVec 17) : (s.setElem17 a v).ncoef = s.ncoef := rfl
@[simp] theorem State.setElem17_npts (s : State) (a : Nat) (v : BitVec 17) : (s.setElem17 a v).npts = s.npts := rfl
@[simp] theorem State.setElem17_nslots (s : State) (a : Nat) (v : BitVec 17) : (s.setElem17 a v).nslots = s.nslots := rfl
@[simp] theorem State.setElem17_seclen (s : State) (a : Nat) (v : BitVec 17) : (s.setElem17 a v).seclen = s.seclen := rfl
@[simp] theorem State.setElem17_tstate (s : State) (a : Nat) (v : BitVec 17) : (s.setElem17 a v).tstate = s.tstate := rfl
@[simp] theorem State.setElem17_ram (s : State) (a : Nat) (v : BitVec 17) : (s.setElem17 a v).ram = Memory.write (Memory.write (Memory.write s.ram a (v.extractLsb' 0 8)) (a + 1)
      (v.extractLsb' 8 8)) (a + 2) ((v.extractLsb' 16 1).setWidth 8) := rfl
@[simp] theorem State.setElem17_eng (s : State) (a : Nat) (v : BitVec 17) : (s.setElem17 a v).eng = s.eng := rfl
@[simp] theorem State.setElem17_icoef (s : State) (a : Nat) (v : BitVec 17) : (s.setElem17 a v).icoef = s.icoef := rfl
@[simp] theorem State.setElem17_rngReq (s : State) (a : Nat) (v : BitVec 17) : (s.setElem17 a v).rngReq = s.rngReq := rfl
@[simp] theorem State.setElem17_drawAt (s : State) (a : Nat) (v : BitVec 17) : (s.setElem17 a v).drawAt = s.drawAt := rfl
@[simp] theorem State.setElem17_rstN (s : State) (a : Nat) (v : BitVec 17) : (s.setElem17 a v).rstN = s.rstN := rfl
@[simp] theorem State.setElem17_busResp (s : State) (a : Nat) (v : BitVec 17) : (s.setElem17 a v).busResp = s.busResp := rfl
@[simp] theorem State.setElem17_ramEpoch (s : State) (a : Nat) (v : BitVec 17) : (s.setElem17 a v).ramEpoch = s.ramEpoch := rfl
@[simp] theorem State.setElem17_schedule (s : State) (a : Nat) (v : BitVec 17) : (s.setElem17 a v).schedule = s.schedule := rfl
@[simp] theorem State.setElem17_ready (s : State) (a : Nat) (v : BitVec 17) : (s.setElem17 a v).ready = s.ready := rfl
@[simp] theorem State.setElem17_busy (s : State) (a : Nat) (v : BitVec 17) : (s.setElem17 a v).busy = s.busy := rfl

/-! ### setElems -/

@[simp] theorem State.setElems_slotsM1 (s : State) (base : Nat) (bs : List Byte) : (s.setElems base bs).slotsM1 = s.slotsM1 := rfl
@[simp] theorem State.setElems_maxlenM1 (s : State) (base : Nat) (bs : List Byte) : (s.setElems base bs).maxlenM1 = s.maxlenM1 := rfl
@[simp] theorem State.setElems_ieDone (s : State) (base : Nat) (bs : List Byte) : (s.setElems base bs).ieDone = s.ieDone := rfl
@[simp] theorem State.setElems_ieErr (s : State) (base : Nat) (bs : List Byte) : (s.setElems base bs).ieErr = s.ieErr := rfl
@[simp] theorem State.setElems_done (s : State) (base : Nat) (bs : List Byte) : (s.setElems base bs).done = s.done := rfl
@[simp] theorem State.setElems_err (s : State) (base : Nat) (bs : List Byte) : (s.setElems base bs).err = s.err := rfl
@[simp] theorem State.setElems_ovr (s : State) (base : Nat) (bs : List Byte) : (s.setElems base bs).ovr = s.ovr := rfl
@[simp] theorem State.setElems_result (s : State) (base : Nat) (bs : List Byte) : (s.setElems base bs).result = s.result := rfl
@[simp] theorem State.setElems_errCode (s : State) (base : Nat) (bs : List Byte) : (s.setElems base bs).errCode = s.errCode := rfl
@[simp] theorem State.setElems_errInfo (s : State) (base : Nat) (bs : List Byte) : (s.setElems base bs).errInfo = s.errInfo := rfl
@[simp] theorem State.setElems_ncoef (s : State) (base : Nat) (bs : List Byte) : (s.setElems base bs).ncoef = s.ncoef := rfl
@[simp] theorem State.setElems_npts (s : State) (base : Nat) (bs : List Byte) : (s.setElems base bs).npts = s.npts := rfl
@[simp] theorem State.setElems_nslots (s : State) (base : Nat) (bs : List Byte) : (s.setElems base bs).nslots = s.nslots := rfl
@[simp] theorem State.setElems_seclen (s : State) (base : Nat) (bs : List Byte) : (s.setElems base bs).seclen = s.seclen := rfl
@[simp] theorem State.setElems_tstate (s : State) (base : Nat) (bs : List Byte) : (s.setElems base bs).tstate = s.tstate := rfl
@[simp] theorem State.setElems_ram (s : State) (base : Nat) (bs : List Byte) : (s.setElems base bs).ram = Memory.writeElems s.ram base bs := rfl
@[simp] theorem State.setElems_eng (s : State) (base : Nat) (bs : List Byte) : (s.setElems base bs).eng = s.eng := rfl
@[simp] theorem State.setElems_icoef (s : State) (base : Nat) (bs : List Byte) : (s.setElems base bs).icoef = s.icoef := rfl
@[simp] theorem State.setElems_rngReq (s : State) (base : Nat) (bs : List Byte) : (s.setElems base bs).rngReq = s.rngReq := rfl
@[simp] theorem State.setElems_drawAt (s : State) (base : Nat) (bs : List Byte) : (s.setElems base bs).drawAt = s.drawAt := rfl
@[simp] theorem State.setElems_rstN (s : State) (base : Nat) (bs : List Byte) : (s.setElems base bs).rstN = s.rstN := rfl
@[simp] theorem State.setElems_busResp (s : State) (base : Nat) (bs : List Byte) : (s.setElems base bs).busResp = s.busResp := rfl
@[simp] theorem State.setElems_ramEpoch (s : State) (base : Nat) (bs : List Byte) : (s.setElems base bs).ramEpoch = s.ramEpoch := rfl
@[simp] theorem State.setElems_schedule (s : State) (base : Nat) (bs : List Byte) : (s.setElems base bs).schedule = s.schedule := rfl
@[simp] theorem State.setElems_ready (s : State) (base : Nat) (bs : List Byte) : (s.setElems base bs).ready = s.ready := rfl
@[simp] theorem State.setElems_busy (s : State) (base : Nat) (bs : List Byte) : (s.setElems base bs).busy = s.busy := rfl

/-! ### setResult -/

@[simp] theorem State.setResult_slotsM1 (s : State) (r : Byte) : (s.setResult r).slotsM1 = s.slotsM1 := rfl
@[simp] theorem State.setResult_maxlenM1 (s : State) (r : Byte) : (s.setResult r).maxlenM1 = s.maxlenM1 := rfl
@[simp] theorem State.setResult_ieDone (s : State) (r : Byte) : (s.setResult r).ieDone = s.ieDone := rfl
@[simp] theorem State.setResult_ieErr (s : State) (r : Byte) : (s.setResult r).ieErr = s.ieErr := rfl
@[simp] theorem State.setResult_done (s : State) (r : Byte) : (s.setResult r).done = s.done := rfl
@[simp] theorem State.setResult_err (s : State) (r : Byte) : (s.setResult r).err = s.err := rfl
@[simp] theorem State.setResult_ovr (s : State) (r : Byte) : (s.setResult r).ovr = s.ovr := rfl
@[simp] theorem State.setResult_result (s : State) (r : Byte) : (s.setResult r).result = r := rfl
@[simp] theorem State.setResult_errCode (s : State) (r : Byte) : (s.setResult r).errCode = s.errCode := rfl
@[simp] theorem State.setResult_errInfo (s : State) (r : Byte) : (s.setResult r).errInfo = s.errInfo := rfl
@[simp] theorem State.setResult_ncoef (s : State) (r : Byte) : (s.setResult r).ncoef = s.ncoef := rfl
@[simp] theorem State.setResult_npts (s : State) (r : Byte) : (s.setResult r).npts = s.npts := rfl
@[simp] theorem State.setResult_nslots (s : State) (r : Byte) : (s.setResult r).nslots = s.nslots := rfl
@[simp] theorem State.setResult_seclen (s : State) (r : Byte) : (s.setResult r).seclen = s.seclen := rfl
@[simp] theorem State.setResult_tstate (s : State) (r : Byte) : (s.setResult r).tstate = s.tstate := rfl
@[simp] theorem State.setResult_ram (s : State) (r : Byte) : (s.setResult r).ram = s.ram := rfl
@[simp] theorem State.setResult_eng (s : State) (r : Byte) : (s.setResult r).eng = s.eng := rfl
@[simp] theorem State.setResult_icoef (s : State) (r : Byte) : (s.setResult r).icoef = s.icoef := rfl
@[simp] theorem State.setResult_rngReq (s : State) (r : Byte) : (s.setResult r).rngReq = s.rngReq := rfl
@[simp] theorem State.setResult_drawAt (s : State) (r : Byte) : (s.setResult r).drawAt = s.drawAt := rfl
@[simp] theorem State.setResult_rstN (s : State) (r : Byte) : (s.setResult r).rstN = s.rstN := rfl
@[simp] theorem State.setResult_busResp (s : State) (r : Byte) : (s.setResult r).busResp = s.busResp := rfl
@[simp] theorem State.setResult_ramEpoch (s : State) (r : Byte) : (s.setResult r).ramEpoch = s.ramEpoch := rfl
@[simp] theorem State.setResult_schedule (s : State) (r : Byte) : (s.setResult r).schedule = s.schedule := rfl
@[simp] theorem State.setResult_elemByte (s : State) (r : Byte) (a' : Nat) : (s.setResult r).elemByte a' = s.elemByte a' := rfl
@[simp] theorem State.setResult_ready (s : State) (r : Byte) : (s.setResult r).ready = s.ready := rfl
@[simp] theorem State.setResult_busy (s : State) (r : Byte) : (s.setResult r).busy = s.busy := rfl

/-! ### setTables -/

@[simp] theorem State.setTables_slotsM1 (s : State) (t : TState) : (s.setTables t).slotsM1 = s.slotsM1 := rfl
@[simp] theorem State.setTables_maxlenM1 (s : State) (t : TState) : (s.setTables t).maxlenM1 = s.maxlenM1 := rfl
@[simp] theorem State.setTables_ieDone (s : State) (t : TState) : (s.setTables t).ieDone = s.ieDone := rfl
@[simp] theorem State.setTables_ieErr (s : State) (t : TState) : (s.setTables t).ieErr = s.ieErr := rfl
@[simp] theorem State.setTables_done (s : State) (t : TState) : (s.setTables t).done = s.done := rfl
@[simp] theorem State.setTables_err (s : State) (t : TState) : (s.setTables t).err = s.err := rfl
@[simp] theorem State.setTables_ovr (s : State) (t : TState) : (s.setTables t).ovr = s.ovr := rfl
@[simp] theorem State.setTables_result (s : State) (t : TState) : (s.setTables t).result = s.result := rfl
@[simp] theorem State.setTables_errCode (s : State) (t : TState) : (s.setTables t).errCode = s.errCode := rfl
@[simp] theorem State.setTables_errInfo (s : State) (t : TState) : (s.setTables t).errInfo = s.errInfo := rfl
@[simp] theorem State.setTables_ncoef (s : State) (t : TState) : (s.setTables t).ncoef = s.ncoef := rfl
@[simp] theorem State.setTables_npts (s : State) (t : TState) : (s.setTables t).npts = s.npts := rfl
@[simp] theorem State.setTables_nslots (s : State) (t : TState) : (s.setTables t).nslots = s.nslots := rfl
@[simp] theorem State.setTables_seclen (s : State) (t : TState) : (s.setTables t).seclen = s.seclen := rfl
@[simp] theorem State.setTables_tstate (s : State) (t : TState) : (s.setTables t).tstate = t := rfl
@[simp] theorem State.setTables_ram (s : State) (t : TState) : (s.setTables t).ram = s.ram := rfl
@[simp] theorem State.setTables_eng (s : State) (t : TState) : (s.setTables t).eng = s.eng := rfl
@[simp] theorem State.setTables_icoef (s : State) (t : TState) : (s.setTables t).icoef = s.icoef := rfl
@[simp] theorem State.setTables_rngReq (s : State) (t : TState) : (s.setTables t).rngReq = s.rngReq := rfl
@[simp] theorem State.setTables_drawAt (s : State) (t : TState) : (s.setTables t).drawAt = s.drawAt := rfl
@[simp] theorem State.setTables_rstN (s : State) (t : TState) : (s.setTables t).rstN = s.rstN := rfl
@[simp] theorem State.setTables_busResp (s : State) (t : TState) : (s.setTables t).busResp = s.busResp := rfl
@[simp] theorem State.setTables_ramEpoch (s : State) (t : TState) : (s.setTables t).ramEpoch = s.ramEpoch := rfl
@[simp] theorem State.setTables_schedule (s : State) (t : TState) : (s.setTables t).schedule = s.schedule := rfl
@[simp] theorem State.setTables_elemByte (s : State) (t : TState) (a' : Nat) : (s.setTables t).elemByte a' = s.elemByte a' := rfl
@[simp] theorem State.setTables_busy (s : State) (t : TState) : (s.setTables t).busy = s.busy := rfl

/-! ### setSchedule -/

@[simp] theorem State.setSchedule_slotsM1 (s : State) (rest : List Event) : (s.setSchedule rest).slotsM1 = s.slotsM1 := rfl
@[simp] theorem State.setSchedule_maxlenM1 (s : State) (rest : List Event) : (s.setSchedule rest).maxlenM1 = s.maxlenM1 := rfl
@[simp] theorem State.setSchedule_ieDone (s : State) (rest : List Event) : (s.setSchedule rest).ieDone = s.ieDone := rfl
@[simp] theorem State.setSchedule_ieErr (s : State) (rest : List Event) : (s.setSchedule rest).ieErr = s.ieErr := rfl
@[simp] theorem State.setSchedule_done (s : State) (rest : List Event) : (s.setSchedule rest).done = s.done := rfl
@[simp] theorem State.setSchedule_err (s : State) (rest : List Event) : (s.setSchedule rest).err = s.err := rfl
@[simp] theorem State.setSchedule_ovr (s : State) (rest : List Event) : (s.setSchedule rest).ovr = s.ovr := rfl
@[simp] theorem State.setSchedule_result (s : State) (rest : List Event) : (s.setSchedule rest).result = s.result := rfl
@[simp] theorem State.setSchedule_errCode (s : State) (rest : List Event) : (s.setSchedule rest).errCode = s.errCode := rfl
@[simp] theorem State.setSchedule_errInfo (s : State) (rest : List Event) : (s.setSchedule rest).errInfo = s.errInfo := rfl
@[simp] theorem State.setSchedule_ncoef (s : State) (rest : List Event) : (s.setSchedule rest).ncoef = s.ncoef := rfl
@[simp] theorem State.setSchedule_npts (s : State) (rest : List Event) : (s.setSchedule rest).npts = s.npts := rfl
@[simp] theorem State.setSchedule_nslots (s : State) (rest : List Event) : (s.setSchedule rest).nslots = s.nslots := rfl
@[simp] theorem State.setSchedule_seclen (s : State) (rest : List Event) : (s.setSchedule rest).seclen = s.seclen := rfl
@[simp] theorem State.setSchedule_tstate (s : State) (rest : List Event) : (s.setSchedule rest).tstate = s.tstate := rfl
@[simp] theorem State.setSchedule_ram (s : State) (rest : List Event) : (s.setSchedule rest).ram = s.ram := rfl
@[simp] theorem State.setSchedule_eng (s : State) (rest : List Event) : (s.setSchedule rest).eng = s.eng := rfl
@[simp] theorem State.setSchedule_icoef (s : State) (rest : List Event) : (s.setSchedule rest).icoef = s.icoef := rfl
@[simp] theorem State.setSchedule_rngReq (s : State) (rest : List Event) : (s.setSchedule rest).rngReq = s.rngReq := rfl
@[simp] theorem State.setSchedule_drawAt (s : State) (rest : List Event) : (s.setSchedule rest).drawAt = s.drawAt := rfl
@[simp] theorem State.setSchedule_rstN (s : State) (rest : List Event) : (s.setSchedule rest).rstN = s.rstN := rfl
@[simp] theorem State.setSchedule_busResp (s : State) (rest : List Event) : (s.setSchedule rest).busResp = s.busResp := rfl
@[simp] theorem State.setSchedule_ramEpoch (s : State) (rest : List Event) : (s.setSchedule rest).ramEpoch = s.ramEpoch := rfl
@[simp] theorem State.setSchedule_schedule (s : State) (rest : List Event) : (s.setSchedule rest).schedule = rest := rfl
@[simp] theorem State.setSchedule_elemByte (s : State) (rest : List Event) (a' : Nat) : (s.setSchedule rest).elemByte a' = s.elemByte a' := rfl
@[simp] theorem State.setSchedule_ready (s : State) (rest : List Event) : (s.setSchedule rest).ready = s.ready := rfl
@[simp] theorem State.setSchedule_busy (s : State) (rest : List Event) : (s.setSchedule rest).busy = s.busy := rfl

/-! ### respond -/

@[simp] theorem State.respond_slotsM1 (s : State) (r : BusResp) : (s.respond r).slotsM1 = s.slotsM1 := rfl
@[simp] theorem State.respond_maxlenM1 (s : State) (r : BusResp) : (s.respond r).maxlenM1 = s.maxlenM1 := rfl
@[simp] theorem State.respond_ieDone (s : State) (r : BusResp) : (s.respond r).ieDone = s.ieDone := rfl
@[simp] theorem State.respond_ieErr (s : State) (r : BusResp) : (s.respond r).ieErr = s.ieErr := rfl
@[simp] theorem State.respond_done (s : State) (r : BusResp) : (s.respond r).done = s.done := rfl
@[simp] theorem State.respond_err (s : State) (r : BusResp) : (s.respond r).err = s.err := rfl
@[simp] theorem State.respond_ovr (s : State) (r : BusResp) : (s.respond r).ovr = s.ovr := rfl
@[simp] theorem State.respond_result (s : State) (r : BusResp) : (s.respond r).result = s.result := rfl
@[simp] theorem State.respond_errCode (s : State) (r : BusResp) : (s.respond r).errCode = s.errCode := rfl
@[simp] theorem State.respond_errInfo (s : State) (r : BusResp) : (s.respond r).errInfo = s.errInfo := rfl
@[simp] theorem State.respond_ncoef (s : State) (r : BusResp) : (s.respond r).ncoef = s.ncoef := rfl
@[simp] theorem State.respond_npts (s : State) (r : BusResp) : (s.respond r).npts = s.npts := rfl
@[simp] theorem State.respond_nslots (s : State) (r : BusResp) : (s.respond r).nslots = s.nslots := rfl
@[simp] theorem State.respond_seclen (s : State) (r : BusResp) : (s.respond r).seclen = s.seclen := rfl
@[simp] theorem State.respond_tstate (s : State) (r : BusResp) : (s.respond r).tstate = s.tstate := rfl
@[simp] theorem State.respond_ram (s : State) (r : BusResp) : (s.respond r).ram = s.ram := rfl
@[simp] theorem State.respond_eng (s : State) (r : BusResp) : (s.respond r).eng = s.eng := rfl
@[simp] theorem State.respond_icoef (s : State) (r : BusResp) : (s.respond r).icoef = s.icoef := rfl
@[simp] theorem State.respond_rngReq (s : State) (r : BusResp) : (s.respond r).rngReq = s.rngReq := rfl
@[simp] theorem State.respond_drawAt (s : State) (r : BusResp) : (s.respond r).drawAt = s.drawAt := rfl
@[simp] theorem State.respond_rstN (s : State) (r : BusResp) : (s.respond r).rstN = s.rstN := rfl
@[simp] theorem State.respond_busResp (s : State) (r : BusResp) : (s.respond r).busResp = some r := rfl
@[simp] theorem State.respond_ramEpoch (s : State) (r : BusResp) : (s.respond r).ramEpoch = s.ramEpoch := rfl
@[simp] theorem State.respond_schedule (s : State) (r : BusResp) : (s.respond r).schedule = s.schedule := rfl
@[simp] theorem State.respond_elemByte (s : State) (r : BusResp) (a' : Nat) : (s.respond r).elemByte a' = s.elemByte a' := rfl
@[simp] theorem State.respond_ready (s : State) (r : BusResp) : (s.respond r).ready = s.ready := rfl
@[simp] theorem State.respond_busy (s : State) (r : BusResp) : (s.respond r).busy = s.busy := rfl

/-! ### startDraws -/

@[simp] theorem State.startDraws_slotsM1 (s : State) (secret : Byte) : (s.startDraws secret).slotsM1 = s.slotsM1 := rfl
@[simp] theorem State.startDraws_maxlenM1 (s : State) (secret : Byte) : (s.startDraws secret).maxlenM1 = s.maxlenM1 := rfl
@[simp] theorem State.startDraws_ieDone (s : State) (secret : Byte) : (s.startDraws secret).ieDone = s.ieDone := rfl
@[simp] theorem State.startDraws_ieErr (s : State) (secret : Byte) : (s.startDraws secret).ieErr = s.ieErr := rfl
@[simp] theorem State.startDraws_done (s : State) (secret : Byte) : (s.startDraws secret).done = s.done := rfl
@[simp] theorem State.startDraws_err (s : State) (secret : Byte) : (s.startDraws secret).err = s.err := rfl
@[simp] theorem State.startDraws_ovr (s : State) (secret : Byte) : (s.startDraws secret).ovr = s.ovr := rfl
@[simp] theorem State.startDraws_result (s : State) (secret : Byte) : (s.startDraws secret).result = s.result := rfl
@[simp] theorem State.startDraws_errCode (s : State) (secret : Byte) : (s.startDraws secret).errCode = s.errCode := rfl
@[simp] theorem State.startDraws_errInfo (s : State) (secret : Byte) : (s.startDraws secret).errInfo = s.errInfo := rfl
@[simp] theorem State.startDraws_ncoef (s : State) (secret : Byte) : (s.startDraws secret).ncoef = s.ncoef := rfl
@[simp] theorem State.startDraws_npts (s : State) (secret : Byte) : (s.startDraws secret).npts = s.npts := rfl
@[simp] theorem State.startDraws_nslots (s : State) (secret : Byte) : (s.startDraws secret).nslots = s.nslots := rfl
@[simp] theorem State.startDraws_seclen (s : State) (secret : Byte) : (s.startDraws secret).seclen = s.seclen := rfl
@[simp] theorem State.startDraws_tstate (s : State) (secret : Byte) : (s.startDraws secret).tstate = s.tstate := rfl
@[simp] theorem State.startDraws_ram (s : State) (secret : Byte) : (s.startDraws secret).ram = s.ram := rfl
@[simp] theorem State.startDraws_eng (s : State) (secret : Byte) : (s.startDraws secret).eng = s.eng := rfl
@[simp] theorem State.startDraws_icoef (s : State) (secret : Byte) : (s.startDraws secret).icoef = icoefSet s.icoef 0 secret := rfl
@[simp] theorem State.startDraws_rngReq (s : State) (secret : Byte) : (s.startDraws secret).rngReq = s.rngReq := rfl
@[simp] theorem State.startDraws_drawAt (s : State) (secret : Byte) : (s.startDraws secret).drawAt = some 1 := rfl
@[simp] theorem State.startDraws_rstN (s : State) (secret : Byte) : (s.startDraws secret).rstN = s.rstN := rfl
@[simp] theorem State.startDraws_busResp (s : State) (secret : Byte) : (s.startDraws secret).busResp = s.busResp := rfl
@[simp] theorem State.startDraws_ramEpoch (s : State) (secret : Byte) : (s.startDraws secret).ramEpoch = s.ramEpoch := rfl
@[simp] theorem State.startDraws_schedule (s : State) (secret : Byte) : (s.startDraws secret).schedule = s.schedule := rfl
@[simp] theorem State.startDraws_elemByte (s : State) (secret : Byte) (a' : Nat) : (s.startDraws secret).elemByte a' = s.elemByte a' := rfl
@[simp] theorem State.startDraws_ready (s : State) (secret : Byte) : (s.startDraws secret).ready = s.ready := rfl
@[simp] theorem State.startDraws_busy (s : State) (secret : Byte) : (s.startDraws secret).busy = s.busy := rfl

/-! ### keepDraw -/

@[simp] theorem State.keepDraw_slotsM1 (s : State) (k : Nat) (b : Byte) : (s.keepDraw k b).slotsM1 = s.slotsM1 := rfl
@[simp] theorem State.keepDraw_maxlenM1 (s : State) (k : Nat) (b : Byte) : (s.keepDraw k b).maxlenM1 = s.maxlenM1 := rfl
@[simp] theorem State.keepDraw_ieDone (s : State) (k : Nat) (b : Byte) : (s.keepDraw k b).ieDone = s.ieDone := rfl
@[simp] theorem State.keepDraw_ieErr (s : State) (k : Nat) (b : Byte) : (s.keepDraw k b).ieErr = s.ieErr := rfl
@[simp] theorem State.keepDraw_done (s : State) (k : Nat) (b : Byte) : (s.keepDraw k b).done = s.done := rfl
@[simp] theorem State.keepDraw_err (s : State) (k : Nat) (b : Byte) : (s.keepDraw k b).err = s.err := rfl
@[simp] theorem State.keepDraw_ovr (s : State) (k : Nat) (b : Byte) : (s.keepDraw k b).ovr = s.ovr := rfl
@[simp] theorem State.keepDraw_result (s : State) (k : Nat) (b : Byte) : (s.keepDraw k b).result = s.result := rfl
@[simp] theorem State.keepDraw_errCode (s : State) (k : Nat) (b : Byte) : (s.keepDraw k b).errCode = s.errCode := rfl
@[simp] theorem State.keepDraw_errInfo (s : State) (k : Nat) (b : Byte) : (s.keepDraw k b).errInfo = s.errInfo := rfl
@[simp] theorem State.keepDraw_ncoef (s : State) (k : Nat) (b : Byte) : (s.keepDraw k b).ncoef = s.ncoef := rfl
@[simp] theorem State.keepDraw_npts (s : State) (k : Nat) (b : Byte) : (s.keepDraw k b).npts = s.npts := rfl
@[simp] theorem State.keepDraw_nslots (s : State) (k : Nat) (b : Byte) : (s.keepDraw k b).nslots = s.nslots := rfl
@[simp] theorem State.keepDraw_seclen (s : State) (k : Nat) (b : Byte) : (s.keepDraw k b).seclen = s.seclen := rfl
@[simp] theorem State.keepDraw_tstate (s : State) (k : Nat) (b : Byte) : (s.keepDraw k b).tstate = s.tstate := rfl
@[simp] theorem State.keepDraw_ram (s : State) (k : Nat) (b : Byte) : (s.keepDraw k b).ram = s.ram := rfl
@[simp] theorem State.keepDraw_eng (s : State) (k : Nat) (b : Byte) : (s.keepDraw k b).eng = s.eng := rfl
@[simp] theorem State.keepDraw_icoef (s : State) (k : Nat) (b : Byte) : (s.keepDraw k b).icoef = icoefSet s.icoef k b := rfl
@[simp] theorem State.keepDraw_rngReq (s : State) (k : Nat) (b : Byte) : (s.keepDraw k b).rngReq = s.rngReq := rfl
@[simp] theorem State.keepDraw_drawAt (s : State) (k : Nat) (b : Byte) : (s.keepDraw k b).drawAt = some (k + 1) := rfl
@[simp] theorem State.keepDraw_rstN (s : State) (k : Nat) (b : Byte) : (s.keepDraw k b).rstN = s.rstN := rfl
@[simp] theorem State.keepDraw_busResp (s : State) (k : Nat) (b : Byte) : (s.keepDraw k b).busResp = s.busResp := rfl
@[simp] theorem State.keepDraw_ramEpoch (s : State) (k : Nat) (b : Byte) : (s.keepDraw k b).ramEpoch = s.ramEpoch := rfl
@[simp] theorem State.keepDraw_schedule (s : State) (k : Nat) (b : Byte) : (s.keepDraw k b).schedule = s.schedule := rfl
@[simp] theorem State.keepDraw_elemByte (s : State) (k : Nat) (b : Byte) (a' : Nat) : (s.keepDraw k b).elemByte a' = s.elemByte a' := rfl
@[simp] theorem State.keepDraw_ready (s : State) (k : Nat) (b : Byte) : (s.keepDraw k b).ready = s.ready := rfl
@[simp] theorem State.keepDraw_busy (s : State) (k : Nat) (b : Byte) : (s.keepDraw k b).busy = s.busy := rfl

/-! ### clearDraws -/

@[simp] theorem State.clearDraws_slotsM1 (s : State) : (s.clearDraws).slotsM1 = s.slotsM1 := rfl
@[simp] theorem State.clearDraws_maxlenM1 (s : State) : (s.clearDraws).maxlenM1 = s.maxlenM1 := rfl
@[simp] theorem State.clearDraws_ieDone (s : State) : (s.clearDraws).ieDone = s.ieDone := rfl
@[simp] theorem State.clearDraws_ieErr (s : State) : (s.clearDraws).ieErr = s.ieErr := rfl
@[simp] theorem State.clearDraws_done (s : State) : (s.clearDraws).done = s.done := rfl
@[simp] theorem State.clearDraws_err (s : State) : (s.clearDraws).err = s.err := rfl
@[simp] theorem State.clearDraws_ovr (s : State) : (s.clearDraws).ovr = s.ovr := rfl
@[simp] theorem State.clearDraws_result (s : State) : (s.clearDraws).result = s.result := rfl
@[simp] theorem State.clearDraws_errCode (s : State) : (s.clearDraws).errCode = s.errCode := rfl
@[simp] theorem State.clearDraws_errInfo (s : State) : (s.clearDraws).errInfo = s.errInfo := rfl
@[simp] theorem State.clearDraws_ncoef (s : State) : (s.clearDraws).ncoef = s.ncoef := rfl
@[simp] theorem State.clearDraws_npts (s : State) : (s.clearDraws).npts = s.npts := rfl
@[simp] theorem State.clearDraws_nslots (s : State) : (s.clearDraws).nslots = s.nslots := rfl
@[simp] theorem State.clearDraws_seclen (s : State) : (s.clearDraws).seclen = s.seclen := rfl
@[simp] theorem State.clearDraws_tstate (s : State) : (s.clearDraws).tstate = s.tstate := rfl
@[simp] theorem State.clearDraws_ram (s : State) : (s.clearDraws).ram = s.ram := rfl
@[simp] theorem State.clearDraws_eng (s : State) : (s.clearDraws).eng = s.eng := rfl
@[simp] theorem State.clearDraws_icoef (s : State) : (s.clearDraws).icoef = icoefZero := rfl
@[simp] theorem State.clearDraws_rngReq (s : State) : (s.clearDraws).rngReq = s.rngReq := rfl
@[simp] theorem State.clearDraws_drawAt (s : State) : (s.clearDraws).drawAt = none := rfl
@[simp] theorem State.clearDraws_rstN (s : State) : (s.clearDraws).rstN = s.rstN := rfl
@[simp] theorem State.clearDraws_busResp (s : State) : (s.clearDraws).busResp = s.busResp := rfl
@[simp] theorem State.clearDraws_ramEpoch (s : State) : (s.clearDraws).ramEpoch = s.ramEpoch := rfl
@[simp] theorem State.clearDraws_schedule (s : State) : (s.clearDraws).schedule = s.schedule := rfl
@[simp] theorem State.clearDraws_elemByte (s : State) (a' : Nat) : (s.clearDraws).elemByte a' = s.elemByte a' := rfl
@[simp] theorem State.clearDraws_ready (s : State) : (s.clearDraws).ready = s.ready := rfl
@[simp] theorem State.clearDraws_busy (s : State) : (s.clearDraws).busy = s.busy := rfl

/-! ### request -/

@[simp] theorem State.request_slotsM1 (s : State) : (s.request).slotsM1 = s.slotsM1 := rfl
@[simp] theorem State.request_maxlenM1 (s : State) : (s.request).maxlenM1 = s.maxlenM1 := rfl
@[simp] theorem State.request_ieDone (s : State) : (s.request).ieDone = s.ieDone := rfl
@[simp] theorem State.request_ieErr (s : State) : (s.request).ieErr = s.ieErr := rfl
@[simp] theorem State.request_done (s : State) : (s.request).done = s.done := rfl
@[simp] theorem State.request_err (s : State) : (s.request).err = s.err := rfl
@[simp] theorem State.request_ovr (s : State) : (s.request).ovr = s.ovr := rfl
@[simp] theorem State.request_result (s : State) : (s.request).result = s.result := rfl
@[simp] theorem State.request_errCode (s : State) : (s.request).errCode = s.errCode := rfl
@[simp] theorem State.request_errInfo (s : State) : (s.request).errInfo = s.errInfo := rfl
@[simp] theorem State.request_ncoef (s : State) : (s.request).ncoef = s.ncoef := rfl
@[simp] theorem State.request_npts (s : State) : (s.request).npts = s.npts := rfl
@[simp] theorem State.request_nslots (s : State) : (s.request).nslots = s.nslots := rfl
@[simp] theorem State.request_seclen (s : State) : (s.request).seclen = s.seclen := rfl
@[simp] theorem State.request_tstate (s : State) : (s.request).tstate = s.tstate := rfl
@[simp] theorem State.request_ram (s : State) : (s.request).ram = s.ram := rfl
@[simp] theorem State.request_eng (s : State) : (s.request).eng = s.eng := rfl
@[simp] theorem State.request_icoef (s : State) : (s.request).icoef = s.icoef := rfl
@[simp] theorem State.request_rngReq (s : State) : (s.request).rngReq = .pending := rfl
@[simp] theorem State.request_drawAt (s : State) : (s.request).drawAt = s.drawAt := rfl
@[simp] theorem State.request_rstN (s : State) : (s.request).rstN = s.rstN := rfl
@[simp] theorem State.request_busResp (s : State) : (s.request).busResp = s.busResp := rfl
@[simp] theorem State.request_ramEpoch (s : State) : (s.request).ramEpoch = s.ramEpoch := rfl
@[simp] theorem State.request_schedule (s : State) : (s.request).schedule = s.schedule := rfl
@[simp] theorem State.request_elemByte (s : State) (a' : Nat) : (s.request).elemByte a' = s.elemByte a' := rfl
@[simp] theorem State.request_ready (s : State) : (s.request).ready = s.ready := rfl
@[simp] theorem State.request_busy (s : State) : (s.request).busy = s.busy := rfl

/-! ### dropRequest -/

@[simp] theorem State.dropRequest_slotsM1 (s : State) : (s.dropRequest).slotsM1 = s.slotsM1 := rfl
@[simp] theorem State.dropRequest_maxlenM1 (s : State) : (s.dropRequest).maxlenM1 = s.maxlenM1 := rfl
@[simp] theorem State.dropRequest_ieDone (s : State) : (s.dropRequest).ieDone = s.ieDone := rfl
@[simp] theorem State.dropRequest_ieErr (s : State) : (s.dropRequest).ieErr = s.ieErr := rfl
@[simp] theorem State.dropRequest_done (s : State) : (s.dropRequest).done = s.done := rfl
@[simp] theorem State.dropRequest_err (s : State) : (s.dropRequest).err = s.err := rfl
@[simp] theorem State.dropRequest_ovr (s : State) : (s.dropRequest).ovr = s.ovr := rfl
@[simp] theorem State.dropRequest_result (s : State) : (s.dropRequest).result = s.result := rfl
@[simp] theorem State.dropRequest_errCode (s : State) : (s.dropRequest).errCode = s.errCode := rfl
@[simp] theorem State.dropRequest_errInfo (s : State) : (s.dropRequest).errInfo = s.errInfo := rfl
@[simp] theorem State.dropRequest_ncoef (s : State) : (s.dropRequest).ncoef = s.ncoef := rfl
@[simp] theorem State.dropRequest_npts (s : State) : (s.dropRequest).npts = s.npts := rfl
@[simp] theorem State.dropRequest_nslots (s : State) : (s.dropRequest).nslots = s.nslots := rfl
@[simp] theorem State.dropRequest_seclen (s : State) : (s.dropRequest).seclen = s.seclen := rfl
@[simp] theorem State.dropRequest_tstate (s : State) : (s.dropRequest).tstate = s.tstate := rfl
@[simp] theorem State.dropRequest_ram (s : State) : (s.dropRequest).ram = s.ram := rfl
@[simp] theorem State.dropRequest_eng (s : State) : (s.dropRequest).eng = s.eng := rfl
@[simp] theorem State.dropRequest_icoef (s : State) : (s.dropRequest).icoef = s.icoef := rfl
@[simp] theorem State.dropRequest_rngReq (s : State) : (s.dropRequest).rngReq = .idle := rfl
@[simp] theorem State.dropRequest_drawAt (s : State) : (s.dropRequest).drawAt = s.drawAt := rfl
@[simp] theorem State.dropRequest_rstN (s : State) : (s.dropRequest).rstN = s.rstN := rfl
@[simp] theorem State.dropRequest_busResp (s : State) : (s.dropRequest).busResp = s.busResp := rfl
@[simp] theorem State.dropRequest_ramEpoch (s : State) : (s.dropRequest).ramEpoch = s.ramEpoch := rfl
@[simp] theorem State.dropRequest_schedule (s : State) : (s.dropRequest).schedule = s.schedule := rfl
@[simp] theorem State.dropRequest_elemByte (s : State) (a' : Nat) : (s.dropRequest).elemByte a' = s.elemByte a' := rfl
@[simp] theorem State.dropRequest_ready (s : State) : (s.dropRequest).ready = s.ready := rfl
@[simp] theorem State.dropRequest_busy (s : State) : (s.dropRequest).busy = s.busy := rfl

/-! ### setCtrl -/

@[simp] theorem State.setCtrl_slotsM1 (s : State) (d : Word) : (s.setCtrl d).slotsM1 = s.slotsM1 := rfl
@[simp] theorem State.setCtrl_maxlenM1 (s : State) (d : Word) : (s.setCtrl d).maxlenM1 = s.maxlenM1 := rfl
@[simp] theorem State.setCtrl_ieDone (s : State) (d : Word) : (s.setCtrl d).ieDone = d.getLsbD 0 := rfl
@[simp] theorem State.setCtrl_ieErr (s : State) (d : Word) : (s.setCtrl d).ieErr = d.getLsbD 1 := rfl
@[simp] theorem State.setCtrl_done (s : State) (d : Word) : (s.setCtrl d).done = s.done := rfl
@[simp] theorem State.setCtrl_err (s : State) (d : Word) : (s.setCtrl d).err = s.err := rfl
@[simp] theorem State.setCtrl_ovr (s : State) (d : Word) : (s.setCtrl d).ovr = s.ovr := rfl
@[simp] theorem State.setCtrl_result (s : State) (d : Word) : (s.setCtrl d).result = s.result := rfl
@[simp] theorem State.setCtrl_errCode (s : State) (d : Word) : (s.setCtrl d).errCode = s.errCode := rfl
@[simp] theorem State.setCtrl_errInfo (s : State) (d : Word) : (s.setCtrl d).errInfo = s.errInfo := rfl
@[simp] theorem State.setCtrl_ncoef (s : State) (d : Word) : (s.setCtrl d).ncoef = s.ncoef := rfl
@[simp] theorem State.setCtrl_npts (s : State) (d : Word) : (s.setCtrl d).npts = s.npts := rfl
@[simp] theorem State.setCtrl_nslots (s : State) (d : Word) : (s.setCtrl d).nslots = s.nslots := rfl
@[simp] theorem State.setCtrl_seclen (s : State) (d : Word) : (s.setCtrl d).seclen = s.seclen := rfl
@[simp] theorem State.setCtrl_tstate (s : State) (d : Word) : (s.setCtrl d).tstate = s.tstate := rfl
@[simp] theorem State.setCtrl_ram (s : State) (d : Word) : (s.setCtrl d).ram = s.ram := rfl
@[simp] theorem State.setCtrl_eng (s : State) (d : Word) : (s.setCtrl d).eng = s.eng := rfl
@[simp] theorem State.setCtrl_icoef (s : State) (d : Word) : (s.setCtrl d).icoef = s.icoef := rfl
@[simp] theorem State.setCtrl_rngReq (s : State) (d : Word) : (s.setCtrl d).rngReq = s.rngReq := rfl
@[simp] theorem State.setCtrl_drawAt (s : State) (d : Word) : (s.setCtrl d).drawAt = s.drawAt := rfl
@[simp] theorem State.setCtrl_rstN (s : State) (d : Word) : (s.setCtrl d).rstN = s.rstN := rfl
@[simp] theorem State.setCtrl_busResp (s : State) (d : Word) : (s.setCtrl d).busResp = s.busResp := rfl
@[simp] theorem State.setCtrl_ramEpoch (s : State) (d : Word) : (s.setCtrl d).ramEpoch = s.ramEpoch := rfl
@[simp] theorem State.setCtrl_schedule (s : State) (d : Word) : (s.setCtrl d).schedule = s.schedule := rfl
@[simp] theorem State.setCtrl_elemByte (s : State) (d : Word) (a' : Nat) : (s.setCtrl d).elemByte a' = s.elemByte a' := rfl
@[simp] theorem State.setCtrl_ready (s : State) (d : Word) : (s.setCtrl d).ready = s.ready := rfl
@[simp] theorem State.setCtrl_busy (s : State) (d : Word) : (s.setCtrl d).busy = s.busy := rfl

/-! ### setNcoef -/

@[simp] theorem State.setNcoef_slotsM1 (s : State) (v : BitVec 9) : (s.setNcoef v).slotsM1 = s.slotsM1 := rfl
@[simp] theorem State.setNcoef_maxlenM1 (s : State) (v : BitVec 9) : (s.setNcoef v).maxlenM1 = s.maxlenM1 := rfl
@[simp] theorem State.setNcoef_ieDone (s : State) (v : BitVec 9) : (s.setNcoef v).ieDone = s.ieDone := rfl
@[simp] theorem State.setNcoef_ieErr (s : State) (v : BitVec 9) : (s.setNcoef v).ieErr = s.ieErr := rfl
@[simp] theorem State.setNcoef_done (s : State) (v : BitVec 9) : (s.setNcoef v).done = s.done := rfl
@[simp] theorem State.setNcoef_err (s : State) (v : BitVec 9) : (s.setNcoef v).err = s.err := rfl
@[simp] theorem State.setNcoef_ovr (s : State) (v : BitVec 9) : (s.setNcoef v).ovr = s.ovr := rfl
@[simp] theorem State.setNcoef_result (s : State) (v : BitVec 9) : (s.setNcoef v).result = s.result := rfl
@[simp] theorem State.setNcoef_errCode (s : State) (v : BitVec 9) : (s.setNcoef v).errCode = s.errCode := rfl
@[simp] theorem State.setNcoef_errInfo (s : State) (v : BitVec 9) : (s.setNcoef v).errInfo = s.errInfo := rfl
@[simp] theorem State.setNcoef_ncoef (s : State) (v : BitVec 9) : (s.setNcoef v).ncoef = v := rfl
@[simp] theorem State.setNcoef_npts (s : State) (v : BitVec 9) : (s.setNcoef v).npts = s.npts := rfl
@[simp] theorem State.setNcoef_nslots (s : State) (v : BitVec 9) : (s.setNcoef v).nslots = s.nslots := rfl
@[simp] theorem State.setNcoef_seclen (s : State) (v : BitVec 9) : (s.setNcoef v).seclen = s.seclen := rfl
@[simp] theorem State.setNcoef_tstate (s : State) (v : BitVec 9) : (s.setNcoef v).tstate = s.tstate := rfl
@[simp] theorem State.setNcoef_ram (s : State) (v : BitVec 9) : (s.setNcoef v).ram = s.ram := rfl
@[simp] theorem State.setNcoef_eng (s : State) (v : BitVec 9) : (s.setNcoef v).eng = s.eng := rfl
@[simp] theorem State.setNcoef_icoef (s : State) (v : BitVec 9) : (s.setNcoef v).icoef = s.icoef := rfl
@[simp] theorem State.setNcoef_rngReq (s : State) (v : BitVec 9) : (s.setNcoef v).rngReq = s.rngReq := rfl
@[simp] theorem State.setNcoef_drawAt (s : State) (v : BitVec 9) : (s.setNcoef v).drawAt = s.drawAt := rfl
@[simp] theorem State.setNcoef_rstN (s : State) (v : BitVec 9) : (s.setNcoef v).rstN = s.rstN := rfl
@[simp] theorem State.setNcoef_busResp (s : State) (v : BitVec 9) : (s.setNcoef v).busResp = s.busResp := rfl
@[simp] theorem State.setNcoef_ramEpoch (s : State) (v : BitVec 9) : (s.setNcoef v).ramEpoch = s.ramEpoch := rfl
@[simp] theorem State.setNcoef_schedule (s : State) (v : BitVec 9) : (s.setNcoef v).schedule = s.schedule := rfl
@[simp] theorem State.setNcoef_elemByte (s : State) (v : BitVec 9) (a' : Nat) : (s.setNcoef v).elemByte a' = s.elemByte a' := rfl
@[simp] theorem State.setNcoef_ready (s : State) (v : BitVec 9) : (s.setNcoef v).ready = s.ready := rfl
@[simp] theorem State.setNcoef_busy (s : State) (v : BitVec 9) : (s.setNcoef v).busy = s.busy := rfl

/-! ### setNpts -/

@[simp] theorem State.setNpts_slotsM1 (s : State) (v : BitVec 9) : (s.setNpts v).slotsM1 = s.slotsM1 := rfl
@[simp] theorem State.setNpts_maxlenM1 (s : State) (v : BitVec 9) : (s.setNpts v).maxlenM1 = s.maxlenM1 := rfl
@[simp] theorem State.setNpts_ieDone (s : State) (v : BitVec 9) : (s.setNpts v).ieDone = s.ieDone := rfl
@[simp] theorem State.setNpts_ieErr (s : State) (v : BitVec 9) : (s.setNpts v).ieErr = s.ieErr := rfl
@[simp] theorem State.setNpts_done (s : State) (v : BitVec 9) : (s.setNpts v).done = s.done := rfl
@[simp] theorem State.setNpts_err (s : State) (v : BitVec 9) : (s.setNpts v).err = s.err := rfl
@[simp] theorem State.setNpts_ovr (s : State) (v : BitVec 9) : (s.setNpts v).ovr = s.ovr := rfl
@[simp] theorem State.setNpts_result (s : State) (v : BitVec 9) : (s.setNpts v).result = s.result := rfl
@[simp] theorem State.setNpts_errCode (s : State) (v : BitVec 9) : (s.setNpts v).errCode = s.errCode := rfl
@[simp] theorem State.setNpts_errInfo (s : State) (v : BitVec 9) : (s.setNpts v).errInfo = s.errInfo := rfl
@[simp] theorem State.setNpts_ncoef (s : State) (v : BitVec 9) : (s.setNpts v).ncoef = s.ncoef := rfl
@[simp] theorem State.setNpts_npts (s : State) (v : BitVec 9) : (s.setNpts v).npts = v := rfl
@[simp] theorem State.setNpts_nslots (s : State) (v : BitVec 9) : (s.setNpts v).nslots = s.nslots := rfl
@[simp] theorem State.setNpts_seclen (s : State) (v : BitVec 9) : (s.setNpts v).seclen = s.seclen := rfl
@[simp] theorem State.setNpts_tstate (s : State) (v : BitVec 9) : (s.setNpts v).tstate = s.tstate := rfl
@[simp] theorem State.setNpts_ram (s : State) (v : BitVec 9) : (s.setNpts v).ram = s.ram := rfl
@[simp] theorem State.setNpts_eng (s : State) (v : BitVec 9) : (s.setNpts v).eng = s.eng := rfl
@[simp] theorem State.setNpts_icoef (s : State) (v : BitVec 9) : (s.setNpts v).icoef = s.icoef := rfl
@[simp] theorem State.setNpts_rngReq (s : State) (v : BitVec 9) : (s.setNpts v).rngReq = s.rngReq := rfl
@[simp] theorem State.setNpts_drawAt (s : State) (v : BitVec 9) : (s.setNpts v).drawAt = s.drawAt := rfl
@[simp] theorem State.setNpts_rstN (s : State) (v : BitVec 9) : (s.setNpts v).rstN = s.rstN := rfl
@[simp] theorem State.setNpts_busResp (s : State) (v : BitVec 9) : (s.setNpts v).busResp = s.busResp := rfl
@[simp] theorem State.setNpts_ramEpoch (s : State) (v : BitVec 9) : (s.setNpts v).ramEpoch = s.ramEpoch := rfl
@[simp] theorem State.setNpts_schedule (s : State) (v : BitVec 9) : (s.setNpts v).schedule = s.schedule := rfl
@[simp] theorem State.setNpts_elemByte (s : State) (v : BitVec 9) (a' : Nat) : (s.setNpts v).elemByte a' = s.elemByte a' := rfl
@[simp] theorem State.setNpts_ready (s : State) (v : BitVec 9) : (s.setNpts v).ready = s.ready := rfl
@[simp] theorem State.setNpts_busy (s : State) (v : BitVec 9) : (s.setNpts v).busy = s.busy := rfl

/-! ### setNslots -/

@[simp] theorem State.setNslots_slotsM1 (s : State) (v : BitVec 9) : (s.setNslots v).slotsM1 = s.slotsM1 := rfl
@[simp] theorem State.setNslots_maxlenM1 (s : State) (v : BitVec 9) : (s.setNslots v).maxlenM1 = s.maxlenM1 := rfl
@[simp] theorem State.setNslots_ieDone (s : State) (v : BitVec 9) : (s.setNslots v).ieDone = s.ieDone := rfl
@[simp] theorem State.setNslots_ieErr (s : State) (v : BitVec 9) : (s.setNslots v).ieErr = s.ieErr := rfl
@[simp] theorem State.setNslots_done (s : State) (v : BitVec 9) : (s.setNslots v).done = s.done := rfl
@[simp] theorem State.setNslots_err (s : State) (v : BitVec 9) : (s.setNslots v).err = s.err := rfl
@[simp] theorem State.setNslots_ovr (s : State) (v : BitVec 9) : (s.setNslots v).ovr = s.ovr := rfl
@[simp] theorem State.setNslots_result (s : State) (v : BitVec 9) : (s.setNslots v).result = s.result := rfl
@[simp] theorem State.setNslots_errCode (s : State) (v : BitVec 9) : (s.setNslots v).errCode = s.errCode := rfl
@[simp] theorem State.setNslots_errInfo (s : State) (v : BitVec 9) : (s.setNslots v).errInfo = s.errInfo := rfl
@[simp] theorem State.setNslots_ncoef (s : State) (v : BitVec 9) : (s.setNslots v).ncoef = s.ncoef := rfl
@[simp] theorem State.setNslots_npts (s : State) (v : BitVec 9) : (s.setNslots v).npts = s.npts := rfl
@[simp] theorem State.setNslots_nslots (s : State) (v : BitVec 9) : (s.setNslots v).nslots = v := rfl
@[simp] theorem State.setNslots_seclen (s : State) (v : BitVec 9) : (s.setNslots v).seclen = s.seclen := rfl
@[simp] theorem State.setNslots_tstate (s : State) (v : BitVec 9) : (s.setNslots v).tstate = s.tstate := rfl
@[simp] theorem State.setNslots_ram (s : State) (v : BitVec 9) : (s.setNslots v).ram = s.ram := rfl
@[simp] theorem State.setNslots_eng (s : State) (v : BitVec 9) : (s.setNslots v).eng = s.eng := rfl
@[simp] theorem State.setNslots_icoef (s : State) (v : BitVec 9) : (s.setNslots v).icoef = s.icoef := rfl
@[simp] theorem State.setNslots_rngReq (s : State) (v : BitVec 9) : (s.setNslots v).rngReq = s.rngReq := rfl
@[simp] theorem State.setNslots_drawAt (s : State) (v : BitVec 9) : (s.setNslots v).drawAt = s.drawAt := rfl
@[simp] theorem State.setNslots_rstN (s : State) (v : BitVec 9) : (s.setNslots v).rstN = s.rstN := rfl
@[simp] theorem State.setNslots_busResp (s : State) (v : BitVec 9) : (s.setNslots v).busResp = s.busResp := rfl
@[simp] theorem State.setNslots_ramEpoch (s : State) (v : BitVec 9) : (s.setNslots v).ramEpoch = s.ramEpoch := rfl
@[simp] theorem State.setNslots_schedule (s : State) (v : BitVec 9) : (s.setNslots v).schedule = s.schedule := rfl
@[simp] theorem State.setNslots_elemByte (s : State) (v : BitVec 9) (a' : Nat) : (s.setNslots v).elemByte a' = s.elemByte a' := rfl
@[simp] theorem State.setNslots_ready (s : State) (v : BitVec 9) : (s.setNslots v).ready = s.ready := rfl
@[simp] theorem State.setNslots_busy (s : State) (v : BitVec 9) : (s.setNslots v).busy = s.busy := rfl

/-! ### setSeclen -/

@[simp] theorem State.setSeclen_slotsM1 (s : State) (v : BitVec 17) : (s.setSeclen v).slotsM1 = s.slotsM1 := rfl
@[simp] theorem State.setSeclen_maxlenM1 (s : State) (v : BitVec 17) : (s.setSeclen v).maxlenM1 = s.maxlenM1 := rfl
@[simp] theorem State.setSeclen_ieDone (s : State) (v : BitVec 17) : (s.setSeclen v).ieDone = s.ieDone := rfl
@[simp] theorem State.setSeclen_ieErr (s : State) (v : BitVec 17) : (s.setSeclen v).ieErr = s.ieErr := rfl
@[simp] theorem State.setSeclen_done (s : State) (v : BitVec 17) : (s.setSeclen v).done = s.done := rfl
@[simp] theorem State.setSeclen_err (s : State) (v : BitVec 17) : (s.setSeclen v).err = s.err := rfl
@[simp] theorem State.setSeclen_ovr (s : State) (v : BitVec 17) : (s.setSeclen v).ovr = s.ovr := rfl
@[simp] theorem State.setSeclen_result (s : State) (v : BitVec 17) : (s.setSeclen v).result = s.result := rfl
@[simp] theorem State.setSeclen_errCode (s : State) (v : BitVec 17) : (s.setSeclen v).errCode = s.errCode := rfl
@[simp] theorem State.setSeclen_errInfo (s : State) (v : BitVec 17) : (s.setSeclen v).errInfo = s.errInfo := rfl
@[simp] theorem State.setSeclen_ncoef (s : State) (v : BitVec 17) : (s.setSeclen v).ncoef = s.ncoef := rfl
@[simp] theorem State.setSeclen_npts (s : State) (v : BitVec 17) : (s.setSeclen v).npts = s.npts := rfl
@[simp] theorem State.setSeclen_nslots (s : State) (v : BitVec 17) : (s.setSeclen v).nslots = s.nslots := rfl
@[simp] theorem State.setSeclen_seclen (s : State) (v : BitVec 17) : (s.setSeclen v).seclen = v := rfl
@[simp] theorem State.setSeclen_tstate (s : State) (v : BitVec 17) : (s.setSeclen v).tstate = s.tstate := rfl
@[simp] theorem State.setSeclen_ram (s : State) (v : BitVec 17) : (s.setSeclen v).ram = s.ram := rfl
@[simp] theorem State.setSeclen_eng (s : State) (v : BitVec 17) : (s.setSeclen v).eng = s.eng := rfl
@[simp] theorem State.setSeclen_icoef (s : State) (v : BitVec 17) : (s.setSeclen v).icoef = s.icoef := rfl
@[simp] theorem State.setSeclen_rngReq (s : State) (v : BitVec 17) : (s.setSeclen v).rngReq = s.rngReq := rfl
@[simp] theorem State.setSeclen_drawAt (s : State) (v : BitVec 17) : (s.setSeclen v).drawAt = s.drawAt := rfl
@[simp] theorem State.setSeclen_rstN (s : State) (v : BitVec 17) : (s.setSeclen v).rstN = s.rstN := rfl
@[simp] theorem State.setSeclen_busResp (s : State) (v : BitVec 17) : (s.setSeclen v).busResp = s.busResp := rfl
@[simp] theorem State.setSeclen_ramEpoch (s : State) (v : BitVec 17) : (s.setSeclen v).ramEpoch = s.ramEpoch := rfl
@[simp] theorem State.setSeclen_schedule (s : State) (v : BitVec 17) : (s.setSeclen v).schedule = s.schedule := rfl
@[simp] theorem State.setSeclen_elemByte (s : State) (v : BitVec 17) (a' : Nat) : (s.setSeclen v).elemByte a' = s.elemByte a' := rfl
@[simp] theorem State.setSeclen_ready (s : State) (v : BitVec 17) : (s.setSeclen v).ready = s.ready := rfl
@[simp] theorem State.setSeclen_busy (s : State) (v : BitVec 17) : (s.setSeclen v).busy = s.busy := rfl

/-! ### accept -/

@[simp] theorem State.accept_slotsM1 (s : State) (w : Word) : (s.accept w).slotsM1 = s.slotsM1 := rfl
@[simp] theorem State.accept_maxlenM1 (s : State) (w : Word) : (s.accept w).maxlenM1 = s.maxlenM1 := rfl
@[simp] theorem State.accept_ieDone (s : State) (w : Word) : (s.accept w).ieDone = s.ieDone := rfl
@[simp] theorem State.accept_ieErr (s : State) (w : Word) : (s.accept w).ieErr = s.ieErr := rfl
@[simp] theorem State.accept_done (s : State) (w : Word) : (s.accept w).done = false := rfl
@[simp] theorem State.accept_err (s : State) (w : Word) : (s.accept w).err = s.err := rfl
@[simp] theorem State.accept_ovr (s : State) (w : Word) : (s.accept w).ovr = s.ovr := rfl
@[simp] theorem State.accept_result (s : State) (w : Word) : (s.accept w).result = s.result := rfl
@[simp] theorem State.accept_errCode (s : State) (w : Word) : (s.accept w).errCode = s.errCode := rfl
@[simp] theorem State.accept_errInfo (s : State) (w : Word) : (s.accept w).errInfo = s.errInfo := rfl
@[simp] theorem State.accept_ncoef (s : State) (w : Word) : (s.accept w).ncoef = s.ncoef := rfl
@[simp] theorem State.accept_npts (s : State) (w : Word) : (s.accept w).npts = s.npts := rfl
@[simp] theorem State.accept_nslots (s : State) (w : Word) : (s.accept w).nslots = s.nslots := rfl
@[simp] theorem State.accept_seclen (s : State) (w : Word) : (s.accept w).seclen = s.seclen := rfl
@[simp] theorem State.accept_tstate (s : State) (w : Word) : (s.accept w).tstate = s.tstate := rfl
@[simp] theorem State.accept_ram (s : State) (w : Word) : (s.accept w).ram = s.ram := rfl
@[simp] theorem State.accept_eng (s : State) (w : Word) : (s.accept w).eng = .busy w := rfl
@[simp] theorem State.accept_icoef (s : State) (w : Word) : (s.accept w).icoef = s.icoef := rfl
@[simp] theorem State.accept_rngReq (s : State) (w : Word) : (s.accept w).rngReq = s.rngReq := rfl
@[simp] theorem State.accept_drawAt (s : State) (w : Word) : (s.accept w).drawAt = s.drawAt := rfl
@[simp] theorem State.accept_rstN (s : State) (w : Word) : (s.accept w).rstN = s.rstN := rfl
@[simp] theorem State.accept_busResp (s : State) (w : Word) : (s.accept w).busResp = s.busResp := rfl
@[simp] theorem State.accept_ramEpoch (s : State) (w : Word) : (s.accept w).ramEpoch = s.ramEpoch := rfl
@[simp] theorem State.accept_schedule (s : State) (w : Word) : (s.accept w).schedule = s.schedule := rfl
@[simp] theorem State.accept_elemByte (s : State) (w : Word) (a' : Nat) : (s.accept w).elemByte a' = s.elemByte a' := rfl
@[simp] theorem State.accept_ready (s : State) (w : Word) : (s.accept w).ready = s.ready := rfl

/-! ### dropCmd -/

@[simp] theorem State.dropCmd_slotsM1 (s : State) : (s.dropCmd).slotsM1 = s.slotsM1 := rfl
@[simp] theorem State.dropCmd_maxlenM1 (s : State) : (s.dropCmd).maxlenM1 = s.maxlenM1 := rfl
@[simp] theorem State.dropCmd_ieDone (s : State) : (s.dropCmd).ieDone = s.ieDone := rfl
@[simp] theorem State.dropCmd_ieErr (s : State) : (s.dropCmd).ieErr = s.ieErr := rfl
@[simp] theorem State.dropCmd_done (s : State) : (s.dropCmd).done = s.done := rfl
@[simp] theorem State.dropCmd_err (s : State) : (s.dropCmd).err = s.err := rfl
@[simp] theorem State.dropCmd_ovr (s : State) : (s.dropCmd).ovr = true := rfl
@[simp] theorem State.dropCmd_result (s : State) : (s.dropCmd).result = s.result := rfl
@[simp] theorem State.dropCmd_errCode (s : State) : (s.dropCmd).errCode = s.errCode := rfl
@[simp] theorem State.dropCmd_errInfo (s : State) : (s.dropCmd).errInfo = s.errInfo := rfl
@[simp] theorem State.dropCmd_ncoef (s : State) : (s.dropCmd).ncoef = s.ncoef := rfl
@[simp] theorem State.dropCmd_npts (s : State) : (s.dropCmd).npts = s.npts := rfl
@[simp] theorem State.dropCmd_nslots (s : State) : (s.dropCmd).nslots = s.nslots := rfl
@[simp] theorem State.dropCmd_seclen (s : State) : (s.dropCmd).seclen = s.seclen := rfl
@[simp] theorem State.dropCmd_tstate (s : State) : (s.dropCmd).tstate = s.tstate := rfl
@[simp] theorem State.dropCmd_ram (s : State) : (s.dropCmd).ram = s.ram := rfl
@[simp] theorem State.dropCmd_eng (s : State) : (s.dropCmd).eng = s.eng := rfl
@[simp] theorem State.dropCmd_icoef (s : State) : (s.dropCmd).icoef = s.icoef := rfl
@[simp] theorem State.dropCmd_rngReq (s : State) : (s.dropCmd).rngReq = s.rngReq := rfl
@[simp] theorem State.dropCmd_drawAt (s : State) : (s.dropCmd).drawAt = s.drawAt := rfl
@[simp] theorem State.dropCmd_rstN (s : State) : (s.dropCmd).rstN = s.rstN := rfl
@[simp] theorem State.dropCmd_busResp (s : State) : (s.dropCmd).busResp = s.busResp := rfl
@[simp] theorem State.dropCmd_ramEpoch (s : State) : (s.dropCmd).ramEpoch = s.ramEpoch := rfl
@[simp] theorem State.dropCmd_schedule (s : State) : (s.dropCmd).schedule = s.schedule := rfl
@[simp] theorem State.dropCmd_elemByte (s : State) (a' : Nat) : (s.dropCmd).elemByte a' = s.elemByte a' := rfl
@[simp] theorem State.dropCmd_ready (s : State) : (s.dropCmd).ready = s.ready := rfl
@[simp] theorem State.dropCmd_busy (s : State) : (s.dropCmd).busy = s.busy := rfl

/-! ### complete -/

@[simp] theorem State.complete_slotsM1 (s : State) : (s.complete).slotsM1 = s.slotsM1 := rfl
@[simp] theorem State.complete_maxlenM1 (s : State) : (s.complete).maxlenM1 = s.maxlenM1 := rfl
@[simp] theorem State.complete_ieDone (s : State) : (s.complete).ieDone = s.ieDone := rfl
@[simp] theorem State.complete_ieErr (s : State) : (s.complete).ieErr = s.ieErr := rfl
@[simp] theorem State.complete_done (s : State) : (s.complete).done = true := rfl
@[simp] theorem State.complete_err (s : State) : (s.complete).err = s.err := rfl
@[simp] theorem State.complete_ovr (s : State) : (s.complete).ovr = s.ovr := rfl
@[simp] theorem State.complete_result (s : State) : (s.complete).result = s.result := rfl
@[simp] theorem State.complete_errCode (s : State) : (s.complete).errCode = .ok := rfl
@[simp] theorem State.complete_errInfo (s : State) : (s.complete).errInfo = 0 := rfl
@[simp] theorem State.complete_ncoef (s : State) : (s.complete).ncoef = s.ncoef := rfl
@[simp] theorem State.complete_npts (s : State) : (s.complete).npts = s.npts := rfl
@[simp] theorem State.complete_nslots (s : State) : (s.complete).nslots = s.nslots := rfl
@[simp] theorem State.complete_seclen (s : State) : (s.complete).seclen = s.seclen := rfl
@[simp] theorem State.complete_tstate (s : State) : (s.complete).tstate = s.tstate := rfl
@[simp] theorem State.complete_ram (s : State) : (s.complete).ram = s.ram := rfl
@[simp] theorem State.complete_eng (s : State) : (s.complete).eng = .idle := rfl
@[simp] theorem State.complete_icoef (s : State) : (s.complete).icoef = s.icoef := rfl
@[simp] theorem State.complete_rngReq (s : State) : (s.complete).rngReq = s.rngReq := rfl
@[simp] theorem State.complete_drawAt (s : State) : (s.complete).drawAt = s.drawAt := rfl
@[simp] theorem State.complete_rstN (s : State) : (s.complete).rstN = s.rstN := rfl
@[simp] theorem State.complete_busResp (s : State) : (s.complete).busResp = s.busResp := rfl
@[simp] theorem State.complete_ramEpoch (s : State) : (s.complete).ramEpoch = s.ramEpoch := rfl
@[simp] theorem State.complete_schedule (s : State) : (s.complete).schedule = s.schedule := rfl
@[simp] theorem State.complete_elemByte (s : State) (a' : Nat) : (s.complete).elemByte a' = s.elemByte a' := rfl
@[simp] theorem State.complete_ready (s : State) : (s.complete).ready = s.ready := rfl

/-! ### raise -/

@[simp] theorem State.raise_slotsM1 (s : State) (code : Code) (info : Nat) : (s.raise code info).slotsM1 = s.slotsM1 := rfl
@[simp] theorem State.raise_maxlenM1 (s : State) (code : Code) (info : Nat) : (s.raise code info).maxlenM1 = s.maxlenM1 := rfl
@[simp] theorem State.raise_ieDone (s : State) (code : Code) (info : Nat) : (s.raise code info).ieDone = s.ieDone := rfl
@[simp] theorem State.raise_ieErr (s : State) (code : Code) (info : Nat) : (s.raise code info).ieErr = s.ieErr := rfl
@[simp] theorem State.raise_done (s : State) (code : Code) (info : Nat) : (s.raise code info).done = true := rfl
@[simp] theorem State.raise_err (s : State) (code : Code) (info : Nat) : (s.raise code info).err = true := rfl
@[simp] theorem State.raise_ovr (s : State) (code : Code) (info : Nat) : (s.raise code info).ovr = s.ovr := rfl
@[simp] theorem State.raise_result (s : State) (code : Code) (info : Nat) : (s.raise code info).result = s.result := rfl
@[simp] theorem State.raise_errCode (s : State) (code : Code) (info : Nat) : (s.raise code info).errCode = code := rfl
@[simp] theorem State.raise_errInfo (s : State) (code : Code) (info : Nat) : (s.raise code info).errInfo = BitVec.ofNat 16 info := rfl
@[simp] theorem State.raise_ncoef (s : State) (code : Code) (info : Nat) : (s.raise code info).ncoef = s.ncoef := rfl
@[simp] theorem State.raise_npts (s : State) (code : Code) (info : Nat) : (s.raise code info).npts = s.npts := rfl
@[simp] theorem State.raise_nslots (s : State) (code : Code) (info : Nat) : (s.raise code info).nslots = s.nslots := rfl
@[simp] theorem State.raise_seclen (s : State) (code : Code) (info : Nat) : (s.raise code info).seclen = s.seclen := rfl
@[simp] theorem State.raise_tstate (s : State) (code : Code) (info : Nat) : (s.raise code info).tstate = s.tstate := rfl
@[simp] theorem State.raise_ram (s : State) (code : Code) (info : Nat) : (s.raise code info).ram = s.ram := rfl
@[simp] theorem State.raise_eng (s : State) (code : Code) (info : Nat) : (s.raise code info).eng = .idle := rfl
@[simp] theorem State.raise_icoef (s : State) (code : Code) (info : Nat) : (s.raise code info).icoef = s.icoef := rfl
@[simp] theorem State.raise_rngReq (s : State) (code : Code) (info : Nat) : (s.raise code info).rngReq = s.rngReq := rfl
@[simp] theorem State.raise_drawAt (s : State) (code : Code) (info : Nat) : (s.raise code info).drawAt = s.drawAt := rfl
@[simp] theorem State.raise_rstN (s : State) (code : Code) (info : Nat) : (s.raise code info).rstN = s.rstN := rfl
@[simp] theorem State.raise_busResp (s : State) (code : Code) (info : Nat) : (s.raise code info).busResp = s.busResp := rfl
@[simp] theorem State.raise_ramEpoch (s : State) (code : Code) (info : Nat) : (s.raise code info).ramEpoch = s.ramEpoch := rfl
@[simp] theorem State.raise_schedule (s : State) (code : Code) (info : Nat) : (s.raise code info).schedule = s.schedule := rfl
@[simp] theorem State.raise_elemByte (s : State) (code : Code) (info : Nat) (a' : Nat) : (s.raise code info).elemByte a' = s.elemByte a' := rfl
@[simp] theorem State.raise_ready (s : State) (code : Code) (info : Nat) : (s.raise code info).ready = s.ready := rfl

/-! ### ackStatus -/

@[simp] theorem State.ackStatus_slotsM1 (s : State) (d : Word) : (s.ackStatus d).slotsM1 = s.slotsM1 := rfl
@[simp] theorem State.ackStatus_maxlenM1 (s : State) (d : Word) : (s.ackStatus d).maxlenM1 = s.maxlenM1 := rfl
@[simp] theorem State.ackStatus_ieDone (s : State) (d : Word) : (s.ackStatus d).ieDone = s.ieDone := rfl
@[simp] theorem State.ackStatus_ieErr (s : State) (d : Word) : (s.ackStatus d).ieErr = s.ieErr := rfl
@[simp] theorem State.ackStatus_done (s : State) (d : Word) : (s.ackStatus d).done = (s.done && !d.getLsbD 2) := rfl
@[simp] theorem State.ackStatus_err (s : State) (d : Word) : (s.ackStatus d).err = (s.err && !d.getLsbD 3) := rfl
@[simp] theorem State.ackStatus_ovr (s : State) (d : Word) : (s.ackStatus d).ovr = (s.ovr && !d.getLsbD 4) := rfl
@[simp] theorem State.ackStatus_result (s : State) (d : Word) : (s.ackStatus d).result = s.result := rfl
@[simp] theorem State.ackStatus_errCode (s : State) (d : Word) : (s.ackStatus d).errCode = s.errCode := rfl
@[simp] theorem State.ackStatus_errInfo (s : State) (d : Word) : (s.ackStatus d).errInfo = s.errInfo := rfl
@[simp] theorem State.ackStatus_ncoef (s : State) (d : Word) : (s.ackStatus d).ncoef = s.ncoef := rfl
@[simp] theorem State.ackStatus_npts (s : State) (d : Word) : (s.ackStatus d).npts = s.npts := rfl
@[simp] theorem State.ackStatus_nslots (s : State) (d : Word) : (s.ackStatus d).nslots = s.nslots := rfl
@[simp] theorem State.ackStatus_seclen (s : State) (d : Word) : (s.ackStatus d).seclen = s.seclen := rfl
@[simp] theorem State.ackStatus_tstate (s : State) (d : Word) : (s.ackStatus d).tstate = s.tstate := rfl
@[simp] theorem State.ackStatus_ram (s : State) (d : Word) : (s.ackStatus d).ram = s.ram := rfl
@[simp] theorem State.ackStatus_eng (s : State) (d : Word) : (s.ackStatus d).eng = s.eng := rfl
@[simp] theorem State.ackStatus_icoef (s : State) (d : Word) : (s.ackStatus d).icoef = s.icoef := rfl
@[simp] theorem State.ackStatus_rngReq (s : State) (d : Word) : (s.ackStatus d).rngReq = s.rngReq := rfl
@[simp] theorem State.ackStatus_drawAt (s : State) (d : Word) : (s.ackStatus d).drawAt = s.drawAt := rfl
@[simp] theorem State.ackStatus_rstN (s : State) (d : Word) : (s.ackStatus d).rstN = s.rstN := rfl
@[simp] theorem State.ackStatus_busResp (s : State) (d : Word) : (s.ackStatus d).busResp = s.busResp := rfl
@[simp] theorem State.ackStatus_ramEpoch (s : State) (d : Word) : (s.ackStatus d).ramEpoch = s.ramEpoch := rfl
@[simp] theorem State.ackStatus_schedule (s : State) (d : Word) : (s.ackStatus d).schedule = s.schedule := rfl
@[simp] theorem State.ackStatus_elemByte (s : State) (d : Word) (a' : Nat) : (s.ackStatus d).elemByte a' = s.elemByte a' := rfl
@[simp] theorem State.ackStatus_ready (s : State) (d : Word) : (s.ackStatus d).ready = s.ready := rfl
@[simp] theorem State.ackStatus_busy (s : State) (d : Word) : (s.ackStatus d).busy = s.busy := rfl

/-! ### takeReset -/

@[simp] theorem State.takeReset_slotsM1 (s : State) : (s.takeReset).slotsM1 = s.slotsM1 := rfl
@[simp] theorem State.takeReset_maxlenM1 (s : State) : (s.takeReset).maxlenM1 = s.maxlenM1 := rfl
@[simp] theorem State.takeReset_ieDone (s : State) : (s.takeReset).ieDone = false := rfl
@[simp] theorem State.takeReset_ieErr (s : State) : (s.takeReset).ieErr = false := rfl
@[simp] theorem State.takeReset_done (s : State) : (s.takeReset).done = false := rfl
@[simp] theorem State.takeReset_err (s : State) : (s.takeReset).err = false := rfl
@[simp] theorem State.takeReset_ovr (s : State) : (s.takeReset).ovr = false := rfl
@[simp] theorem State.takeReset_result (s : State) : (s.takeReset).result = 0 := rfl
@[simp] theorem State.takeReset_errCode (s : State) : (s.takeReset).errCode = .ok := rfl
@[simp] theorem State.takeReset_errInfo (s : State) : (s.takeReset).errInfo = 0 := rfl
@[simp] theorem State.takeReset_ncoef (s : State) : (s.takeReset).ncoef = 0 := rfl
@[simp] theorem State.takeReset_npts (s : State) : (s.takeReset).npts = 0 := rfl
@[simp] theorem State.takeReset_nslots (s : State) : (s.takeReset).nslots = 0 := rfl
@[simp] theorem State.takeReset_seclen (s : State) : (s.takeReset).seclen = 0 := rfl
@[simp] theorem State.takeReset_tstate (s : State) : (s.takeReset).tstate = .uninitialized := rfl
@[simp] theorem State.takeReset_ram (s : State) : (s.takeReset).ram = [] := rfl
@[simp] theorem State.takeReset_eng (s : State) : (s.takeReset).eng = .idle := rfl
@[simp] theorem State.takeReset_icoef (s : State) : (s.takeReset).icoef = icoefZero := rfl
@[simp] theorem State.takeReset_rngReq (s : State) : (s.takeReset).rngReq = .idle := rfl
@[simp] theorem State.takeReset_drawAt (s : State) : (s.takeReset).drawAt = none := rfl
@[simp] theorem State.takeReset_rstN (s : State) : (s.takeReset).rstN = s.rstN := rfl
@[simp] theorem State.takeReset_busResp (s : State) : (s.takeReset).busResp = none := rfl
@[simp] theorem State.takeReset_ramEpoch (s : State) : (s.takeReset).ramEpoch = s.ramEpoch + 1 := rfl
@[simp] theorem State.takeReset_schedule (s : State) : (s.takeReset).schedule = s.schedule := rfl

theorem State.setXs_eq (s : State) (bs : List Byte) : s.setXs bs = s.setElems (Loc.xs 0).offset bs := rfl
@[simp] theorem State.setXs_slotsM1 (s : State) (bs : List Byte) : (s.setXs bs).slotsM1 = s.slotsM1 := rfl
@[simp] theorem State.setXs_maxlenM1 (s : State) (bs : List Byte) : (s.setXs bs).maxlenM1 = s.maxlenM1 := rfl
@[simp] theorem State.setXs_ieDone (s : State) (bs : List Byte) : (s.setXs bs).ieDone = s.ieDone := rfl
@[simp] theorem State.setXs_ieErr (s : State) (bs : List Byte) : (s.setXs bs).ieErr = s.ieErr := rfl
@[simp] theorem State.setXs_done (s : State) (bs : List Byte) : (s.setXs bs).done = s.done := rfl
@[simp] theorem State.setXs_err (s : State) (bs : List Byte) : (s.setXs bs).err = s.err := rfl
@[simp] theorem State.setXs_ovr (s : State) (bs : List Byte) : (s.setXs bs).ovr = s.ovr := rfl
@[simp] theorem State.setXs_result (s : State) (bs : List Byte) : (s.setXs bs).result = s.result := rfl
@[simp] theorem State.setXs_errCode (s : State) (bs : List Byte) : (s.setXs bs).errCode = s.errCode := rfl
@[simp] theorem State.setXs_errInfo (s : State) (bs : List Byte) : (s.setXs bs).errInfo = s.errInfo := rfl
@[simp] theorem State.setXs_ncoef (s : State) (bs : List Byte) : (s.setXs bs).ncoef = s.ncoef := rfl
@[simp] theorem State.setXs_npts (s : State) (bs : List Byte) : (s.setXs bs).npts = s.npts := rfl
@[simp] theorem State.setXs_nslots (s : State) (bs : List Byte) : (s.setXs bs).nslots = s.nslots := rfl
@[simp] theorem State.setXs_seclen (s : State) (bs : List Byte) : (s.setXs bs).seclen = s.seclen := rfl
@[simp] theorem State.setXs_tstate (s : State) (bs : List Byte) : (s.setXs bs).tstate = s.tstate := rfl
@[simp] theorem State.setXs_ram (s : State) (bs : List Byte) : (s.setXs bs).ram = Memory.writeElems s.ram (Loc.xs 0).offset bs := rfl
@[simp] theorem State.setXs_eng (s : State) (bs : List Byte) : (s.setXs bs).eng = s.eng := rfl
@[simp] theorem State.setXs_icoef (s : State) (bs : List Byte) : (s.setXs bs).icoef = s.icoef := rfl
@[simp] theorem State.setXs_rngReq (s : State) (bs : List Byte) : (s.setXs bs).rngReq = s.rngReq := rfl
@[simp] theorem State.setXs_drawAt (s : State) (bs : List Byte) : (s.setXs bs).drawAt = s.drawAt := rfl
@[simp] theorem State.setXs_rstN (s : State) (bs : List Byte) : (s.setXs bs).rstN = s.rstN := rfl
@[simp] theorem State.setXs_busResp (s : State) (bs : List Byte) : (s.setXs bs).busResp = s.busResp := rfl
@[simp] theorem State.setXs_ramEpoch (s : State) (bs : List Byte) : (s.setXs bs).ramEpoch = s.ramEpoch := rfl
@[simp] theorem State.setXs_schedule (s : State) (bs : List Byte) : (s.setXs bs).schedule = s.schedule := rfl
theorem State.setYs_eq (s : State) (bs : List Byte) : s.setYs bs = s.setElems (Loc.ys 0).offset bs := rfl
@[simp] theorem State.setYs_slotsM1 (s : State) (bs : List Byte) : (s.setYs bs).slotsM1 = s.slotsM1 := rfl
@[simp] theorem State.setYs_maxlenM1 (s : State) (bs : List Byte) : (s.setYs bs).maxlenM1 = s.maxlenM1 := rfl
@[simp] theorem State.setYs_ieDone (s : State) (bs : List Byte) : (s.setYs bs).ieDone = s.ieDone := rfl
@[simp] theorem State.setYs_ieErr (s : State) (bs : List Byte) : (s.setYs bs).ieErr = s.ieErr := rfl
@[simp] theorem State.setYs_done (s : State) (bs : List Byte) : (s.setYs bs).done = s.done := rfl
@[simp] theorem State.setYs_err (s : State) (bs : List Byte) : (s.setYs bs).err = s.err := rfl
@[simp] theorem State.setYs_ovr (s : State) (bs : List Byte) : (s.setYs bs).ovr = s.ovr := rfl
@[simp] theorem State.setYs_result (s : State) (bs : List Byte) : (s.setYs bs).result = s.result := rfl
@[simp] theorem State.setYs_errCode (s : State) (bs : List Byte) : (s.setYs bs).errCode = s.errCode := rfl
@[simp] theorem State.setYs_errInfo (s : State) (bs : List Byte) : (s.setYs bs).errInfo = s.errInfo := rfl
@[simp] theorem State.setYs_ncoef (s : State) (bs : List Byte) : (s.setYs bs).ncoef = s.ncoef := rfl
@[simp] theorem State.setYs_npts (s : State) (bs : List Byte) : (s.setYs bs).npts = s.npts := rfl
@[simp] theorem State.setYs_nslots (s : State) (bs : List Byte) : (s.setYs bs).nslots = s.nslots := rfl
@[simp] theorem State.setYs_seclen (s : State) (bs : List Byte) : (s.setYs bs).seclen = s.seclen := rfl
@[simp] theorem State.setYs_tstate (s : State) (bs : List Byte) : (s.setYs bs).tstate = s.tstate := rfl
@[simp] theorem State.setYs_ram (s : State) (bs : List Byte) : (s.setYs bs).ram = Memory.writeElems s.ram (Loc.ys 0).offset bs := rfl
@[simp] theorem State.setYs_eng (s : State) (bs : List Byte) : (s.setYs bs).eng = s.eng := rfl
@[simp] theorem State.setYs_icoef (s : State) (bs : List Byte) : (s.setYs bs).icoef = s.icoef := rfl
@[simp] theorem State.setYs_rngReq (s : State) (bs : List Byte) : (s.setYs bs).rngReq = s.rngReq := rfl
@[simp] theorem State.setYs_drawAt (s : State) (bs : List Byte) : (s.setYs bs).drawAt = s.drawAt := rfl
@[simp] theorem State.setYs_rstN (s : State) (bs : List Byte) : (s.setYs bs).rstN = s.rstN := rfl
@[simp] theorem State.setYs_busResp (s : State) (bs : List Byte) : (s.setYs bs).busResp = s.busResp := rfl
@[simp] theorem State.setYs_ramEpoch (s : State) (bs : List Byte) : (s.setYs bs).ramEpoch = s.ramEpoch := rfl
@[simp] theorem State.setYs_schedule (s : State) (bs : List Byte) : (s.setYs bs).schedule = s.schedule := rfl
theorem State.setSecret_eq (s : State) (bs : List Byte) : s.setSecret bs = s.setElems (Loc.secret 0).offset bs := rfl
@[simp] theorem State.setSecret_slotsM1 (s : State) (bs : List Byte) : (s.setSecret bs).slotsM1 = s.slotsM1 := rfl
@[simp] theorem State.setSecret_maxlenM1 (s : State) (bs : List Byte) : (s.setSecret bs).maxlenM1 = s.maxlenM1 := rfl
@[simp] theorem State.setSecret_ieDone (s : State) (bs : List Byte) : (s.setSecret bs).ieDone = s.ieDone := rfl
@[simp] theorem State.setSecret_ieErr (s : State) (bs : List Byte) : (s.setSecret bs).ieErr = s.ieErr := rfl
@[simp] theorem State.setSecret_done (s : State) (bs : List Byte) : (s.setSecret bs).done = s.done := rfl
@[simp] theorem State.setSecret_err (s : State) (bs : List Byte) : (s.setSecret bs).err = s.err := rfl
@[simp] theorem State.setSecret_ovr (s : State) (bs : List Byte) : (s.setSecret bs).ovr = s.ovr := rfl
@[simp] theorem State.setSecret_result (s : State) (bs : List Byte) : (s.setSecret bs).result = s.result := rfl
@[simp] theorem State.setSecret_errCode (s : State) (bs : List Byte) : (s.setSecret bs).errCode = s.errCode := rfl
@[simp] theorem State.setSecret_errInfo (s : State) (bs : List Byte) : (s.setSecret bs).errInfo = s.errInfo := rfl
@[simp] theorem State.setSecret_ncoef (s : State) (bs : List Byte) : (s.setSecret bs).ncoef = s.ncoef := rfl
@[simp] theorem State.setSecret_npts (s : State) (bs : List Byte) : (s.setSecret bs).npts = s.npts := rfl
@[simp] theorem State.setSecret_nslots (s : State) (bs : List Byte) : (s.setSecret bs).nslots = s.nslots := rfl
@[simp] theorem State.setSecret_seclen (s : State) (bs : List Byte) : (s.setSecret bs).seclen = s.seclen := rfl
@[simp] theorem State.setSecret_tstate (s : State) (bs : List Byte) : (s.setSecret bs).tstate = s.tstate := rfl
@[simp] theorem State.setSecret_ram (s : State) (bs : List Byte) : (s.setSecret bs).ram = Memory.writeElems s.ram (Loc.secret 0).offset bs := rfl
@[simp] theorem State.setSecret_eng (s : State) (bs : List Byte) : (s.setSecret bs).eng = s.eng := rfl
@[simp] theorem State.setSecret_icoef (s : State) (bs : List Byte) : (s.setSecret bs).icoef = s.icoef := rfl
@[simp] theorem State.setSecret_rngReq (s : State) (bs : List Byte) : (s.setSecret bs).rngReq = s.rngReq := rfl
@[simp] theorem State.setSecret_drawAt (s : State) (bs : List Byte) : (s.setSecret bs).drawAt = s.drawAt := rfl
@[simp] theorem State.setSecret_rstN (s : State) (bs : List Byte) : (s.setSecret bs).rstN = s.rstN := rfl
@[simp] theorem State.setSecret_busResp (s : State) (bs : List Byte) : (s.setSecret bs).busResp = s.busResp := rfl
@[simp] theorem State.setSecret_ramEpoch (s : State) (bs : List Byte) : (s.setSecret bs).ramEpoch = s.ramEpoch := rfl
@[simp] theorem State.setSecret_schedule (s : State) (bs : List Byte) : (s.setSecret bs).schedule = s.schedule := rfl

@[simp] theorem State.complete_busy (s : State) : s.complete.busy = false := rfl
@[simp] theorem State.raise_busy (s : State) (code : Code) (info : Nat) : (s.raise code info).busy = false := rfl
@[simp] theorem State.accept_busy (s : State) (w : Word) : (s.accept w).busy = true := rfl
@[simp] theorem State.takeReset_busy (s : State) : s.takeReset.busy = false := rfl

end Sys2Proof.Machine
end

