-- ==== Sys2Proof/Laws/Commands.lean ====
section
/-! SUPPORT. One lemma for each shared operation of the commands that says everything it can do. -/

namespace Sys2Proof.Machine

/-! ### collect -/

theorem collect_ok_length {f : Nat → Except Nat Byte} {l : List Nat} {bs : List Byte}
    (h : collect f l = .ok bs) : bs.length = l.length := by
  induction l generalizing bs with
  | nil => simp [collect] at h; simp [← h]
  | cons i rest ih =>
    simp only [collect] at h
    split at h
    · cases h
    · split at h
      · cases h
      · cases h
        rename_i hr
        simp [ih hr]

theorem collect_ok_get {f : Nat → Except Nat Byte} {l : List Nat} {bs : List Byte}
    (h : collect f l = .ok bs) {i : Nat} (hl : i < l.length) (hb : i < bs.length) : f l[i] = .ok bs[i] := by
  induction l generalizing bs i with
  | nil => simp at hl
  | cons j rest ih =>
    simp only [collect] at h
    split at h
    · cases h
    · split at h
      · cases h
      · cases h
        rename_i hj _ _ hr
        cases i with
        | zero => simpa using hj
        | succ i => simpa using ih hr (by simpa using hl) (by simpa using hb)

theorem collect_ok_of_all {f : Nat → Except Nat Byte} {l : List Nat} (h : ∀ i ∈ l, ∃ b, f i = .ok b) :
    ∃ bs, collect f l = .ok bs := by
  induction l with
  | nil => exact ⟨[], rfl⟩
  | cons i rest ih =>
    obtain ⟨b, hb⟩ := h i (by simp)
    obtain ⟨bs, hbs⟩ := ih fun j hj => h j (by simp [hj])
    exact ⟨b :: bs, by simp [collect, hb, hbs]⟩

/-! ### hornerLoop and hornerEval -/

/-- With x not 0 no step reads logs[0] (R143). -/
theorem hornerLoop_ok_of_ne_zero (exps logs : Table) {x : Byte} (c : Nat → Byte) (hx : x ≠ 0) (n : Nat)
    (fx : Byte) : ∃ v, hornerLoop exps logs x c n fx = .ok v := by
  induction n generalizing fx with
  | zero => exact ⟨fx, rfl⟩
  | succ n ih =>
    simp only [hornerLoop, hx, if_false]
    split <;> exact ih _

/-- The loop reads the coefficients below `n` alone. -/
theorem hornerLoop_congr (exps logs : Table) (x : Byte) {c c' : Nat → Byte} {n : Nat}
    (h : ∀ k, k < n → c k = c' k) (fx : Byte) :
    hornerLoop exps logs x c n fx = hornerLoop exps logs x c' n fx := by
  induction n generalizing fx with
  | zero => rfl
  | succ n ih =>
    have hn := h n (by omega)
    have hr : ∀ k, k < n → c k = c' k := fun k hk => h k (by omega)
    simp only [hornerLoop, hn, ih hr]

/-! ### finishResult -/

/-- A command whose only output is RESULT: a success that writes RESULT alone, or LOG_ZERO. -/
theorem finishResult_cases (r : Except Nat Byte) (s : State) :
    (∃ v, r = .ok v ∧ finishResult r s = (s.setResult v).complete) ∨
      ∃ k, r = .error k ∧ finishResult r s = s.raise .logZero k := by
  cases r with
  | ok v => exact .inl ⟨v, rfl, rfl⟩
  | error k => exact .inr ⟨k, rfl, rfl⟩

/-! ### ICOEF -/

theorem icoefAt_icoefSet (coeffs : Vector Byte 255) (k : Nat) {i : Nat} (b : Byte) (h : i < 255) :
    icoefAt (icoefSet coeffs k b) i = if k = i then b else icoefAt coeffs i := by
  simp only [icoefAt, icoefSet]
  by_cases hk : k = i
  · subst hk
    simp [h]
  · simp [hk]

/-- ICOEF has no entry from 255 on (R40). -/
theorem icoefAt_of_le (coeffs : Vector Byte 255) {i : Nat} (h : 255 ≤ i) : icoefAt coeffs i = 0 := by
  simp [icoefAt, h]

@[simp] theorem icoefAt_icoefZero (i : Nat) : icoefAt icoefZero i = 0 := by
  simp only [icoefAt, icoefZero]
  by_cases h : i < 255 <;> simp [h]

/-! ### GENPTS -/

/-- What an answer to the outstanding draw can do: nothing but drop the request, keep a coefficient, or end GENPTS with
RNG. -/
theorem takeDraw_cases (a : RngAnswer) (s : State) :
    ((s.drawAt = none ∨ a = .byte 0) ∧ takeDraw a s = s.dropRequest) ∨
    (∃ k b, s.drawAt = some k ∧ a = .byte b ∧ b ≠ 0 ∧ takeDraw a s = s.dropRequest.keepDraw k b) ∨
    (∃ k, s.drawAt = some k ∧ a = .fail ∧ takeDraw a s = s.dropRequest.clearDraws.raise .rng k) := by
  cases h : s.drawAt with
  | none => exact .inl ⟨.inl rfl, by simp only [takeDraw, h]⟩
  | some k =>
    cases a with
    | fail => exact .inr (.inr ⟨k, rfl, rfl, by simp only [takeDraw, h]⟩)
    | byte b =>
      by_cases hb : b = 0
      · exact .inl ⟨.inr (by rw [hb]), by simp only [takeDraw, h, if_pos hb]⟩
      · exact .inr (.inl ⟨k, b, rfl, rfl, hb, by simp only [takeDraw, h, if_neg hb]⟩)

/-- An answer always drops the request (R212). -/
@[simp] theorem takeDraw_rngReq (a : RngAnswer) (s : State) : (takeDraw a s).rngReq = .idle := by
  rcases takeDraw_cases a s with ⟨-, h⟩ | ⟨k, b, -, -, -, h⟩ | ⟨k, -, -, h⟩ <;> rw [h] <;> rfl

/-- Where GENPTS's points are written: its outputs, or (never; x is not 0) LOG_ZERO. -/
theorem finishGenpts_ok (exps logs : Table) (numShares threshold : Byte) (s : State) :
    ∃ ys, collect (fun i => hornerEval exps logs (BitVec.ofNat 8 (i + 1)) (icoefAt s.icoef) threshold.toNat)
        (List.range numShares.toNat) = .ok ys ∧
      finishGenpts exps logs numShares threshold s =
        (((s.setXs ((List.range numShares.toNat).map fun i => BitVec.ofNat 8 (i + 1))).setYs ys).setNpts
          (numShares.setWidth 9)).clearDraws.complete := by
  have hall : ∀ i ∈ List.range numShares.toNat,
      ∃ b, hornerEval exps logs (BitVec.ofNat 8 (i + 1)) (icoefAt s.icoef) threshold.toNat = .ok b := by
    intro i hi
    refine hornerLoop_ok_of_ne_zero exps logs _ ?_ _ _
    have h1 := List.mem_range.1 hi
    have h2 := numShares.isLt
    intro h
    have := congrArg BitVec.toNat h
    simp at this
    omega
  obtain ⟨ys, hys⟩ := collect_ok_of_all hall
  exact ⟨ys, hys, by simp only [finishGenpts, hys]⟩

/-- What a GENPTS in the loop of R151 can do at an engine turn: wait, make the next request, or write its points. -/
theorem goOnGenpts_cases (exps logs : Table) (n thr : Byte) (k : Nat) (s : State) :
    (s.rngReq = .pending ∧ goOnGenpts exps logs n thr k s = s) ∨
    (s.rngReq = .idle ∧ k < thr.toNat ∧ goOnGenpts exps logs n thr k s = s.request) ∨
    (s.rngReq = .idle ∧ thr.toNat ≤ k ∧ goOnGenpts exps logs n thr k s = finishGenpts exps logs n thr s) := by
  cases h : s.rngReq with
  | pending => exact .inl ⟨rfl, by simp only [goOnGenpts, h]⟩
  | idle =>
    by_cases hk : k < thr.toNat
    · exact .inr (.inl ⟨rfl, hk, by simp only [goOnGenpts, h, if_pos hk]⟩)
    · exact .inr (.inr ⟨rfl, by omega, by simp only [goOnGenpts, h, if_neg hk]⟩)

/-! ### Slots -/

/-- The first slot error is that of a slot in the list, and no code of it is OK. -/
theorem firstSlotError_some {s : State} {l : List Nat} {code : Code} {slot : Nat}
    (h : firstSlotError s l = some (code, slot)) : slot ∈ l ∧ slotError s slot = some code := by
  induction l with
  | nil => cases h
  | cons u rest ih =>
    simp only [firstSlotError] at h
    split at h
    · cases h
      exact ⟨by simp, by assumption⟩
    · obtain ⟨h1, h2⟩ := ih h
      exact ⟨by simp [h1], h2⟩

theorem firstSlotError_none {s : State} {l : List Nat} (h : firstSlotError s l = none) :
    ∀ u ∈ l, slotError s u = none := by
  induction l with
  | nil => simp
  | cons u rest ih =>
    simp only [firstSlotError] at h
    split at h
    · cases h
    · intro v hv
      rcases List.mem_cons.1 hv with rfl | hv
      · assumption
      · exact ih h v hv

theorem slotError_code {s : State} {slot : Nat} {code : Code} (h : slotError s slot = some code) :
    code = .shareFormat ∨ code = .shareId ∨ code = .lenRange := by
  simp only [slotError] at h
  split at h
  · cases h; simp
  · split at h
    · cases h; simp
    · split at h
      · cases h; simp
      · cases h

/-- What the end of COMBINE can do (R179, R180). -/
theorem finishCombine_cases (exps logs : Table) (pt : Byte) (unique : List Nat) (s : State) :
    (∃ u, firstMismatch s (payloadLength s unique) unique = some u ∧
      finishCombine exps logs pt unique s = s.raise .lenMismatch u) ∨
    (∃ k, finishCombine exps logs pt unique s = s.raise .logZero k) ∨
    (∃ bytes, combineBytes exps logs pt s unique (payloadLength s unique) = .ok bytes ∧
      finishCombine exps logs pt unique s =
        ((s.setSecret bytes).setSeclen (BitVec.ofNat 17 (payloadLength s unique))).complete) := by
  unfold finishCombine
  cases firstMismatch s (payloadLength s unique) unique with
  | some u => exact .inl ⟨u, rfl, rfl⟩
  | none =>
    cases h : combineBytes exps logs pt s unique (payloadLength s unique) with
    | error k => exact .inr (.inl ⟨k, rfl⟩)
    | ok bytes => exact .inr (.inr ⟨bytes, rfl, rfl⟩)

end Sys2Proof.Machine
end

