-- ==== Sys2Proof/Laws/Tables.lean ====
section
/-! SUPPORT. The tables R111's loop builds are those R112 lists, and they pass the self-check of R114. -/

namespace Sys2Proof.Machine

theorem builtExps_toList : builtTables.1.toList = expsListing := by decide +kernel

theorem builtLogs_toList : builtTables.2.toList = logsListing := by decide +kernel

@[simp] theorem builtTables_fst : builtTables.1 = expsTable := by
  apply Vector.toList_inj.1
  rw [builtExps_toList]
  simp [expsTable, Vector.toList]

@[simp] theorem builtTables_snd : builtTables.2 = logsTable := by
  apply Vector.toList_inj.1
  rw [builtLogs_toList]
  simp [logsTable, Vector.toList]

theorem selfCheck_listed : selfCheck expsTable logsTable = true := by decide +kernel

end Sys2Proof.Machine
end

