-- ==== Sys2Proof/Laws/Exec.lean ====
section
/-! SUPPORT. What each command and each step can do, said once (inversion lemmas): the invariants are derived from
these. -/

namespace Sys2Proof.Machine

/-- How a word ends when it runs, by what the decoder reads from it. -/
inductive Ends (cmd : Except Verdict Instr) (s : State) : State → Prop where
  /-- an error completion of a word other than a GENPTS; INFO is 0 with a code that qualifies no index -/
  | failed (code : Code) (info : Nat) (hcode : code ≠ .ok) (hinfo : code.hasIndex = false → info = 0)
      (hcmd : ∀ secret n thr, cmd ≠ .ok (.genpts secret n thr)) : Ends cmd s (s.raise code info)
  /-- GENPTS turned away by a check: ICOEF cleared -/
  | rejected (code : Code) (hcode : code ≠ .ok) (hindex : code.hasIndex = false)
      (hcmd : ∃ secret n thr, cmd = .ok (.genpts secret n thr)) : Ends cmd s (s.clearDraws.raise code 0)
  /-- NOP -/
  | nop (hcmd : cmd = .ok .nop) : Ends cmd s s.complete
  /-- INIT -/
  | init (hcmd : cmd = .ok .init) : Ends cmd s (s.setTables (.ready expsTable logsTable)).complete
  /-- TRESET -/
  | treset (hcmd : cmd = .ok .treset) : Ends cmd s (s.setTables .uninitialized).complete
  /-- MUL, EVAL, LAGR -/
  | result (v : Byte)
      (hcmd : (∃ a b, cmd = .ok (.mul a b)) ∨ (∃ x, cmd = .ok (.eval x)) ∨ ∃ pt, cmd = .ok (.lagr pt)) :
      Ends cmd s (s.setResult v).complete
  /-- GENPTS begins: the first request -/
  | starts (secret n thr : Byte) (hcmd : cmd = .ok (.genpts secret n thr)) (hready : s.ready = true)
      (hdraw : s.drawAt = none) (hcheck : genptsCheck n thr = none) : Ends cmd s (s.startDraws secret).request
  /-- GENPTS makes the next request -/
  | requests (secret n thr : Byte) (k : Nat) (hcmd : cmd = .ok (.genpts secret n thr)) (hdraw : s.drawAt = some k)
      (hk : k < thr.toNat) (hreq : s.rngReq = .idle) : Ends cmd s s.request
  /-- GENPTS with a request outstanding: nothing -/
  | waits (secret n thr : Byte) (k : Nat) (hcmd : cmd = .ok (.genpts secret n thr)) (hdraw : s.drawAt = some k)
      (hreq : s.rngReq = .pending) : Ends cmd s s
  /-- GENPTS with its points written -/
  | points (secret n thr : Byte) (k : Nat) (ys : List Byte) (hcmd : cmd = .ok (.genpts secret n thr))
      (hdraw : s.drawAt = some k) (hk : thr.toNat ≤ k) (hreq : s.rngReq = .idle) (hlen : ys.length = n.toNat) :
      Ends cmd s ((((s.setXs ((List.range n.toNat).map fun i => BitVec.ofNat 8 (i + 1))).setYs ys).setNpts
        (n.setWidth 9)).clearDraws.complete)
  /-- COMBINE with the secret written -/
  | secret (bytes : List Byte) (hlen : bytes.length ≤ s.maxlen) (hcmd : ∃ pt, cmd = .ok (.combine pt)) :
      Ends cmd s ((s.setSecret bytes).setSeclen (BitVec.ofNat 17 bytes.length)).complete

theorem execNop_ends (s : State) : ∃ t, execNop s = .next t ∧ Ends (.ok .nop) s t := ⟨_, rfl, .nop rfl⟩

theorem execInit_eq (s : State) :
    execInit s = .next (s.setTables (.ready expsTable logsTable)).complete := by
  simp [execInit, finishInit, selfCheck_listed]

theorem execTreset_ends (s : State) : ∃ t, execTreset s = .next t ∧ Ends (.ok .treset) s t :=
  ⟨_, rfl, .treset rfl⟩

theorem execMul_ends (a b : Byte) (s : State) : ∃ t, execMul a b s = .next t ∧ Ends (.ok (.mul a b)) s t := by
  unfold execMul
  split
  · exact ⟨_, rfl, .failed .notReady 0 (by decide) (fun _ => rfl) nofun⟩
  · exact ⟨_, rfl, .result _ (.inl ⟨a, b, rfl⟩)⟩

theorem finishResult_ends {cmd : Except Verdict Instr} (r : Except Nat Byte) (s : State)
    (hcmd : (∃ a b, cmd = .ok (.mul a b)) ∨ (∃ x, cmd = .ok (.eval x)) ∨ ∃ pt, cmd = .ok (.lagr pt)) :
    Ends cmd s (finishResult r s) := by
  rcases finishResult_cases r s with ⟨v, -, h⟩ | ⟨k, -, h⟩ <;> rw [h]
  · exact .result v hcmd
  · exact .failed .logZero k (by decide) (by simp [Code.hasIndex])
      (by rcases hcmd with ⟨a, b, rfl⟩ | ⟨x, rfl⟩ | ⟨pt, rfl⟩ <;> nofun)

theorem execEval_ends (x : Byte) (s : State) : ∃ t, execEval x s = .next t ∧ Ends (.ok (.eval x)) s t := by
  unfold execEval
  split
  · exact ⟨_, rfl, .failed .notReady 0 (by decide) (fun _ => rfl) nofun⟩
  · split
    · exact ⟨_, rfl, .failed .count 0 (by decide) (fun _ => rfl) nofun⟩
    · exact ⟨_, rfl, finishResult_ends _ s (.inr (.inl ⟨x, rfl⟩))⟩

theorem execLagr_ends (pt : Byte) (s : State) : ∃ t, execLagr pt s = .next t ∧ Ends (.ok (.lagr pt)) s t := by
  unfold execLagr
  split
  · exact ⟨_, rfl, .failed .notReady 0 (by decide) (fun _ => rfl) nofun⟩
  · split
    · exact ⟨_, rfl, .failed .count 0 (by decide) (fun _ => rfl) nofun⟩
    · exact ⟨_, rfl, finishResult_ends _ s (.inr (.inr ⟨pt, rfl⟩))⟩

theorem genptsCheck_code {n thr : Byte} {code : Code} (h : genptsCheck n thr = some code) :
    code = .valNshares ∨ code = .valThreshold ∨ code = .valTGtN := by
  simp only [genptsCheck] at h
  split at h
  · cases h; simp
  · split at h
    · cases h; simp
    · split at h
      · cases h; simp
      · cases h

theorem execGenpts_ends (secret n thr : Byte) (s : State) :
    ∃ t, execGenpts secret n thr s = .next t ∧ Ends (.ok (.genpts secret n thr)) s t := by
  unfold execGenpts
  split
  · exact ⟨_, rfl, .rejected .notReady (by decide) rfl ⟨secret, n, thr, rfl⟩⟩
  · rename_i exps logs hts
    split
    · rename_i k hk
      refine ⟨_, rfl, ?_⟩
      rcases goOnGenpts_cases exps logs n thr k s with ⟨hq, h⟩ | ⟨hq, hlt, h⟩ | ⟨hq, hle, h⟩
      · rw [h]; exact .waits secret n thr k rfl hk hq
      · rw [h]; exact .requests secret n thr k rfl hk hlt hq
      · obtain ⟨ys, hys, heq⟩ := finishGenpts_ok exps logs n thr s
        rw [h, heq]
        exact .points secret n thr k ys rfl hk hle hq (by simpa using collect_ok_length hys)
    · rename_i hnone
      split
      · rename_i code hcode
        have hc : code ≠ .ok ∧ code.hasIndex = false := by
          rcases genptsCheck_code hcode with rfl | rfl | rfl <;> decide
        exact ⟨_, rfl, .rejected code hc.1 hc.2 ⟨secret, n, thr, rfl⟩⟩
      · rename_i hcheck
        exact ⟨_, rfl, .starts secret n thr rfl (by simp only [State.ready, hts]) hnone hcheck⟩

theorem mem_dedupLoop {ids : Nat → Byte} {l seen : List Nat} {u : Nat} (h : u ∈ dedupLoop ids seen l) :
    u ∈ seen ∨ u ∈ l := by
  induction l generalizing seen with
  | nil => exact .inl h
  | cons a rest ih =>
    simp only [dedupLoop] at h
    split at h
    · rcases ih h with h | h
      · exact .inl h
      · exact .inr (by simp [h])
    · rcases ih h with h | h
      · rcases List.mem_append.1 h with h | h
        · exact .inl h
        · exact .inr (by simp_all)
      · exact .inr (by simp [h])

/-- A unique slot is one of the slots read. -/
theorem mem_uniqueSlots_lt {s : State} {u : Nat} (h : u ∈ uniqueSlots s) : u < s.nslots.toNat := by
  rcases mem_dedupLoop h with h | h
  · cases h
  · exact List.mem_range.1 h

theorem slotError_none {s : State} {slot : Nat} (h : slotError s slot = none) :
    s.slotLenAt slot ≠ 0 ∧ s.slotIdAt slot ≠ 0 ∧ s.slotLenAt slot ≤ s.maxlen := by
  simp only [slotError] at h
  split at h
  · cases h
  · split at h
    · cases h
    · split at h
      · cases h
      · exact ⟨by assumption, by assumption, by omega⟩

theorem execCombine_ends (pt : Byte) (s : State) : ∃ t, execCombine pt s = .next t ∧ Ends (.ok (.combine pt)) s t := by
  unfold execCombine
  split
  · exact ⟨_, rfl, .failed .notReady 0 (by decide) (fun _ => rfl) nofun⟩
  · rename_i exps logs _
    split
    · exact ⟨_, rfl, .failed .count 0 (by decide) (fun _ => rfl) nofun⟩
    · split
      · rename_i code slot hslot
        refine ⟨_, rfl, .failed code slot ?_ ?_ nofun⟩ <;>
          rcases slotError_code (firstSlotError_some hslot).2 with rfl | rfl | rfl <;> simp [Code.hasIndex]
      · rename_i hslots
        refine ⟨_, rfl, ?_⟩
        rcases finishCombine_cases exps logs pt (uniqueSlots s) s with ⟨u, -, h⟩ | ⟨k, h⟩ | ⟨bytes, hb, h⟩
        · rw [h]; exact .failed .lenMismatch u (by decide) (by simp [Code.hasIndex]) nofun
        · rw [h]; exact .failed .logZero k (by decide) (by simp [Code.hasIndex]) nofun
        · have hlen : bytes.length = payloadLength s (uniqueSlots s) := by
            simpa using collect_ok_length hb
          rw [h, ← hlen]
          refine .secret bytes ?_ ⟨pt, rfl⟩
          rw [hlen]
          cases hu : uniqueSlots s with
          | nil => simp [payloadLength]
          | cons u rest =>
            have : u ∈ uniqueSlots s := by simp [hu]
            have := firstSlotError_none hslots u (List.mem_range.2 (mem_uniqueSlots_lt this))
            exact (slotError_none this).2.2

/-- Every command answers a next state, in one of the ways of `Ends`. -/
theorem exec_ends (i : Instr) (s : State) : ∃ t, exec i s = .next t ∧ Ends (.ok i) s t := by
  cases i with
  | nop => exact execNop_ends s
  | init => exact ⟨_, execInit_eq s, .init rfl⟩
  | treset => exact execTreset_ends s
  | mul a b => exact execMul_ends a b s
  | eval x => exact execEval_ends x s
  | genpts secret n thr => exact execGenpts_ends secret n thr s
  | lagr pt => exact execLagr_ends pt s
  | combine pt => exact execCombine_ends pt s

/-- Every word answers a next state when it runs, in one of the ways of `Ends`. -/
theorem runCommand_ends (w : Word) (s : State) : ∃ t, runCommand w s = .next t ∧ Ends (decode w) s t := by
  unfold runCommand
  split
  · rename_i i hd
    rw [hd]
    exact exec_ends i s
  · rename_i v hv
    exact ⟨_, rfl, .failed (verdictCode v) 0 (by cases v <;> decide) (fun _ => rfl) (by rw [hv]; nofun)⟩

/-- What an engine turn can do: nothing, or run the accepted word. -/
theorem engineTurn_cases (s : State) :
    engineTurn s = .next s ∨ ∃ w, s.eng = .busy w ∧ s.rngReq = .idle ∧ engineTurn s = runCommand w s := by
  unfold engineTurn
  split
  · exact .inl rfl
  · exact .inl rfl
  · exact .inr ⟨_, by assumption, by assumption, rfl⟩

/-- What the random source's answer can do: pass, or answer the outstanding request. -/
theorem answerTurn_cases (a : RngAnswer) (s : State) :
    ((s.eng = .idle ∨ s.rngReq = .idle) ∧ answerTurn a s = s) ∨
      ∃ w, s.eng = .busy w ∧ s.rngReq = .pending ∧ answerTurn a s = takeDraw a s := by
  unfold answerTurn
  split
  · exact .inr ⟨_, by assumption, by assumption, rfl⟩
  · exact .inl ⟨.inr (by assumption), rfl⟩
  · exact .inl ⟨.inl (by assumption), rfl⟩

/-- Everything one step can do. -/
inductive Steps (s : State) : State → Prop where
  /-- nothing but the passing of an event -/
  | passes (rest : List Event) (hrest : rest = s.schedule ∨ ∃ e, s.schedule = e :: rest) :
      Steps s (s.setSchedule rest)
  /-- a bus transaction -/
  | bus (op : BusOp) (rest : List Event) (h : s.schedule = .bus op :: rest) :
      Steps s (busStep (s.setSchedule rest) op)
  /-- the reset pin -/
  | rst (level : Bool) (rest : List Event) (h : s.schedule = .rst level :: rest) :
      Steps s ((s.setSchedule rest).setRstN level)
  /-- the outstanding request is answered -/
  | answers (w : Word) (fail : Bool) (data : Byte) (rest : List Event) (hrst : s.rstN = true)
      (h : s.schedule = .rng fail data :: rest) (heng : s.eng = .busy w) (hrng : s.rngReq = .pending) :
      Steps s (takeDraw (portAnswer fail data) (s.setSchedule rest))
  /-- the accepted word runs -/
  | runs (w : Word) (rest : List Event) (t : State) (hrst : s.rstN = true)
      (hrest : (rest = s.schedule ∧ s.schedule = []) ∨ s.schedule = .engine :: rest)
      (heng : s.eng = .busy w) (hrng : s.rngReq = .idle)
      (hrun : runCommand w (s.setSchedule rest) = .next t) (hends : Ends (decode w) (s.setSchedule rest) t) :
      Steps s t

theorem step_steps (s : State) : ∃ t, step s = .next t ∧ Steps s t := by
  unfold step agentTurn
  split
  · rename_i hrst
    unfold activeTurn
    split
    · rename_i hs
      rcases engineTurn_cases s with h | ⟨w, heng, hrng, h⟩
      · exact ⟨s, h, Steps.passes (s := s) s.schedule (.inl rfl)⟩
      · obtain ⟨t, ht, he⟩ := runCommand_ends w s
        exact ⟨t, h.trans ht, .runs w s.schedule t hrst (.inl ⟨rfl, hs⟩) heng hrng ht he⟩
    · exact ⟨_, rfl, .bus _ _ (by assumption)⟩
    · rename_i rest hs
      rcases engineTurn_cases (s.setSchedule rest) with h | ⟨w, heng, hrng, h⟩
      · exact ⟨_, h, .passes rest (.inr ⟨_, hs⟩)⟩
      · obtain ⟨t, ht, he⟩ := runCommand_ends w (s.setSchedule rest)
        exact ⟨t, h.trans ht, .runs w rest t hrst (.inr hs) heng hrng ht he⟩
    · rename_i fail data rest hs
      rcases answerTurn_cases (portAnswer fail data) (s.setSchedule rest) with ⟨-, h⟩ | ⟨w, heng, hrng, h⟩
      · exact ⟨_, congrArg _ h, .passes rest (.inr ⟨_, hs⟩)⟩
      · exact ⟨_, congrArg _ h, .answers w fail data rest hrst hs heng hrng⟩
    · exact ⟨_, rfl, .rst _ _ (by assumption)⟩
  · unfold resetTurn
    split
    · exact ⟨s, rfl, Steps.passes (s := s) s.schedule (.inl rfl)⟩
    · exact ⟨_, rfl, .bus _ _ (by assumption)⟩
    · exact ⟨_, rfl, .passes _ (.inr ⟨_, by assumption⟩)⟩
    · exact ⟨_, rfl, .passes _ (.inr ⟨_, by assumption⟩)⟩
    · exact ⟨_, rfl, .rst _ _ (by assumption)⟩

/-- A step that answers `t` does one of the things of `Steps`. -/
theorem steps_of_step {s t : State} (h : step s = .next t) : Steps s t := by
  obtain ⟨t', h', hs⟩ := step_steps s
  rw [h] at h'
  cases h'
  exact hs

/-- A word that answers `t` ends in one of the ways of `Ends`. -/
theorem ends_of_runCommand {w : Word} {s t : State} (h : runCommand w s = .next t) : Ends (decode w) s t := by
  obtain ⟨t', h', hs⟩ := runCommand_ends w s
  rw [h] at h'
  cases h'
  exact hs

/-! ### Which turn a step is -/

theorem step_active {s : State} (h : s.rstN = true) : step s = activeTurn s := by
  unfold step agentTurn
  rw [h]
  rfl

theorem step_inReset {s : State} (h : s.rstN = false) : step s = .next (resetTurn s) := by
  unfold step agentTurn
  rw [h]
  rfl

theorem step_engine {s : State} {w : Word} {rest : List Event} (h : s.rstN = true) (heng : s.eng = .busy w)
    (hq : s.rngReq = .idle) (hs : s.schedule = .engine :: rest) :
    step s = runCommand w (s.setSchedule rest) := by
  rw [step_active h]
  simp only [activeTurn, hs, engineTurn, State.setSchedule_eng, State.setSchedule_rngReq, heng, hq]

theorem step_answer {s : State} {w : Word} {fail : Bool} {data : Byte} {rest : List Event} (h : s.rstN = true)
    (heng : s.eng = .busy w) (hq : s.rngReq = .pending) (hs : s.schedule = .rng fail data :: rest) :
    step s = .next (takeDraw (portAnswer fail data) (s.setSchedule rest)) := by
  rw [step_active h]
  simp only [activeTurn, hs, answerTurn, State.setSchedule_eng, State.setSchedule_rngReq, heng, hq]

theorem step_bus {s : State} {op : BusOp} {rest : List Event} (h : s.rstN = true)
    (hs : s.schedule = .bus op :: rest) : step s = .next (busStep (s.setSchedule rest) op) := by
  rw [step_active h]
  simp only [activeTurn, hs]

theorem runCommand_ok {w : Word} {i : Instr} (h : decode w = .ok i) (s : State) :
    runCommand w s = exec i s := by
  simp only [runCommand, h]

theorem runCommand_error {w : Word} {v : Verdict} (h : decode w = .error v) (s : State) :
    runCommand w s = .next (s.raise (verdictCode v) 0) := by
  simp only [runCommand, h]

/-! ### ICOEF while a GENPTS draws (R151) -/

/-- The drawing starts with the secret byte alone in ICOEF. -/
theorem icoefDrawn_start (secret : Byte) : IcoefDrawn (icoefSet icoefZero 0 secret) secret 1 := by
  refine ⟨?_, fun i h1 h2 => by omega, fun i h1 _ => ?_⟩
  · rw [icoefAt_icoefSet _ _ _ (by omega), if_pos rfl]
  · rcases Nat.lt_or_ge i 255 with h | h
    · rw [icoefAt_icoefSet _ _ _ h, if_neg (by omega), icoefAt_icoefZero]
    · exact icoefAt_of_le _ h

/-- A nonzero byte becomes the next coefficient. -/
theorem icoefDrawn_next {coeffs : Vector Byte 255} {secret b : Byte} {k : Nat} (hk : 1 ≤ k) (hlt : k < 255)
    (hb : b ≠ 0) (h : IcoefDrawn coeffs secret k) : IcoefDrawn (icoefSet coeffs k b) secret (k + 1) := by
  obtain ⟨h1, h2, h3⟩ := h
  refine ⟨?_, fun i hi1 hi2 => ?_, fun i hi1 hi2 => ?_⟩
  · rw [icoefAt_icoefSet _ _ _ (by omega), if_neg (by omega), h1]
  · rw [icoefAt_icoefSet _ _ _ (by omega)]
    split
    · exact hb
    · exact h2 i hi1 (by omega)
  · rcases Nat.lt_or_ge i 255 with hi | hi
    · rw [icoefAt_icoefSet _ _ _ hi, if_neg (by omega)]
      exact h3 i hi1 (by omega)
    · exact icoefAt_of_le _ hi

/-! ### The meanings under the checks they pass -/

theorem execMul_ready {s : State} {exps logs : Table} (h : s.tstate = .ready exps logs) (a b : Byte) :
    execMul a b s = .next (s.setResult (gfMul exps logs a b)).complete := by
  simp only [execMul, h]

theorem execEval_ready {s : State} {exps logs : Table} (h : s.tstate = .ready exps logs)
    (hn : s.ncoef.toNat ≤ 256) (x : Byte) :
    execEval x s = .next (finishResult (hornerEval exps logs x s.coef s.ncoef.toNat) s) := by
  simp only [execEval, h, if_neg (Nat.not_lt.2 hn)]

theorem execLagr_ready {s : State} {exps logs : Table} (h : s.tstate = .ready exps logs)
    (hn : s.npts.toNat ≤ 256) (pt : Byte) :
    execLagr pt s = .next (finishResult (lagrange exps logs pt s.xsAt s.ysAt s.npts.toNat) s) := by
  simp only [execLagr, h, if_neg (Nat.not_lt.2 hn)]

theorem execGenpts_start {s : State} {exps logs : Table} (h : s.tstate = .ready exps logs)
    (hd : s.drawAt = none) {n thr : Byte} (hc : genptsCheck n thr = none) (secret : Byte) :
    execGenpts secret n thr s = .next (s.startDraws secret).request := by
  simp only [execGenpts, h, hd, hc]

theorem execGenpts_check {s : State} {exps logs : Table} (h : s.tstate = .ready exps logs)
    (hd : s.drawAt = none) {n thr : Byte} {code : Code} (hc : genptsCheck n thr = some code) (secret : Byte) :
    execGenpts secret n thr s = .next (s.clearDraws.raise code 0) := by
  simp only [execGenpts, h, hd, hc]

theorem execGenpts_request {s : State} {exps logs : Table} (h : s.tstate = .ready exps logs) {k : Nat}
    (hd : s.drawAt = some k) (hq : s.rngReq = .idle) {thr : Byte} (hk : k < thr.toNat) (secret n : Byte) :
    execGenpts secret n thr s = .next s.request := by
  simp only [execGenpts, h, hd, goOnGenpts, hq, if_pos hk]

theorem execGenpts_finish {s : State} {exps logs : Table} (h : s.tstate = .ready exps logs) {k : Nat}
    (hd : s.drawAt = some k) (hq : s.rngReq = .idle) {thr : Byte} (hk : thr.toNat ≤ k) (secret n : Byte) :
    execGenpts secret n thr s = .next (finishGenpts exps logs n thr s) := by
  simp only [execGenpts, h, hd, goOnGenpts, hq, if_neg (Nat.not_lt.2 hk)]

theorem genptsCheck_none {n thr : Byte} :
    genptsCheck n thr = none ↔ 2 ≤ thr.toNat ∧ thr.toNat ≤ n.toNat := by
  have h1 : n.toNat < 256 := n.isLt
  have h2 : thr.toNat < 256 := thr.isLt
  unfold genptsCheck
  repeat' split
  all_goals constructor <;> intro h <;> first | (cases h; done) | omega | rfl

theorem execCombine_ready {s : State} {exps logs : Table} (h : s.tstate = .ready exps logs)
    (hn : s.nslots.toNat ≤ s.slots) (hs : firstSlotError s (List.range s.nslots.toNat) = none) (pt : Byte) :
    execCombine pt s = .next (finishCombine exps logs pt (uniqueSlots s) s) := by
  simp only [execCombine, h, if_neg (Nat.not_lt.2 hn), hs]

theorem execCombine_badSlot {s : State} {exps logs : Table} (h : s.tstate = .ready exps logs)
    (hn : s.nslots.toNat ≤ s.slots) {code : Code} {slot : Nat}
    (hs : firstSlotError s (List.range s.nslots.toNat) = some (code, slot)) (pt : Byte) :
    execCombine pt s = .next (s.raise code slot) := by
  simp only [execCombine, h, if_neg (Nat.not_lt.2 hn), hs]

end Sys2Proof.Machine
end

