-- ==== Sys2Proof/Laws/Bus.lean ====
section
/-! SUPPORT. What a bus transaction can do, said once; the address map read both ways. -/

namespace Sys2Proof.Machine

/-! ### The ranges of R66 one by one -/

theorem regionAt_registers {a : Nat} (h : a < 0x0030) : regionAt a = registerAt a := by
  rw [regionAt, if_pos h]

theorem regionAt_coef {a : Nat} (h1 : 0x0400 ≤ a) (h2 : a < 0x0800) :
    regionAt a = some (.coef ((a - 0x0400) / 4)) := by
  unfold regionAt
  repeat rw [if_neg (by omega)]
  rw [if_pos h2]

theorem regionAt_xs {a : Nat} (h1 : 0x0800 ≤ a) (h2 : a < 0x0C00) :
    regionAt a = some (.xs ((a - 0x0800) / 4)) := by
  unfold regionAt
  repeat rw [if_neg (by omega)]
  rw [if_pos h2]

theorem regionAt_ys {a : Nat} (h1 : 0x0C00 ≤ a) (h2 : a < 0x1000) :
    regionAt a = some (.ys ((a - 0x0C00) / 4)) := by
  unfold regionAt
  repeat rw [if_neg (by omega)]
  rw [if_pos h2]

theorem regionAt_exps {a : Nat} (h1 : 0x1000 ≤ a) (h2 : a < 0x1400) :
    regionAt a = some (.exps ((a - 0x1000) / 4)) := by
  unfold regionAt
  repeat rw [if_neg (by omega)]
  rw [if_pos h2]

theorem regionAt_logs {a : Nat} (h1 : 0x1400 ≤ a) (h2 : a < 0x1800) :
    regionAt a = some (.logs ((a - 0x1400) / 4)) := by
  unfold regionAt
  repeat rw [if_neg (by omega)]
  rw [if_pos h2]

theorem regionAt_slotId {a : Nat} (h1 : 0x1800 ≤ a) (h2 : a < 0x1C00) :
    regionAt a = some (.slotId ((a - 0x1800) / 4)) := by
  unfold regionAt
  repeat rw [if_neg (by omega)]
  rw [if_pos h2]

theorem regionAt_slotLen {a : Nat} (h1 : 0x1C00 ≤ a) (h2 : a < 0x2000) :
    regionAt a = some (.slotLen ((a - 0x1C00) / 4)) := by
  unfold regionAt
  repeat rw [if_neg (by omega)]
  rw [if_pos h2]

theorem regionAt_secret {a : Nat} (h1 : 0x00800000 ≤ a) (h2 : a < 0x00840000) :
    regionAt a = some (.secret ((a - 0x00800000) / 4)) := by
  unfold regionAt
  repeat rw [if_neg (by omega)]
  rw [if_pos h2]

theorem regionAt_pay {a : Nat} (h1 : 0x01000000 ≤ a) (h2 : a < 0x05000000) :
    regionAt a = some (.pay ((a - 0x01000000) / 0x40000) ((a - 0x01000000) / 4 % 0x10000)) := by
  unfold regionAt
  repeat rw [if_neg (by omega)]
  rw [if_pos h2]

/-- The offset of a window location is in its window's range (R66). -/
theorem regionAt_offset {slots maxlen : Nat} (hs : slots ≤ 256) (hm : maxlen ≤ 65536) {l : Loc}
    (h : l.mapped slots maxlen = true) : regionAt l.offset = some l := by
  cases l with
  | pay slot j =>
    simp only [Loc.mapped, decide_eq_true_eq] at h
    have h0 : (0x01000000 + 0x40000 * slot + 4 * j - 0x01000000) / 4 = 0x10000 * slot + j := by omega
    have h1 : (0x01000000 + 0x40000 * slot + 4 * j - 0x01000000) / 0x40000 = slot := by omega
    have h2 : (0x10000 * slot + j) % 0x10000 = j := by omega
    rw [Loc.offset, regionAt_pay (by omega) (by omega), h0, h1, h2]
  | coef i =>
    simp only [Loc.mapped, decide_eq_true_eq] at h
    have h1 : (0x0400 + 4 * i - 0x0400) / 4 = i := by omega
    rw [Loc.offset, regionAt_coef (by omega) (by omega), h1]
  | xs i =>
    simp only [Loc.mapped, decide_eq_true_eq] at h
    have h1 : (0x0800 + 4 * i - 0x0800) / 4 = i := by omega
    rw [Loc.offset, regionAt_xs (by omega) (by omega), h1]
  | ys i =>
    simp only [Loc.mapped, decide_eq_true_eq] at h
    have h1 : (0x0C00 + 4 * i - 0x0C00) / 4 = i := by omega
    rw [Loc.offset, regionAt_ys (by omega) (by omega), h1]
  | exps i =>
    simp only [Loc.mapped, decide_eq_true_eq] at h
    have h1 : (0x1000 + 4 * i - 0x1000) / 4 = i := by omega
    rw [Loc.offset, regionAt_exps (by omega) (by omega), h1]
  | logs i =>
    simp only [Loc.mapped, decide_eq_true_eq] at h
    have h1 : (0x1400 + 4 * i - 0x1400) / 4 = i := by omega
    rw [Loc.offset, regionAt_logs (by omega) (by omega), h1]
  | slotId i =>
    simp only [Loc.mapped, decide_eq_true_eq] at h
    have h1 : (0x1800 + 4 * i - 0x1800) / 4 = i := by omega
    rw [Loc.offset, regionAt_slotId (by omega) (by omega), h1]
  | slotLen i =>
    simp only [Loc.mapped, decide_eq_true_eq] at h
    have h1 : (0x1C00 + 4 * i - 0x1C00) / 4 = i := by omega
    rw [Loc.offset, regionAt_slotLen (by omega) (by omega), h1]
  | secret i =>
    simp only [Loc.mapped, decide_eq_true_eq] at h
    have h1 : (0x00800000 + 4 * i - 0x00800000) / 4 = i := by omega
    rw [Loc.offset, regionAt_secret (by omega) (by omega), h1]
  | _ => rfl

/-- A location that exists on the part is what its offset names (R66, R67). -/
theorem locate_offset {slots maxlen : Nat} (hs : slots ≤ 256) (hm : maxlen ≤ 65536) {l : Loc}
    (h : l.mapped slots maxlen = true) : locate slots maxlen l.offset = some l := by
  simp [locate, regionAt_offset hs hm h, h]

theorem registerAt_offset {a : Nat} {l : Loc} (ha : a % 4 = 0) (h : registerAt a = some l) : l.offset = a := by
  unfold registerAt at h
  split at h <;> first | (cases h; done) | (cases h; simp only [Loc.offset]; omega)

/-- The ranges R66 reserves name nothing. -/
theorem regionAt_reserved {a : Nat}
    (h : (0x0030 ≤ a ∧ a < 0x0400) ∨ (0x2000 ≤ a ∧ a < 0x00800000) ∨ (0x00840000 ≤ a ∧ a < 0x01000000) ∨
      0x05000000 ≤ a) : regionAt a = none := by
  unfold regionAt
  rcases h with ⟨_, h⟩ | ⟨_, h⟩ | ⟨_, h⟩ | h
  all_goals repeat rw [if_neg (by omega)]
  all_goals rw [if_pos h]

/-- What an aligned offset names has that offset. -/
theorem offset_of_regionAt {a : Nat} {l : Loc} (ha : a % 4 = 0) (h : regionAt a = some l) : l.offset = a := by
  have hrange : a < 0x0030 ∨ (0x0400 ≤ a ∧ a < 0x0800) ∨ (0x0800 ≤ a ∧ a < 0x0C00) ∨ (0x0C00 ≤ a ∧ a < 0x1000) ∨
      (0x1000 ≤ a ∧ a < 0x1400) ∨ (0x1400 ≤ a ∧ a < 0x1800) ∨ (0x1800 ≤ a ∧ a < 0x1C00) ∨
      (0x1C00 ≤ a ∧ a < 0x2000) ∨ (0x00800000 ≤ a ∧ a < 0x00840000) ∨ (0x01000000 ≤ a ∧ a < 0x05000000) ∨
      ((0x0030 ≤ a ∧ a < 0x0400) ∨ (0x2000 ≤ a ∧ a < 0x00800000) ∨ (0x00840000 ≤ a ∧ a < 0x01000000) ∨
        0x05000000 ≤ a) := by omega
  rcases hrange with h1 | h1 | h1 | h1 | h1 | h1 | h1 | h1 | h1 | h1 | h1
  · exact registerAt_offset ha (regionAt_registers h1 ▸ h)
  · cases (regionAt_coef h1.1 h1.2).symm.trans h; simp only [Loc.offset]; omega
  · cases (regionAt_xs h1.1 h1.2).symm.trans h; simp only [Loc.offset]; omega
  · cases (regionAt_ys h1.1 h1.2).symm.trans h; simp only [Loc.offset]; omega
  · cases (regionAt_exps h1.1 h1.2).symm.trans h; simp only [Loc.offset]; omega
  · cases (regionAt_logs h1.1 h1.2).symm.trans h; simp only [Loc.offset]; omega
  · cases (regionAt_slotId h1.1 h1.2).symm.trans h; simp only [Loc.offset]; omega
  · cases (regionAt_slotLen h1.1 h1.2).symm.trans h; simp only [Loc.offset]; omega
  · cases (regionAt_secret h1.1 h1.2).symm.trans h; simp only [Loc.offset]; omega
  · cases (regionAt_pay h1.1 h1.2).symm.trans h; simp only [Loc.offset]; omega
  · cases (regionAt_reserved h1).symm.trans h

/-- An aligned offset names only the location it is the offset of (R66, R67). -/
theorem offset_of_locate {slots maxlen a : Nat} {l : Loc} (ha : a % 4 = 0)
    (h : locate slots maxlen a = some l) : l.offset = a ∧ l.mapped slots maxlen = true := by
  unfold locate at h
  split at h
  · rename_i l' hreg
    split at h
    · cases h
      exact ⟨offset_of_regionAt ha hreg, by assumption⟩
    · cases h
  · cases h

theorem State.slots_le (s : State) : s.slots ≤ 256 := by
  have := s.slotsM1.isLt
  simp only [State.slots]
  omega

theorem State.maxlen_le (s : State) : s.maxlen ≤ 65536 := by
  have := s.maxlenM1.isLt
  simp only [State.maxlen]
  omega

/-- Every offset of a location that exists is aligned and below 0x0500_0000 (R66). -/
theorem Loc.offset_lt {slots maxlen : Nat} (hs : slots ≤ 256) (hm : maxlen ≤ 65536) {l : Loc}
    (h : l.mapped slots maxlen = true) : l.offset % 4 = 0 ∧ l.offset < 0x05000000 := by
  cases l with
  | pay slot j | coef i | xs i | ys i | exps i | logs i | slotId i | slotLen i | secret i =>
    simp only [Loc.mapped, decide_eq_true_eq] at h
    simp only [Loc.offset]
    omega
  | _ => simp [Loc.offset]

/-- A transaction reaches a location only where it is aligned, mapped and not locked, with reset released. -/
theorem reachable_some {s : State} {addr : Word} {l : Loc} (h : reachable s addr = some l) :
    s.rstN = true ∧ l.offset = addr.toNat ∧ l.mapped s.slots s.maxlen = true ∧ (s.busy && l.locked) = false := by
  unfold reachable at h
  split at h
  · cases h
  · rename_i hr
    split at h
    · cases h
    · rename_i ha
      split at h
      · cases h
      · rename_i l' hloc
        split at h
        · cases h
        · rename_i hlock
          cases h
          obtain ⟨h1, h2⟩ := offset_of_locate (by omega) hloc
          exact ⟨by simpa using hr, h1, h2, by simpa using hlock⟩

/-- It does reach it there. -/
theorem reachable_of {s : State} {l : Loc} (hr : s.rstN = true) (hm : l.mapped s.slots s.maxlen = true)
    (hl : (s.busy && l.locked) = false) : reachable s (BitVec.ofNat 32 l.offset) = some l := by
  obtain ⟨h1, h2⟩ := Loc.offset_lt s.slots_le s.maxlen_le hm
  have h3 : (BitVec.ofNat 32 l.offset).toNat = l.offset := by
    rw [BitVec.toNat_ofNat]
    omega
  unfold reachable
  rw [h3, locate_offset s.slots_le s.maxlen_le hm]
  simp [hr, h1, hl]

/-- The effect of a transaction: none, or the write of a location it reaches. -/
theorem busEffect_cases (s : State) (op : BusOp) :
    busEffect s op = s ∨
      ∃ addr d l, op = .write addr d ∧ reachable s addr = some l ∧ l.readOnly = false ∧
        busEffect s op = writeLoc s d l := by
  cases op with
  | read addr => exact .inl rfl
  | write addr d =>
    simp only [busEffect]
    cases h : reachable s addr with
    | none => exact .inl rfl
    | some l =>
      cases hr : l.readOnly with
      | true => exact .inl (by simp only [hr, if_true])
      | false => exact .inr ⟨addr, d, l, rfl, h, hr, by simp only [hr, Bool.false_eq_true, if_false]⟩

theorem busStep_none_read {s : State} {addr : Word} (h : reachable s addr = none) :
    busStep s (.read addr) = s.respond ⟨false, 0⟩ := by
  simp only [busStep, busEffect, busResponse, h, errResp]

theorem busStep_none_write {s : State} {addr : Word} (d : Word) (h : reachable s addr = none) :
    busStep s (.write addr d) = s.respond ⟨false, 0⟩ := by
  simp only [busStep, busEffect, busResponse, h, errResp]

theorem busStep_readOnly {s : State} {addr : Word} {l : Loc} (d : Word) (h : reachable s addr = some l)
    (hr : l.readOnly = true) : busStep s (.write addr d) = s.respond ⟨false, 0⟩ := by
  simp only [busStep, busEffect, busResponse, h, hr, errResp, if_true]

theorem busStep_write {s : State} {addr : Word} {l : Loc} (d : Word) (h : reachable s addr = some l)
    (hr : l.readOnly = false) : busStep s (.write addr d) = (writeLoc s d l).respond ⟨true, 0⟩ := by
  simp only [busStep, busEffect, busResponse, h, hr, okayResp, Bool.false_eq_true, if_false]

theorem busStep_read {s : State} {addr : Word} {l : Loc} (h : reachable s addr = some l) :
    busStep s (.read addr) = s.respond ⟨true, readLoc s l⟩ := by
  simp only [busStep, busEffect, busResponse, h, okayResp]

/-- The fields no bus write touches. -/
structure SameBehindTheBus (s t : State) : Prop where
  slotsM1 : t.slotsM1 = s.slotsM1
  maxlenM1 : t.maxlenM1 = s.maxlenM1
  result : t.result = s.result
  errCode : t.errCode = s.errCode
  errInfo : t.errInfo = s.errInfo
  seclen : t.seclen = s.seclen
  tstate : t.tstate = s.tstate
  icoef : t.icoef = s.icoef
  rngReq : t.rngReq = s.rngReq
  drawAt : t.drawAt = s.drawAt
  rstN : t.rstN = s.rstN
  ramEpoch : t.ramEpoch = s.ramEpoch
  schedule : t.schedule = s.schedule

theorem cmdWrite_behind (s : State) (d : Word) : SameBehindTheBus s (cmdWrite s d) := by
  unfold cmdWrite
  split <;> exact ⟨rfl, rfl, rfl, rfl, rfl, rfl, rfl, rfl, rfl, rfl, rfl, rfl, rfl⟩

theorem writeLoc_behind (s : State) (d : Word) (l : Loc) : SameBehindTheBus s (writeLoc s d l) := by
  cases l with
  | cmd => exact cmdWrite_behind s d
  | _ => exact ⟨rfl, rfl, rfl, rfl, rfl, rfl, rfl, rfl, rfl, rfl, rfl, rfl, rfl⟩

/-- A transaction touches none of the fields behind the bus. -/
theorem busStep_behind (s : State) (op : BusOp) : SameBehindTheBus s (busStep s op) := by
  rcases busEffect_cases s op with h | ⟨addr, d, l, -, -, -, h⟩
  · rw [busStep, h]
    exact ⟨rfl, rfl, rfl, rfl, rfl, rfl, rfl, rfl, rfl, rfl, rfl, rfl, rfl⟩
  · rw [busStep, h]
    obtain ⟨h1, h2, h3, h4, h5, h6, h7, h8, h9, h10, h11, h12, h13⟩ := writeLoc_behind s d l
    exact ⟨h1, h2, h3, h4, h5, h6, h7, h8, h9, h10, h11, h12, h13⟩

/-- A transaction leaves ENG and DONE, or it is the accepted CMD write, or a W1C write of DONE. -/
theorem busStep_eng (s : State) (op : BusOp) :
    ((busStep s op).eng = s.eng ∧ ((busStep s op).done = true → s.done = true)) ∨
      (s.busy = false ∧ (busStep s op).done = false) := by
  rcases busEffect_cases s op with h | ⟨addr, d, l, -, -, -, h⟩
  · rw [busStep, h]
    exact .inl ⟨rfl, id⟩
  · rw [busStep, h]
    cases l with
    | cmd =>
      simp only [writeLoc, cmdWrite]
      cases hb : s.busy with
      | true => exact .inl ⟨rfl, id⟩
      | false => exact .inr ⟨rfl, rfl⟩
    | status => exact .inl ⟨rfl, by simp +contextual [writeLoc]⟩
    | _ => exact .inl ⟨rfl, id⟩

end Sys2Proof.Machine
end

