-- ==== Sys2Proof/Laws/Encoding.lean ====
section
/-! SUPPORT. The command word as a number, and its fields read back. -/

namespace Sys2Proof

theorem packWord_toNat (c b a op : Byte) :
    (packWord c b a op).toNat = c.toNat * 2 ^ 24 + b.toNat * 2 ^ 16 + a.toNat * 2 ^ 8 + op.toNat := by
  have hb := b.isLt
  have ha := a.isLt
  have ho := op.isLt
  have h1 : (c ++ b).toNat = c.toNat * 2 ^ 8 + b.toNat := by
    rw [BitVec.toNat_append, ← Nat.shiftLeft_add_eq_or_of_lt hb, Nat.shiftLeft_eq]
  have h2 : (c ++ b ++ a).toNat = (c ++ b).toNat * 2 ^ 8 + a.toNat := by
    rw [BitVec.toNat_append, ← Nat.shiftLeft_add_eq_or_of_lt ha, Nat.shiftLeft_eq]
  have h3 : (c ++ b ++ a ++ op).toNat = (c ++ b ++ a).toNat * 2 ^ 8 + op.toNat := by
    rw [BitVec.toNat_append, ← Nat.shiftLeft_add_eq_or_of_lt ho, Nat.shiftLeft_eq]
  have h : (packWord c b a op).toNat = (c ++ b ++ a ++ op).toNat := rfl
  omega

theorem opField_toNat (w : Word) : (opField w).toNat = w.toNat % 2 ^ 8 := by
  simp [opField]

theorem aField_toNat (w : Word) : (aField w).toNat = w.toNat / 2 ^ 8 % 2 ^ 8 := by
  simp [aField, Nat.shiftRight_eq_div_pow]

theorem bField_toNat (w : Word) : (bField w).toNat = w.toNat / 2 ^ 16 % 2 ^ 8 := by
  simp [bField, Nat.shiftRight_eq_div_pow]

theorem cField_toNat (w : Word) : (cField w).toNat = w.toNat / 2 ^ 24 % 2 ^ 8 := by
  simp [cField, Nat.shiftRight_eq_div_pow]

@[simp] theorem opField_packWord (c b a op : Byte) : opField (packWord c b a op) = op := by
  apply BitVec.eq_of_toNat_eq
  have := op.isLt
  rw [opField_toNat, packWord_toNat]
  omega

@[simp] theorem aField_packWord (c b a op : Byte) : aField (packWord c b a op) = a := by
  apply BitVec.eq_of_toNat_eq
  have := op.isLt
  have := a.isLt
  rw [aField_toNat, packWord_toNat]
  omega

@[simp] theorem bField_packWord (c b a op : Byte) : bField (packWord c b a op) = b := by
  apply BitVec.eq_of_toNat_eq
  have := op.isLt
  have := a.isLt
  have := b.isLt
  rw [bField_toNat, packWord_toNat]
  omega

@[simp] theorem cField_packWord (c b a op : Byte) : cField (packWord c b a op) = c := by
  apply BitVec.eq_of_toNat_eq
  have := op.isLt
  have := a.isLt
  have := b.isLt
  have := c.isLt
  rw [cField_toNat, packWord_toNat]
  omega

/-- A word is its four fields (R90). -/
theorem packWord_fields (w : Word) : packWord (cField w) (bField w) (aField w) (opField w) = w := by
  apply BitVec.eq_of_toNat_eq
  have := w.isLt
  rw [packWord_toNat, opField_toNat, aField_toNat, bField_toNat, cField_toNat]
  omega

end Sys2Proof
end

