-- ==== Sys2Proof/Laws/HostProgram.lean ====
section
/-! SUPPORT. What one move of a host program can do. -/

namespace Sys2Proof.Machine

/-- STATUS bit 1 is BUSY (R25). -/
theorem State.statusWord_busy (s : State) : s.statusWord.getLsbD 1 = s.busy := by
  simp only [State.statusWord, BitVec.getLsbD_setWidth, BitVec.getLsbD_append, BitVec.getLsbD_ofBool]
  simp

/-- A host move on a transaction: the transaction, and the statement is done. -/
theorem HostRun.move_access {r : HostRun} {op : BusOp} {expected : Option Word} {rest : List HostOp}
    (h : r.todo = .access op expected :: rest) (hr : r.block.rstN = true) :
    r.move .host = .next
      ⟨rest, r.met && (HostOp.access op expected).met (busStep (r.block.setSchedule []) op).busResp,
        busStep (r.block.setSchedule []) op⟩ := by
  have hs : step (r.block.setSchedule [.bus op]) = .next (busStep (r.block.setSchedule []) op) :=
    step_bus (s := r.block.setSchedule [.bus op]) hr rfl
  simp only [HostRun.move, h, HostOp.transaction, hs, HostOp.remaining]

/-- A host move on `wait`: one read of STATUS, after which `wait` is still to come exactly when it read BUSY = 1
(R99). -/
theorem HostRun.move_poll {r : HostRun} {rest : List HostOp} (h : r.todo = .poll :: rest)
    (hr : r.block.rstN = true) :
    r.move .host = .next
      ⟨if r.block.busy then .poll :: rest else rest, r.met,
        (r.block.setSchedule []).respond ⟨true, r.block.statusWord⟩⟩ := by
  have hreach : reachable (r.block.setSchedule []) (BitVec.ofNat 32 Loc.status.offset) = some .status :=
    reachable_of (s := r.block.setSchedule []) hr rfl (by simp [Loc.locked])
  have hs : step (r.block.setSchedule [.bus (.read (BitVec.ofNat 32 Loc.status.offset))]) =
      .next ((r.block.setSchedule []).respond ⟨true, r.block.statusWord⟩) :=
    (step_bus (s := r.block.setSchedule [.bus (.read (BitVec.ofNat 32 Loc.status.offset))]) hr rfl).trans
      (congrArg _ (busStep_read hreach))
  simp only [HostRun.move, h, HostOp.transaction, hs, HostOp.remaining, HostOp.met, State.respond_busResp, busyBit,
    State.statusWord_busy, Bool.and_true]

end Sys2Proof.Machine
end

