-- ==== Sys2Proof/Laws/PerInstr.lean ====
section
/-! SUPPORT. Statements made of every command, one lemma per constructor of `Instr`. -/

namespace Sys2Proof.Laws.EncodeSelectsRow

open Sys2Proof

/-- The encoding of a command selects the row of its own mnemonic in the (match, mask) table, and the row of no other
(R92). -/
def Statement (i : Instr) : Prop :=
  ∀ m : Mnemonic, selectsRow (encode i) m = true ↔ m = i.mnemonic

theorem nop : Statement .nop := by
  intro m
  cases m <;> decide

theorem init : Statement .init := by
  intro m
  cases m <;> decide

theorem treset : Statement .treset := by
  intro m
  cases m <;> decide

/-- A packed word under a mask, field by field. -/
theorem packWord_and (c b a op c' b' a' op' : Byte) :
    packWord c b a op &&& packWord c' b' a' op' = packWord (c &&& c') (b &&& b') (a &&& a') (op &&& op') := by
  apply BitVec.eq_of_getLsbD_eq
  intro i hi
  simp only [packWord, BitVec.getLsbD_and, BitVec.getLsbD_append]
  split <;> [skip; split <;> [skip; split]] <;> rfl

/-- Packed words agree iff their fields do. -/
theorem packWord_inj {c b a op c' b' a' op' : Byte} :
    packWord c b a op = packWord c' b' a' op' ↔ c = c' ∧ b = b' ∧ a = a' ∧ op = op' := by
  constructor
  · intro h
    refine ⟨?_, ?_, ?_, ?_⟩
    · simpa using congrArg cField h
    · simpa using congrArg bField h
    · simpa using congrArg aField h
    · simpa using congrArg opField h
  · rintro ⟨rfl, rfl, rfl, rfl⟩
    rfl

/-- A word `{c, b, a, op}` selects a row iff each of its fields, under the row's mask, is the row's. -/
theorem selectsRow_iff (c b a op : Byte) (m : Mnemonic) :
    selectsRow (packWord c b a op) m = true ↔
      (c &&& cField (opRow m).maskBits = cField (opRow m).matchBits ∧
        b &&& bField (opRow m).maskBits = bField (opRow m).matchBits ∧
        a &&& aField (opRow m).maskBits = aField (opRow m).matchBits ∧
        op &&& opField (opRow m).maskBits = opField (opRow m).matchBits) := by
  rw [selectsRow, beq_iff_eq, ← packWord_fields (opRow m).maskBits, ← packWord_fields (opRow m).matchBits,
    packWord_and, packWord_inj]
  simp only [cField_packWord, bField_packWord, aField_packWord, opField_packWord]

theorem mul (a b : Byte) : Statement (.mul a b) := by
  intro m
  rw [encode, selectsRow_iff]
  cases m <;> simp [opRow, Instr.mnemonic, opField, aField, bField, cField]

theorem eval (x : Byte) : Statement (.eval x) := by
  intro m
  rw [encode, selectsRow_iff]
  cases m <;> simp [opRow, Instr.mnemonic, opField, aField, bField, cField]

theorem genpts (secret numShares threshold : Byte) : Statement (.genpts secret numShares threshold) := by
  intro m
  rw [encode, selectsRow_iff]
  cases m <;> simp [opRow, Instr.mnemonic, opField, aField, bField, cField]

theorem lagr (pt : Byte) : Statement (.lagr pt) := by
  intro m
  rw [encode, selectsRow_iff]
  cases m <;> simp [opRow, Instr.mnemonic, opField, aField, bField, cField]

theorem combine (pt : Byte) : Statement (.combine pt) := by
  intro m
  rw [encode, selectsRow_iff]
  cases m <;> simp [opRow, Instr.mnemonic, opField, aField, bField, cField]

end Sys2Proof.Laws.EncodeSelectsRow
end

