-- ==== Sys2Proof/Tests/Slice0.lean ====
section
/-! SUPPORT. Tests. Expected values are those of spec/95_test_vectors.md, at the section named above each test, or the
words of R92 written out by hand. Then one witness for each statement that has hypotheses. -/

namespace Sys2Proof.Tests

open Sys2Proof Sys2Proof.Machine Sys2Proof.Spec

/-! ### Small states -/

/-- After reset, on a part with P_SLOTS = 256 and P_MAXLEN = 16 (the part of L2.2). -/
def small : State := State.resetOf 255 15

/-- The same with the tables ready. -/
def ready : State := small.setTables (.ready expsTable logsTable)

/-- With these events to come. -/
def withEvents (s : State) (l : List Event) : State := s.setSchedule l

/-- With these buffer bytes. -/
def withRam (s : State) (m : Memory) : State := { s with ram := m }

/-- COEF = the bytes given, as `ldcoef` leaves it. -/
def withCoef (bs : List Byte) : State := (ready.setElems 0x0400 bs).setNcoef (BitVec.ofNat 9 bs.length)

/-- XS, YS = the points given, as `ldpts` leaves them. -/
def withPoints (ps : List (Byte × Byte)) : State :=
  ((ready.setXs (ps.map Prod.fst)).setYs (ps.map Prod.snd)).setNpts (BitVec.ofNat 9 ps.length)

/-- Slot `k` = id and payload, as `ldslot` leaves it. -/
def withSlot (s : State) (k : Nat) (id : Byte) (payload : List Byte) : State :=
  ((s.setElem (0x1800 + 4 * k) id).setElem17 (0x1C00 + 4 * k) (BitVec.ofNat 17 payload.length)).setElems
    (0x01000000 + 0x40000 * k) payload

/-- The next state of an outcome. -/
def nextOf (o : Host.Outcome State Fault Refusal) : Option State :=
  match o with
  | .next t => some t
  | .fault _ => none
  | .refused _ => none

/-- What a command leaves: STATUS, ERRINFO and one more word. -/
def ended (o : Host.Outcome State Fault Refusal) (l : Loc) : Option (Word × Word × Word) :=
  (nextOf o).map fun t => (readLoc t .status, readLoc t .errinfo, readLoc t l)

/-- The state after this many steps. -/
def after (n : Nat) (s : State) : Option State := nextOf (Host.Core.run Sys2Proof.core n s)

/-! ### WellFormed: each check refuses -/

theorem test_wellFormed_accepts : (⟨.mul, [2, 0x80]⟩ : Asm).wellFormed = true := by decide

/-- R98: MUL takes two operands. -/
theorem test_arity_refuses :
    (⟨.mul, [2]⟩ : Asm).arityOk = false ∧ (⟨.mul, [2]⟩ : Asm).wellFormed = false ∧
      assemble ⟨.mul, [2]⟩ = none ∧ assemble ⟨.nop, [0]⟩ = none := by decide

/-- R98: an operand is 0..255. -/
theorem test_range_refuses :
    (⟨.eval, [256]⟩ : Asm).rangeOk = false ∧ (⟨.eval, [256]⟩ : Asm).wellFormed = false ∧
      assemble ⟨.eval, [256]⟩ = none ∧ assemble ⟨.eval, [255]⟩ = some 0x0000FF11 := by decide

/-! ### Decoding: one word written out for each constructor (R90, R92; the words of L1 and L2.1) -/

theorem test_decode_nop : decode 0b00000000000000000000000000000000#32 = .ok .nop := by decide

theorem test_decode_init : decode 0b00000000000000000000000000000001#32 = .ok .init := by decide

theorem test_decode_treset : decode 0b00000000000000000000000000000010#32 = .ok .treset := by decide

theorem test_decode_mul :
    decode 0b00000000100000000000001000010000#32 = .ok (.mul 0x02 0x80) := by decide

theorem test_decode_eval : decode 0b00000000000000000000001000010001#32 = .ok (.eval 2) := by decide

theorem test_decode_genpts :
    decode 0b00000010000000110110100000010010#32 = .ok (.genpts 104 3 2) := by decide

theorem test_decode_lagr : decode 0b00000000000000000000010000100000#32 = .ok (.lagr 4) := by decide

theorem test_decode_combine : decode 0b00000000000000000000001100100001#32 = .ok (.combine 3) := by decide

/-- L2.1: the rejected words, by verdict. -/
theorem test_decode_rejects :
    decode 0x00000100 = .error .badCmd ∧ decode 0x01000001 = .error .badCmd ∧
      decode 0x01800210 = .error .badCmd ∧ decode 0x00010011 = .error .badCmd ∧
      decode 0x00FF0020 = .error .badCmd ∧ decode 0x00000003 = .error .badOpcode ∧
      decode 0x00000005 = .error .badOpcode ∧ decode 0x000000FF = .error .badOpcode := by decide

/-- The opcode table's bit numbering: the word itself, bits above `nbits` 0. -/
theorem test_decodeTableWord :
    decodeTableWord 32 0x02036812 = some (.genpts 104 3 2) ∧ decodeTableWord 32 0x22 = none ∧
      decodeTableWord 8 0xFF12 = some (.genpts 0 0 0) := by decide

/-! ### The commands -/

/-- L2.3: NOP from reset ends with STATUS 0x04. -/
theorem test_nop : ended (exec .nop small) .result = some (0x04, 0, 0) := by decide

/-- L2.3, R112: INIT from reset: STATUS 0x05, EXPS[8] = 0x1D. -/
theorem test_init : ended (exec .init small) (.exps 8) = some (0x05, 0, 0x1D) := by decide +kernel

/-- L1.3, L2.2: LOGS[1] = 0xFF, LOGS[0] = 0, LOGS[0x53] = 0xCE, EXPS[255] = 1. -/
theorem test_table_entries :
    readLoc ready (.logs 1) = 0xFF ∧ readLoc ready (.logs 0) = 0 ∧ readLoc ready (.logs 0x53) = 0xCE ∧
      readLoc ready (.exps 255) = 1 := by decide +kernel

/-- L2.3: TRESET: STATUS 0x04, EXPS reads 0. -/
theorem test_treset : ended (exec .treset ready) (.exps 8) = some (0x04, 0, 0) := by decide +kernel

/-- L2.4: 0x53 times 0xCA = 0x8F; L2.3: before INIT, STATUS 0x0C, ERRINFO NOT_READY. -/
theorem test_mul :
    ended (exec (.mul 0x53 0xCA) ready) .result = some (0x05, 0, 0x8F) ∧
      ended (exec (.mul 2 3) small) .result = some (0x0C, 0x03, 0) := by decide +kernel

/-- L2.4: logs that sum to 255 index exps[0]; a zero operand gives 0. -/
theorem test_mul_corners :
    ended (exec (.mul 0x02 0x8E) ready) .result = some (0x05, 0, 0x01) ∧
      ended (exec (.mul 0x00 0x37) ready) .result = some (0x05, 0, 0x00) := by decide +kernel

/-- L2.5: [68, 07] at 2 is 0x66. -/
theorem test_eval : ended (exec (.eval 2) (withCoef [0x68, 0x07])) .result = some (0x05, 0, 0x66) := by
  decide +kernel

/-- L2.5: [01, 00, 07] at 0: LOG_ZERO, INFO 1. -/
theorem test_eval_logZero :
    ended (exec (.eval 0) (withCoef [0x01, 0x00, 0x07])) .result = some (0x0D, 0x00010018, 0) := by
  decide +kernel

/-- L2.6: GENPTS 104, 3, 2 with draws 00, 07 gives YS = 6F, 66, 61 and NPTS = 3. -/
theorem test_genpts :
    (after 5 (withEvents (ready.accept 0x02036812) (exchanges [0, 7] ++ [.engine]))).map
        (fun t => (t.ysAt 0, t.ysAt 1, t.ysAt 2, t.npts.toNat, t.busy)) =
      some (0x6F, 0x66, 0x61, 3, false) := by decide +kernel

/-- L2.6: GENPTS 104, 3, 3 with draws 05, Fail: RNG, INFO 2. -/
theorem test_genpts_fail :
    (after 4 (withEvents (ready.accept 0x03036812) (exchanges [5] ++ [.engine, .rng true 0xFF]))).map
        (fun t => (readLoc t .status, readLoc t .errinfo, readLoc t .npts)) =
      some (0x0D, 0x00020013, 0) := by decide +kernel

/-- R212: `rng_req` rises for each draw of GENPTS 104, 3, 2 and drops at each answer, the discarded 00 too. -/
theorem test_rng_req :
    [0, 1, 2, 3, 4, 5].map (fun n =>
        (after n (withEvents (ready.accept 0x02036812) (exchanges [0, 7] ++ [.engine]))).map State.rngReqPin) =
      [some false, some true, some false, some true, some false, some false] := by decide +kernel

/-- L2.7: (1,6F), (2,66) at 0 is 0x68. -/
theorem test_lagr :
    ended (exec (.lagr 0) (withPoints [(1, 0x6F), (2, 0x66)])) .result = some (0x05, 0, 0x68) := by
  decide +kernel

/-- L2.7: a repeated node: LOG_ZERO at 0, both terms skipped at 2. -/
theorem test_lagr_repeated :
    ended (exec (.lagr 0) (withPoints [(1, 5), (1, 6), (2, 9)])) .result = some (0x0D, 0x18, 0) ∧
      ended (exec (.lagr 2) (withPoints [(1, 5), (1, 6), (2, 9)])) .result = some (0x05, 0, 0x09) := by
  decide +kernel

/-- Slots (1, [00, 00]), (1, [6F, 43]), (2, [66, 3D]). -/
def threeSlots : State :=
  (withSlot (withSlot (withSlot ready 0 1 [0, 0]) 1 1 [0x6F, 0x43]) 2 2 [0x66, 0x3D]).setNslots 3

/-- L1.5: the first occurrence of an id is the one used: SECRET = 22, E0. -/
theorem test_combine :
    (nextOf (exec (.combine 0) threeSlots)).map (fun t => (t.secretAt 0, t.secretAt 1, t.seclen.toNat)) =
      some (0x22, 0xE0, 2) := by decide +kernel

/-- L2.8: (1, [6F, 43]), (2, [66]): LEN_MISMATCH, INFO 1. -/
theorem test_combine_mismatch :
    ended (exec (.combine 0) ((withSlot (withSlot ready 0 1 [0x6F, 0x43]) 1 2 [0x66]).setNslots 2)) .seclen =
      some (0x0D, 0x00010022, 0) := by decide +kernel

/-! ### The bus (L2.2) -/

/-- CAPS of the part P_SLOTS = 256, P_MAXLEN = 16; ID; a misaligned, a reserved and an out-of-range offset. -/
theorem test_bus_read :
    busResponse small (.read 0x0004) = ⟨true, 0x000FFFFF⟩ ∧ busResponse small (.read 0) = ⟨true, 0x53470001⟩ ∧
      busResponse small (.read 0x0002) = ⟨false, 0⟩ ∧ busResponse small (.read 0x0030) = ⟨false, 0⟩ ∧
      busResponse small (.read 0x00800040) = ⟨false, 0⟩ ∧ busResponse small (.read 0x05000000) = ⟨false, 0⟩ := by
  decide

/-- Writes store the low 9 bits (NCOEF) and the low 17 bits (SLOT_LEN); CTRL keeps two bits. -/
theorem test_bus_write :
    busResponse (busStep small (.write 0x0020 0x1234)) (.read 0x0020) = ⟨true, 0x34⟩ ∧
      busResponse (busStep small (.write 0x1C00 0xFFFFFFFF)) (.read 0x1C00) = ⟨true, 0x1FFFF⟩ ∧
      busResponse (busStep small (.write 0x000C 0xFFFFFFFF)) (.read 0x000C) = ⟨true, 0x3⟩ := by decide

/-- BUSY locks RESULT and COEF and drops a CMD write with OVR (L3 P4, branch A). -/
theorem test_bus_busy :
    busResponse (small.accept 0x211) (.read 0x0018) = ⟨false, 0⟩ ∧
      busStep (small.accept 0x211) (.write 0x0400 0x99) = (small.accept 0x211).respond ⟨false, 0⟩ ∧
      (busStep (small.accept 0x211) (.write 0x0014 0x311)).ovr = true ∧
      (busStep (small.accept 0x211) (.write 0x0014 0x311)).eng = .busy 0x211 := by decide +kernel

/-- W1C of DONE; `irq` with CTRL 0x1 and with CTRL 0x2 at STATUS 0x0C. -/
theorem test_bus_status_irq :
    readLoc (busStep (small.raise .notReady 0) (.write 0x0010 0x04)) .status = 0x08 ∧
      ((small.raise .notReady 0).setCtrl 0x2).irq = true ∧ (small.complete.setCtrl 0x2).irq = false ∧
      (small.complete.setCtrl 0x1).irq = true := by decide

/-! ### Host programs (R99) -/

/-- `GENPTS 104, 3, 2; wait` of L3 P2; the source gives 00 and then 07. -/
def sharing : HostRun := .start [.command (.genpts 104 3 2), .wait] ready

/-- The actions left and BUSY after these moves. -/
def left (r : HostRun) (ms : List Move) : Option (List HostOp × Bool) :=
  match r.run ms with
  | .next t => some (t.todo, t.block.busy)
  | .fault _ => none
  | .refused _ => none

/-- `wait` polls on while BUSY = 1: before the engine's turn, with a request outstanding, and between the draws. -/
theorem test_wait_polls_on :
    left sharing [.host, .host, .other .engine, .host, .other (.rng false 0), .host] =
      some ([.poll], true) := by decide +kernel

/-- It ends at the first poll that sees BUSY = 0. -/
theorem test_wait_ends :
    left sharing [.host, .other .engine, .host, .other (.rng false 0), .other .engine, .other (.rng false 7),
      .other .engine, .host] = some ([], false) := by decide +kernel

/-- L3 P4: `rd 0x0002` gets ERR with rdata 0: `rd 0x0002 -> 0` is not met (the model's choice, log 24); `rd 0x0000` with
the ID word is met. -/
theorem test_rd_expectation :
    (HostOp.access (.read 0x0002) (some 0)).met (busStep small (.read 0x0002)).busResp = false ∧
      (HostOp.access (.read 0x0000) (some 0x53470001)).met (busStep small (.read 0x0000)).busResp = true := by
  decide

/-! ### A command word runs as the first instruction after reset -/

theorem test_withFetchWord_runs :
    ended (step (State.reset.withFetchWord 32 0x00030210)) .result = some (0x0C, 0x03, 0) := by decide

theorem test_withFetchWord_badOpcode :
    ended (step (State.reset.withFetchWord 32 0x00000022)) .result = some (0x0C, 0x01, 0) := by decide

/-- GENPTS 0x68, 2, 2 (L2.6) waiting for the answer to its draw, with these events to come. -/
def waiting (l : List Event) : State := withEvents ((ready.accept 0x02026812).startDraws 0x68).request l

/-- GENPTS 0x68, N, T accepted, with these events to come. -/
def accepted (w : Word) (l : List Event) : State := withEvents (ready.accept w) l

/-! ### Witnesses: a state and operands that meet the hypotheses of each statement, one for each clause -/

theorem witness_DecodeAndEncodeAgree :
    decode 0xFFFFFF12 = .ok (.genpts 255 255 255) ∧ decode 0x00000000 = .ok .nop := by decide

theorem witness_ReservedOpcodeCompletesWithBadOpcode :
    small.busy = false ∧ small.rstN = true ∧ small.rngReq = .idle ∧
      opField 0x03 ∉ ([0x00, 0x01, 0x02, 0x10, 0x11, 0x12, 0x20, 0x21] : List Byte) ∧
      opField 0x0F ∉ ([0x00, 0x01, 0x02, 0x10, 0x11, 0x12, 0x20, 0x21] : List Byte) ∧
      opField 0x22 ∉ ([0x00, 0x01, 0x02, 0x10, 0x11, 0x12, 0x20, 0x21] : List Byte) ∧
      opField 0xFFFFFFFF ∉ ([0x00, 0x01, 0x02, 0x10, 0x11, 0x12, 0x20, 0x21] : List Byte) := by decide +kernel

theorem witness_IllegalFieldCompletesWithBadCmd :
    small.busy = false ∧ small.rstN = true ∧ small.rngReq = .idle ∧
      (opField 0x0100 ∈ ([0x00, 0x01, 0x02] : List Byte) ∧ aField 0x0100 ≠ 0) ∧
      (opField 0x80000002 ∈ ([0x00, 0x01, 0x02] : List Byte) ∧ cField 0x80000002 ≠ 0) ∧
      (opField 0x01800210 = 0x10 ∧ cField 0x01800210 ≠ 0) ∧
      (opField 0x00010021 ∈ ([0x11, 0x20, 0x21] : List Byte) ∧ bField 0x00010021 ≠ 0) := by decide +kernel

theorem witness_AssemblerEncodesWrittenCommands : (0 : Nat) ≤ 255 ∧ (255 : Nat) ≤ 255 := by decide

theorem witness_StepRunsTheAcceptedCommand :
    (small.accept 0x01).rstN = true ∧ (small.accept 0x01).eng = .busy 0x01 ∧ decode 0x01 = .ok .init ∧
      (small.accept 0x01).rngReq = .idle ∧ (small.accept 0x01).schedule = [] ∧
      (withEvents (small.accept 0x01) [.engine]).schedule = [.engine] ∧
      (waiting []).rstN = true ∧ (waiting []).eng = .busy 0x02026812 ∧
      decode 0x02026812 = .ok (.genpts 0x68 2 2) ∧ (waiting []).rngReq = .pending ∧
      (waiting []).schedule = [] ∧ (waiting [.engine]).schedule = [.engine] ∧
      (waiting [.rng true 0]).schedule = [.rng true 0] ∧ (waiting [.rng false 0]).schedule = [.rng false 0] :=
  ⟨rfl, rfl, by decide, rfl, rfl, rfl, rfl, rfl, by decide, rfl, rfl, rfl, rfl, rfl⟩

/-- The invariant holds of the reset state of the small part. -/
theorem small_inv : Inv small where
  ramCanonical := rfl
  tablesListed := .inl rfl
  drawInsideGenpts := fun _ h => by cases h
  requestInsideLoop := fun h => by cases h
  icoefCleared := fun _ => rfl
  doneOnlyWhenIdle := fun h => by cases h
  infoOnlyWithIndex := fun _ => rfl
  heldInReset := fun h => by cases h

/-- The invariant holds of a waiting GENPTS. -/
theorem waiting_inv (l : List Event) : Inv (waiting l) where
  ramCanonical := rfl
  tablesListed := .inr rfl
  drawInsideGenpts := by
    intro k h
    cases h
    exact ⟨0x02026812, 0x68, 2, 2, rfl, ⟨by decide, by decide⟩, rfl, by decide, by decide, fun _ => by decide,
      icoefDrawn_start 0x68⟩
  requestInsideLoop := fun _ h => by cases h
  icoefCleared := fun h => by cases h
  doneOnlyWhenIdle := fun _ => rfl
  infoOnlyWithIndex := fun _ => rfl
  heldInReset := fun h => by cases h

theorem witness_StepKeepsInvariant :
    (∃ t, Inv small ∧ step small = .next t) ∧ ∃ t, Inv (waiting [.rng false 1]) ∧
      step (waiting [.rng false 1]) = .next t :=
  ⟨(step_steps small).imp fun _ h => ⟨small_inv, h.1⟩,
    (step_steps (waiting [.rng false 1])).imp fun _ h => ⟨waiting_inv _, h.1⟩⟩

theorem witness_StepKeepsRamInBuffers :
    RamInBuffers (withRam small [(0x1FFE, 1), (0x04FC003C, 7)]) ∧
      ∃ t, step (withRam small [(0x1FFE, 1), (0x04FC003C, 7)]) = .next t := by
  refine ⟨fun cell h => ?_, (step_steps _).imp fun _ h => h.1⟩
  rcases List.mem_cons.1 h with rfl | h
  · exact .inr ⟨255, by decide, .inr (by decide)⟩
  · rcases List.mem_cons.1 h with rfl | h
    · exact .inl ⟨.pay 255 15, by decide, by decide, .inr ⟨255, 15, rfl⟩⟩
    · cases h

theorem witness_ResetPinForcesResetState :
    (withEvents ready [.rst false]).schedule = [.rst false] ∧ (small.setRstN false).rstN = false ∧
      (withEvents (small.setRstN false) [.bus (.read 0)]).schedule = [.bus (.read 0)] ∧
      (withEvents (small.setRstN false) [.engine]).schedule = [.engine] ∧
      (withEvents (small.setRstN false) [.rng true 0]).schedule = [.rng true 0] ∧
      (withEvents (small.setRstN false) [.rst true]).schedule = [.rst true] ∧
      (withEvents (small.setRstN false) [.rst true]).rstN = false ∧
      (withEvents (ready.accept 0x01) [.rng true 0]).rstN = true ∧ (ready.accept 0x01).rngReq = .idle ∧
      (withEvents (ready.accept 0x01) [.rng true 0]).schedule = [.rng true 0] ∧
      (withEvents ready [.engine]).eng = .idle ∧ (withEvents ready [.engine]).schedule = [.engine] := by
  decide +kernel

theorem witness_IdentityRegistersNeverChange : ∃ t, step small = .next t :=
  (step_steps small).imp fun _ h => h.1

theorem witness_IdleCmdWriteIsAccepted :
    (withEvents small [.bus (.write 0x14 0x01)]).rstN = true ∧
      (withEvents small [.bus (.write 0x14 0x01)]).busy = false ∧
      (withEvents small [.bus (.write 0x14 0x01)]).schedule = [.bus (.write 0x14 0x01)] := by decide

theorem witness_BusyCmdWriteIsDropped :
    (small.accept 0x01).rstN = true ∧ (small.accept 0x01).busy = true := by decide

theorem witness_CommandCompletesOrWaits :
    (small.accept 0).busy = true ∧ runCommand 0 (small.accept 0) = .next (small.accept 0).complete ∧
      (waiting []).busy = true := ⟨rfl, rfl, rfl⟩

/-- At an engine's turn (NOT_READY), and at a `Fail` answer. -/
theorem witness_FailedCommandChangesNothingElse :
    ((small.accept 0x10).rstN = true ∧ (small.accept 0x10).busy = true ∧
      (∀ level rest, (small.accept 0x10).schedule ≠ .rst level :: rest) ∧
      step (small.accept 0x10) = .next ((small.accept 0x10).raise .notReady 0) ∧
      ((small.accept 0x10).raise .notReady 0).busy = false ∧
      ((small.accept 0x10).raise .notReady 0).errCode ≠ .ok) ∧
    ((waiting [.rng true 0]).rstN = true ∧ (waiting [.rng true 0]).busy = true ∧
      (∀ level rest, (waiting [.rng true 0]).schedule ≠ .rst level :: rest) ∧
      step (waiting [.rng true 0]) = .next ((waiting []).dropRequest.clearDraws.raise .rng 1) ∧
      ((waiting []).dropRequest.clearDraws.raise .rng 1).busy = false ∧
      ((waiting []).dropRequest.clearDraws.raise .rng 1).errCode ≠ .ok) :=
  ⟨⟨rfl, rfl, fun _ _ h => (by cases h), rfl, rfl, by decide⟩,
    rfl, rfl, fun _ _ h => (by cases h), rfl, rfl, by decide⟩

theorem witness_OnlySuccessfulMulEvalLagrWriteResult :
    (ready.accept 0x00800210).rstN = true ∧
      (∀ level rest, (ready.accept 0x00800210).schedule ≠ .rst level :: rest) ∧
      ∃ t, step (ready.accept 0x00800210) = .next t ∧ t.result ≠ (ready.accept 0x00800210).result := by
  refine ⟨rfl, fun _ _ h => (by cases h), ((ready.accept 0x00800210).setResult 0x1D).complete, ?_, by decide⟩
  have hd : decode 0x00800210 = .ok (.mul 0x02 0x80) := by decide
  have hp : gfMul expsTable logsTable 0x02 0x80 = 0x1D := by decide +kernel
  have h1 : step (ready.accept 0x00800210) = runCommand 0x00800210 (ready.accept 0x00800210) := rfl
  rw [h1, runCommand_ok hd]
  exact (execMul_ready (s := ready.accept 0x00800210) (exps := expsTable) (logs := logsTable) rfl _ _).trans (by rw [hp])

theorem witness_ErrStaysUntilWrittenOrReset :
    (small.raise .notReady 0).rstN = true ∧ (small.raise .notReady 0).err = true ∧
      ∃ t, step (small.raise .notReady 0) = .next t := ⟨rfl, rfl, (step_steps _).imp fun _ h => h.1⟩

theorem witness_CommandsBeforeInitGetNotReady : small.tstate = .uninitialized := rfl

theorem witness_ListedTablesAreExpAndLog :
    (254 < 255) ∧ (0xFF : Byte) ≠ 0 ∧ (1 ≤ 1) ∧ (255 ≤ 255) := by decide

theorem witness_MulWritesTheProduct :
    ready.tstate = .ready expsTable logsTable ∧ ((0 : Byte) = 0 ∨ (0x37 : Byte) = 0) ∧
      ((0x37 : Byte) = 0 ∨ (0 : Byte) = 0) ∧ (0xFF : Byte) ≠ 0 ∧ (0x01 : Byte) ≠ 0 := ⟨rfl, by decide⟩

theorem witness_ProductObeysTheFieldLaws : (0x53 : Byte) ≠ 0 := by decide

/-- NCOEF at its largest legal value with x not 0; NCOEF = 0 with x = 0. -/
theorem witness_EvalWritesThePolynomialValue :
    tablesReady (ready.setNcoef 256) ∧ (ready.setNcoef 256).ncoef.toNat ≤ 256 ∧ (0x01 : Byte) ≠ 0 ∧
      tablesReady ready ∧ ready.ncoef.toNat ≤ 256 ∧
      (∀ k, 1 ≤ k → k < (withCoef [0x68, 0]).ncoef.toNat → (withCoef [0x68, 0]).coef k = 0) := by
  refine ⟨rfl, by decide, by decide, rfl, by decide, fun k h1 h2 => ?_⟩
  have : (withCoef [0x68, 0]).ncoef.toNat = 2 := by decide
  obtain rfl : k = 1 := by omega
  decide

/-- L2.5: [01, 00, 07]: m = 2; [68, 00, 00]; and x = 1. -/
theorem witness_EvalAtZeroRaisesLogZero :
    (withCoef [1, 0, 7]).tstate = .ready expsTable logsTable ∧ (withCoef [1, 0, 7]).ncoef.toNat = 3 ∧
      (withCoef [1, 0, 7]).coef 2 ≠ 0 ∧
      (∀ k, 2 < k → k < (withCoef [1, 0, 7]).ncoef.toNat → (withCoef [1, 0, 7]).coef k = 0) ∧
      (withCoef [0x68, 0, 0]).ncoef.toNat = 3 ∧
      (∀ k, 1 ≤ k → k < 3 → (withCoef [0x68, 0, 0]).coef k = 0) ∧ (1 : Byte) ≠ 0 := by
  have h3 : (withCoef [1, 0, 7]).ncoef.toNat = 3 := by decide
  refine ⟨rfl, h3, by decide, fun k h1 h2 => by omega, by decide, fun k h1 h2 => ?_, by decide⟩
  have hk : k = 1 ∨ k = 2 := by omega
  rcases hk with rfl | rfl <;> decide

theorem witness_CountsOutOfRangeCompleteWithCount :
    ready.tstate = .ready expsTable logsTable ∧ 256 < (ready.setNcoef 257).ncoef.toNat ∧
      256 < (ready.setNpts 300).npts.toNat ∧
      (ready.setNslots 257).slots < (ready.setNslots 257).nslots.toNat := ⟨rfl, by decide⟩

/-- L1.4: N = 1 and 0; N = 3 with T = 1 and 0; N = 2 with T = 3. -/
theorem witness_GenptsChecksItsOperandsInOrder :
    ready.tstate = .ready expsTable logsTable ∧ ready.drawAt = none ∧ (1 : Byte).toNat < 2 ∧
      (0 : Byte).toNat < 2 ∧ 2 ≤ (3 : Byte).toNat ∧ 2 ≤ (2 : Byte).toNat ∧
      (2 : Byte).toNat < (3 : Byte).toNat := ⟨rfl, rfl, by decide⟩

/-- N = T = 2 and N = T = 255 accepted. -/
theorem accepted_ok (l : List Event) :
    genptsAccepted (accepted 0x02026812 l) 0x68 2 2 ∧ genptsAccepted (accepted 0xFFFF6812 l) 0x68 255 255 ∧
      genptsAccepted (accepted 0x03036812 l) 0x68 3 3 :=
  ⟨⟨rfl, ⟨_, rfl, by decide⟩, rfl, by decide, by decide, rfl, rfl⟩,
    ⟨rfl, ⟨_, rfl, by decide⟩, rfl, by decide, by decide, rfl, rfl⟩,
    rfl, ⟨_, rfl, by decide⟩, rfl, by decide, by decide, rfl, rfl⟩

/-- The drawing of N = T = 2 done; N = T = 2 with one answer; N = T = 255 with 254. -/
theorem witness_GenptsWritesTheSharePoints :
    (tablesReady ((waiting []).dropRequest.keepDraw 1 7) ∧ 2 ≤ (2 : Byte).toNat ∧
      (2 : Byte).toNat ≤ (2 : Byte).toNat ∧ ((waiting []).dropRequest.keepDraw 1 7).rngReq = .idle ∧
      ((waiting []).dropRequest.keepDraw 1 7).drawAt = some (2 : Byte).toNat) ∧
    (genptsAccepted (accepted 0x02026812 (exchanges ([] ++ [1]) ++ [.engine])) 0x68 2 2 ∧
      tablesReady (accepted 0x02026812 (exchanges ([] ++ [1]) ++ [.engine])) ∧
      (accepted 0x02026812 (exchanges ([] ++ [1]) ++ [.engine])).schedule = exchanges ([] ++ [1]) ++ .engine :: [] ∧
      (1 : Byte) ≠ 0 ∧ kept [] = (2 : Byte).toNat - 2) ∧
    (∀ l, genptsAccepted (accepted 0xFFFF6812 l) 0x68 255 255) ∧
    kept (List.replicate 253 (1 : Byte)) = (255 : Byte).toNat - 2 :=
  ⟨⟨rfl, by decide, by decide, rfl, rfl⟩, ⟨(accepted_ok _).1, rfl, rfl, by decide, rfl⟩,
    fun l => (accepted_ok l).2.1, by decide +kernel⟩

/-- L2.6: GENPTS 104, 3, 3 with draws 05, Fail. -/
theorem witness_GenptsReportsTheFailedDraw :
    genptsAccepted (accepted 0x03036812 (exchanges [5] ++ [.engine, .rng true 0])) 0x68 3 3 ∧
      (accepted 0x03036812 (exchanges [5] ++ [.engine, .rng true 0])).schedule =
        exchanges [5] ++ .engine :: .rng true 0 :: [] ∧
      kept [5] < (3 : Byte).toNat - 1 :=
  ⟨(accepted_ok _).2.2, rfl, by decide⟩

/-- GENPTS 104, 3, 3: its second request after the draws 00, 05; the answers 00 and then 05. -/
theorem witness_GenptsWaitsForTheSource :
    (genptsAccepted (accepted 0x03036812 (exchanges [0, 5] ++ [.engine])) 0x68 3 3 ∧
      (accepted 0x03036812 (exchanges [0, 5] ++ [.engine])).icoef = icoefZero ∧
      (accepted 0x03036812 (exchanges [0, 5] ++ [.engine])).schedule = exchanges [0, 5] ++ .engine :: [] ∧
      kept [0, 5] < (3 : Byte).toNat - 1) ∧
    (genptsAccepted (accepted 0x03036812 (exchanges [0, 5])) 0x68 3 3 ∧
      (accepted 0x03036812 (exchanges [0, 5])).icoef = icoefZero ∧
      (accepted 0x03036812 (exchanges [0, 5])).schedule = exchanges ([0] ++ [5]) ++ [] ∧
      kept [0] < (3 : Byte).toNat - 1) :=
  ⟨⟨(accepted_ok _).2.2, rfl, rfl, by decide⟩, (accepted_ok _).2.2, rfl, rfl, by decide⟩

/-- A request outstanding; and a GENPTS whose next turn makes its first request, or one after a 00. -/
theorem witness_GenptsResumesWhereItWaited :
    ((waiting []).rstN = true ∧ (waiting []).eng = .busy 0x02026812 ∧ (waiting []).rngReq = .pending ∧
      (waiting [.bus (.read 0x10)]).schedule = .bus (.read 0x10) :: [] ∧
      (waiting [.rng true 0]).schedule = .rng true 0 :: []) ∧
    (decode 0x02026812 = .ok (.genpts 0x68 2 2) ∧ 2 ≤ (2 : Byte).toNat ∧ (2 : Byte).toNat ≤ (2 : Byte).toNat ∧
      (accepted 0x02026812 []).rstN = true ∧ (accepted 0x02026812 []).eng = .busy 0x02026812 ∧
      (accepted 0x02026812 []).rngReq = .idle ∧ (accepted 0x02026812 []).ready = true ∧
      (∀ k, (accepted 0x02026812 []).drawAt = some k → k < (2 : Byte).toNat) ∧
      (waiting []).dropRequest.rstN = true ∧ (waiting []).dropRequest.eng = .busy 0x02026812 ∧
      (waiting []).dropRequest.rngReq = .idle ∧ (waiting []).dropRequest.ready = true ∧
      (∀ k, (waiting []).dropRequest.drawAt = some k → k < (2 : Byte).toNat)) :=
  ⟨⟨rfl, rfl, rfl, rfl, rfl⟩, by decide, by decide, by decide, rfl, rfl, rfl, rfl, fun _ h => (by cases h),
    rfl, rfl, rfl, rfl, fun _ h => (by cases h; decide)⟩

theorem witness_UnansweredGenptsStaysBusy :
    ∃ t, Inv (waiting [.rng false 0, .engine]) ∧ (waiting [.rng false 0, .engine]).rngReq = .pending ∧
      (waiting [.rng false 0, .engine]).drawAt = some 1 ∧
      (waiting [.rng false 0, .engine]).rstN = true ∧
      (∀ e ∈ (waiting [.rng false 0, .engine]).schedule,
        e = .engine ∨ e = .rng false 0 ∨ ∃ op, e = .bus op) ∧
      Host.Core.run Sys2Proof.core 1 (waiting [.rng false 0, .engine]) = .next t := by
  obtain ⟨t, ht, -⟩ := step_steps (waiting [.rng false 0, .engine])
  have hrun : Host.Core.run Sys2Proof.core 1 (waiting [.rng false 0, .engine]) = .next t := by
    have : Sys2Proof.core.step (waiting [.rng false 0, .engine]) = .next t := ht
    simp only [Host.Core.run, this]
  refine ⟨t, waiting_inv _, rfl, rfl, rfl, fun e he => ?_, hrun⟩
  have he' : e ∈ ([.rng false 0, .engine] : List Event) := he
  rcases List.mem_cons.1 he' with h | h
  · exact .inr (.inl h)
  · exact .inl (List.mem_singleton.1 h)

/-- L2.7: points (1,6F), (2,66) at 0. -/
theorem witness_LagrWritesTheInterpolatedValue :
    tablesReady (withPoints [(1, 0x6F), (2, 0x66)]) ∧ (withPoints [(1, 0x6F), (2, 0x66)]).npts.toNat ≤ 256 ∧
      (∀ i, ¬ termReadsLogZero 0 (withPoints [(1, 0x6F), (2, 0x66)]).xsAt (withPoints [(1, 0x6F), (2, 0x66)]).ysAt
        (withPoints [(1, 0x6F), (2, 0x66)]).npts.toNat i) := by
  have hn : (withPoints [(1, 0x6F), (2, 0x66)]).npts.toNat = 2 := by decide
  have hx : ∀ a, a < 2 → ∀ b, b < 2 → (withPoints [(1, 0x6F), (2, 0x66)]).xsAt a =
    (withPoints [(1, 0x6F), (2, 0x66)]).xsAt b → a = b := by decide +kernel
  refine ⟨rfl, by decide, fun i h => ?_⟩
  rw [hn] at h
  obtain ⟨h1, -, -, j, hj1, hj2, hj3⟩ := h
  exact hj2 (hx j hj1 i h1 hj3)

/-- L2.7: points (1,05), (1,06), (2,09) at 0: term 0. (That no term reads logs[0]: the witness above.) -/
theorem witness_LagrReportsTheFirstRepeatedNode :
    (withPoints [(1, 5), (1, 6), (2, 9)]).tstate = .ready expsTable logsTable ∧
      (withPoints [(1, 5), (1, 6), (2, 9)]).npts.toNat ≤ 256 ∧
      termReadsLogZero 0 (withPoints [(1, 5), (1, 6), (2, 9)]).xsAt (withPoints [(1, 5), (1, 6), (2, 9)]).ysAt
        (withPoints [(1, 5), (1, 6), (2, 9)]).npts.toNat 0 ∧
      (∀ i', i' < 0 → ¬ termReadsLogZero 0 (withPoints [(1, 5), (1, 6), (2, 9)]).xsAt
        (withPoints [(1, 5), (1, 6), (2, 9)]).ysAt (withPoints [(1, 5), (1, 6), (2, 9)]).npts.toNat i') := by
  have hn : (withPoints [(1, 5), (1, 6), (2, 9)]).npts.toNat = 3 := by decide
  refine ⟨rfl, by decide, ?_, fun i' h => absurd h (Nat.not_lt_zero i')⟩
  rw [hn]
  refine ⟨by decide, by decide, by decide +kernel, 1, by decide, by decide, by decide⟩

theorem witness_LagrAtANodeGivesItsValue :
    tablesReady (withPoints [(1, 0x6F), (2, 0x66)]) ∧ (withPoints [(1, 0x6F), (2, 0x66)]).npts.toNat = 2 ∧
      (∀ i j, i < 2 → j < 2 → i ≠ j →
        (withPoints [(1, 0x6F), (2, 0x66)]).xsAt i ≠ (withPoints [(1, 0x6F), (2, 0x66)]).xsAt j) := by
  have hx : ∀ i, i < 2 → ∀ j, j < 2 → i ≠ j → (withPoints [(1, 0x6F), (2, 0x66)]).xsAt i ≠
    (withPoints [(1, 0x6F), (2, 0x66)]).xsAt j := by decide +kernel
  exact ⟨rfl, by decide, fun i j hi hj => hx i hi j hj⟩

/-- All 256 nodes; and one node. -/
theorem witness_InterpolationRecoversTheSecret :
    (1 ≤ 256 ∧ ∀ i j, i < 256 → j < 256 → i ≠ j → BitVec.ofNat 8 i ≠ BitVec.ofNat 8 j) ∧
      (1 ≤ 1 ∧ ∀ i j, i < 1 → j < 1 → i ≠ j → (0 : Byte) ≠ 0) := by
  refine ⟨⟨by decide, fun i j hi hj hne h => hne ?_⟩, by decide, fun i j hi hj hne => by omega⟩
  have := congrArg BitVec.toNat h
  simp only [BitVec.toNat_ofNat] at this
  omega

/-- (That every slot passes: the two witnesses below.) One slot (NSLOTS = 1): empty payload; id 0; payload of P_MAXLEN + 1 = 17 (L2.8). -/
theorem witness_CombineReportsTheFirstBadSlot :
    (ready.setNslots 1).tstate = .ready expsTable logsTable ∧
      (ready.setNslots 1).nslots.toNat ≤ (ready.setNslots 1).slots ∧ 0 < (ready.setNslots 1).nslots.toNat ∧
      ((withSlot ready 0 0 []).setNslots 1).slotLenAt 0 = 0 ∧
      ((withSlot ready 0 0 [7]).setNslots 1).slotLenAt 0 ≠ 0 ∧
      ((withSlot ready 0 0 [7]).setNslots 1).slotIdAt 0 = 0 ∧
      ((withSlot ready 0 1 (List.replicate 17 7)).setNslots 1).slotIdAt 0 ≠ 0 ∧
      ready.maxlen < ((withSlot ready 0 1 (List.replicate 17 7)).setNslots 1).slotLenAt 0 := by
  refine ⟨rfl, ?_⟩
  decide +kernel

/-- The slots (1, [6F, 43]), (2, [66]) of L2.8. -/
def mismatched : State := (withSlot (withSlot ready 0 1 [0x6F, 0x43]) 1 2 [0x66]).setNslots 2

theorem witness_CombineReportsTheFirstMismatch :
    mismatched.tstate = .ready expsTable logsTable ∧ mismatched.nslots.toNat ≤ mismatched.slots ∧
      (∀ v, v < mismatched.nslots.toNat → slotPasses mismatched v) ∧
      firstWithId mismatched mismatched.nslots.toNat 1 ∧ mismatched.slotLenAt 1 ≠ mismatched.slotLenAt 0 ∧
      (∀ v, v < 1 → firstWithId mismatched mismatched.nslots.toNat v →
        mismatched.slotLenAt v = mismatched.slotLenAt 0) := by
  have hn : mismatched.nslots.toNat = 2 := by decide
  have hp : ∀ v, v < 2 → mismatched.slotLenAt v ≠ 0 ∧ mismatched.slotIdAt v ≠ 0 ∧
    mismatched.slotLenAt v ≤ mismatched.maxlen := by decide +kernel
  rw [hn]
  refine ⟨rfl, by decide, hp, ⟨by decide, by decide +kernel⟩, by decide +kernel, fun v hv _ => ?_⟩
  obtain rfl : v = 0 := by omega
  rfl

/-- The slots of L1.5's second row; and no slot at all. -/
theorem witness_CombineWritesTheSecret :
    (tablesReady threeSlots ∧ threeSlots.nslots.toNat ≤ threeSlots.slots ∧
      (∀ v, v < threeSlots.nslots.toNat → slotPasses threeSlots v) ∧
      (∀ u, firstWithId threeSlots threeSlots.nslots.toNat u → threeSlots.slotLenAt u = 2) ∧
      (threeSlots.nslots.toNat = 0 → (2 : Nat) = 0)) ∧
    (tablesReady ready ∧ ready.nslots.toNat = 0) := by
  have hn : threeSlots.nslots.toNat = 3 := by decide
  have hp : ∀ v, v < 3 → threeSlots.slotLenAt v ≠ 0 ∧ threeSlots.slotIdAt v ≠ 0 ∧
    threeSlots.slotLenAt v ≤ threeSlots.maxlen := by decide +kernel
  have hl : ∀ v, v < 3 → threeSlots.slotLenAt v = 2 := by decide +kernel
  rw [hn]
  exact ⟨⟨rfl, by decide, hp, fun u hu => hl u hu.1, by decide⟩, rfl, by decide⟩

/-- A misaligned offset, and the reserved offset 0x0030. -/
theorem witness_MisalignedOrUnmappedGetsErr :
    (0x0002 : Word).toNat % 4 ≠ 0 ∧
      (∀ l : Loc, l.mapped small.slots small.maxlen = true → (0x0030 : Word).toNat ≠ l.offset) := by
  refine ⟨by decide, fun l _ => ?_⟩
  have h : (0x0030 : Word).toNat = 48 := by decide
  rw [h]
  cases l <;> simp only [Loc.offset] <;> omega

/-- The largest part and its last payload byte; the smallest part. -/
theorem witness_AddressMapIsOneToOne :
    (Loc.pay 255 65535).mapped 256 65536 = true ∧ locate 256 65536 0x04FFFFFC = some (.pay 255 65535) ∧
      0x04FFFFFC % 4 = 0 ∧ (Loc.secret 0).mapped 1 1 = true := by decide

theorem witness_ReadOnlyWriteGetsErr :
    Loc.seclen ∈ ([.id, .caps, .poly, .result, .errinfo, .seclen] : List Loc) ∧
      (Loc.exps 255).mapped small.slots small.maxlen = true ∧
      (Loc.logs 0).mapped small.slots small.maxlen = true ∧
      (Loc.secret 15).mapped small.slots small.maxlen = true := by decide

theorem witness_BusyLocksOperandsAndResults :
    (small.accept 0x01).busy = true ∧ (small.accept 0x01).rstN = true ∧
      (Loc.coef 255).mapped (small.accept 0x01).slots (small.accept 0x01).maxlen = true ∧
      Loc.coef 255 ∉ ([.id, .caps, .poly, .ctrl, .status, .cmd] : List Loc) ∧
      Loc.cmd ∈ ([.id, .caps, .poly, .ctrl, .status, .cmd] : List Loc) := by decide

theorem witness_ReadsReturnTheLocationAndChangeNothing :
    (withEvents small [.bus (.read 0x0404)]).rstN = true ∧ (withEvents small [.bus (.read 0x0404)]).busy = false ∧
      (Loc.coef 1).mapped small.slots small.maxlen = true ∧
      (Loc.secret 15).mapped small.slots small.maxlen = true ∧
      (withEvents small [.bus (.read 0x0404)]).schedule =
        .bus (.read (BitVec.ofNat 32 (Loc.coef 1).offset)) :: [] := by decide

theorem witness_ByteElementReadsBackWhatWasWritten :
    small.rstN = true ∧ small.busy = false ∧ (Loc.coef 0).mapped small.slots small.maxlen = true ∧
      (Loc.ys 255).mapped small.slots small.maxlen = true ∧
      (Loc.slotId 255).mapped small.slots small.maxlen = true ∧
      (Loc.pay 255 15).mapped small.slots small.maxlen = true := by decide

theorem witness_SlotLenReadsBackWhatWasWritten :
    small.rstN = true ∧ small.busy = false ∧ 0 < small.slots ∧ 255 < small.slots := by decide

/-- Also for CountRegistersStoreNineBits and ControlAndStatusRegistersAsLaidOut. -/
theorem witness_CountRegistersStoreNineBits : small.rstN = true ∧ small.busy = false := by decide

theorem witness_ControlAndStatusRegistersAsLaidOut :
    small.rstN = true ∧ (small.accept 0x01).rstN = true := by decide

theorem witness_TableWindowsReadTheTables :
    ready.rstN = true ∧ ready.busy = false ∧ 255 < 256 ∧ ready.tstate = .ready expsTable logsTable ∧
      small.rstN = true ∧ small.busy = false ∧ small.tstate = .uninitialized ∧
      (ready.accept 0x01).rstN = true ∧ (ready.accept 0x01).busy = true :=
  ⟨rfl, rfl, by decide, rfl, rfl, rfl, rfl, rfl, rfl⟩

theorem witness_OnlyInitAndTresetChangeTstate :
    (ready.accept 0x02).rstN = true ∧ (∀ level rest, (ready.accept 0x02).schedule ≠ .rst level :: rest) ∧
      step (ready.accept 0x02) = .next ((ready.accept 0x02).setTables .uninitialized).complete ∧
      ((ready.accept 0x02).setTables .uninitialized).complete.tstate ≠ (ready.accept 0x02).tstate :=
  ⟨rfl, fun _ _ h => (by cases h), rfl, fun h => by cases h⟩

/-- The longest list, and the empty one. -/
theorem witness_LdcoefLoadsTheCoefficients :
    (List.replicate 256 (1 : Byte)).length ≤ 256 ∧
      (withEvents small (HostStmt.ldcoef (List.replicate 256 1)).events).schedule =
        (HostStmt.ldcoef (List.replicate 256 1)).events ++ [] ∧
      (withEvents small (HostStmt.ldcoef []).events).schedule = (HostStmt.ldcoef []).events ++ [] ∧
      small.rstN = true ∧ small.busy = false :=
  ⟨(List.length_replicate ..).le, (List.append_nil _).symm, rfl, rfl, rfl⟩

end Sys2Proof.Tests
end

/-! Proofs of the statements of 10_state.md: what the steps of the block keep, and how its registers read and write. -/

namespace Sys2Proof.Machine

/-! ### What an engine turn and an answer leave unchanged -/

/-- The fields that no command and no answer of the random source touches: the parameters of the part (R23), CTRL
(R24), OVR (R69), the counts the host sets (R29) and the ports. -/
structure SameBehindTheEngine (s t : State) : Prop where
  slotsM1 : t.slotsM1 = s.slotsM1
  maxlenM1 : t.maxlenM1 = s.maxlenM1
  ieDone : t.ieDone = s.ieDone
  ieErr : t.ieErr = s.ieErr
  ovr : t.ovr = s.ovr
  ncoef : t.ncoef = s.ncoef
  nslots : t.nslots = s.nslots
  rstN : t.rstN = s.rstN
  busResp : t.busResp = s.busResp
  ramEpoch : t.ramEpoch = s.ramEpoch
  schedule : t.schedule = s.schedule

theorem Ends.behind {cmd : Except Verdict Instr} {s t : State} (h : Ends cmd s t) : SameBehindTheEngine s t := by
  cases h with
  | points secret n thr k ys => constructor <;> simp
  | _ => exact ⟨rfl, rfl, rfl, rfl, rfl, rfl, rfl, rfl, rfl, rfl, rfl⟩

theorem takeDraw_behind (a : RngAnswer) (s : State) : SameBehindTheEngine s (takeDraw a s) := by
  rcases takeDraw_cases a s with ⟨-, h⟩ | ⟨k, b, -, -, -, h⟩ | ⟨k, -, -, h⟩ <;> rw [h] <;>
    exact ⟨rfl, rfl, rfl, rfl, rfl, rfl, rfl, rfl, rfl, rfl, rfl⟩

/-- An answer does not write RESULT (R27). -/
theorem takeDraw_result (a : RngAnswer) (s : State) : (takeDraw a s).result = s.result := by
  rcases takeDraw_cases a s with ⟨-, h⟩ | ⟨k, b, -, -, -, h⟩ | ⟨k, -, -, h⟩ <;> rw [h] <;> rfl

/-- An answer does not write TSTATE (R31). -/
theorem takeDraw_tstate (a : RngAnswer) (s : State) : (takeDraw a s).tstate = s.tstate := by
  rcases takeDraw_cases a s with ⟨-, h⟩ | ⟨k, b, -, -, -, h⟩ | ⟨k, -, -, h⟩ <;> rw [h] <;> rfl

/-- The RESULT rule of R27 for one command: MUL, EVAL and LAGR write it, and only when they complete. -/
theorem Ends.result_eq_or {cmd : Except Verdict Instr} {s t : State} (h : Ends cmd s t) :
    t.result = s.result ∨ t.errCode = .ok ∧
      ((∃ a b, cmd = .ok (.mul a b)) ∨ (∃ x, cmd = .ok (.eval x)) ∨ ∃ pt, cmd = .ok (.lagr pt)) := by
  cases h with
  | result v hcmd => exact .inr ⟨rfl, hcmd⟩
  | points => exact .inl (by simp)
  | _ => exact .inl rfl

/-- The TSTATE rule of R31 for one command: INIT and TRESET change it. -/
theorem Ends.tstate_eq_or {cmd : Except Verdict Instr} {s t : State} (h : Ends cmd s t) :
    t.tstate = s.tstate ∨ cmd = .ok .init ∨ cmd = .ok .treset := by
  cases h with
  | init hcmd => exact .inr (.inl hcmd)
  | treset hcmd => exact .inr (.inr hcmd)
  | points => exact .inl (by simp)
  | _ => exact .inl rfl

/-! ### The reset pin -/

/-- A level of the pin changes nothing (it stays 1), or the block takes the reset state (R240). -/
theorem setRstN_cases (s : State) (level : Bool) :
    (s.rstN = true ∧ s.setRstN level = s) ∨ s.setRstN level = { s.takeReset with rstN := level } := by
  unfold State.setRstN
  cases h : level && s.rstN with
  | true => exact .inl ⟨(Bool.and_eq_true_iff.1 h).2, rfl⟩
  | false => exact .inr rfl

/-- The state of R43 with the pin low is the one reset holds (R240). -/
theorem heldInReset_takeReset (s : State) (level : Bool) : HeldInReset { s.takeReset with rstN := level } := by
  intro h
  cases h
  rfl

theorem heldInReset_of_released {s : State} (h : s.rstN = true) : HeldInReset s := by
  intro h'
  rw [h] at h'
  cases h'

/-- The response and the events to come are outside the reset state, so a change of them keeps it. -/
theorem HeldInReset.setSchedule {s : State} (h : HeldInReset s) (rest : List Event) :
    HeldInReset (s.setSchedule rest) :=
  fun hr => congrArg (·.setSchedule rest) (h hr)

theorem HeldInReset.respond {s : State} (h : HeldInReset s) (r : BusResp) : HeldInReset (s.respond r) :=
  fun hr => congrArg (·.respond r) (h hr)

/-! ### When a state meets the invariant -/

/-- With no command in its loop (R151) and the engine idle, the clauses on draws and on DONE hold at once. -/
theorem inv_of_idle {t : State} (hram : RamCanonical t) (htables : TablesListed t) (hinfo : InfoOnlyWithIndex t)
    (hheld : HeldInReset t) (heng : t.eng = .idle) (hreq : t.rngReq = .idle) (hdraw : t.drawAt = none)
    (hicoef : t.icoef = icoefZero) : Inv t where
  ramCanonical := hram
  tablesListed := htables
  drawInsideGenpts k hk := by rw [hdraw] at hk; cases hk
  requestInsideLoop hp := by rw [hreq] at hp; cases hp
  icoefCleared _ := hicoef
  doneOnlyWhenIdle hb := by rw [State.busy, heng] at hb; cases hb
  infoOnlyWithIndex := hinfo
  heldInReset := hheld

/-- Inside the loop of R151 the clauses on an idle random-source port and a cleared ICOEF say nothing. -/
theorem inv_of_drawing {t : State} {k : Nat} (hram : RamCanonical t) (htables : TablesListed t)
    (hinfo : InfoOnlyWithIndex t) (hrst : t.rstN = true) (hdone : t.done = false) (hdraw : t.drawAt = some k)
    (hinside : DrawInsideGenpts t) : Inv t where
  ramCanonical := hram
  tablesListed := htables
  drawInsideGenpts := hinside
  requestInsideLoop _ := by simp [hdraw]
  icoefCleared hn := by rw [hdraw] at hn; cases hn
  doneOnlyWhenIdle _ := hdone
  infoOnlyWithIndex := hinfo
  heldInReset := heldInReset_of_released hrst

/-! ### Facts of a state that meets the invariant -/

/-- While a word other than a GENPTS runs, no draw is in progress. -/
theorem Inv.drawAt_eq_none {s : State} (h : Inv s) {w : Word} (heng : s.eng = .busy w)
    (hcmd : ∀ secret n thr, decode w ≠ .ok (.genpts secret n thr)) : s.drawAt = none := by
  cases hd : s.drawAt with
  | none => rfl
  | some k =>
    obtain ⟨w', secret, n, thr, heng', ⟨hgen, -⟩, -⟩ := h.drawInsideGenpts k hd
    cases heng.symm.trans heng'
    exact absurd hgen (hcmd secret n thr)

/-- While the engine is idle no draw is in progress. -/
theorem Inv.drawAt_eq_none_of_idle {s : State} (h : Inv s) (hb : s.busy = false) : s.drawAt = none := by
  cases hd : s.drawAt with
  | none => rfl
  | some k =>
    obtain ⟨w, secret, n, thr, heng, -⟩ := h.drawInsideGenpts k hd
    rw [State.busy, heng] at hb
    cases hb

theorem Inv.done_eq_false {s : State} (h : Inv s) {w : Word} (heng : s.eng = .busy w) : s.done = false :=
  h.doneOnlyWhenIdle (by rw [State.busy, heng])

/-- INFO is 0 with the code of a successful completion (R202), so one keeps the clause on INFO. -/
theorem infoOnlyWithIndex_complete (s : State) : InfoOnlyWithIndex s.complete := fun _ => rfl

theorem infoOnlyWithIndex_raise (s : State) {code : Code} {info : Nat}
    (h : code.hasIndex = false → info = 0) : InfoOnlyWithIndex (s.raise code info) :=
  fun hc => by rw [State.raise_errInfo, h hc]; rfl

/-! ### Every step keeps the invariant -/

/-- The passing of an event. -/
theorem Inv.setSchedule {s : State} (h : Inv s) (rest : List Event) : Inv (s.setSchedule rest) where
  ramCanonical := h.ramCanonical
  tablesListed := h.tablesListed
  drawInsideGenpts := h.drawInsideGenpts
  requestInsideLoop := h.requestInsideLoop
  icoefCleared := h.icoefCleared
  doneOnlyWhenIdle := h.doneOnlyWhenIdle
  infoOnlyWithIndex := h.infoOnlyWithIndex
  heldInReset := h.heldInReset.setSchedule rest

/-- A response on the bus. -/
theorem Inv.respond {s : State} (h : Inv s) (r : BusResp) : Inv (s.respond r) where
  ramCanonical := h.ramCanonical
  tablesListed := h.tablesListed
  drawInsideGenpts := h.drawInsideGenpts
  requestInsideLoop := h.requestInsideLoop
  icoefCleared := h.icoefCleared
  doneOnlyWhenIdle := h.doneOnlyWhenIdle
  infoOnlyWithIndex := h.infoOnlyWithIndex
  heldInReset := h.heldInReset.respond r

/-- A host write keeps the form of the RAM. -/
theorem ramCanonical_writeLoc {s : State} (h : RamCanonical s) (d : Word) (l : Loc) :
    RamCanonical (writeLoc s d l) := by
  cases l with
  | coef i | xs i | ys i | slotId i | pay slot j => exact Memory.wf_write _ _ h
  | slotLen slot => exact Memory.wf_write _ _ (Memory.wf_write _ _ (Memory.wf_write _ _ h))
  | cmd =>
    simp only [writeLoc, cmdWrite]
    split <;> exact h
  | _ => exact h

/-- The loop of R151 is seen through the fields `drawAt`, `eng`, `tstate`, `rngReq` and `icoef` alone. -/
theorem DrawInsideGenpts.congr {s t : State} (h : DrawInsideGenpts s) (hdraw : t.drawAt = s.drawAt)
    (heng : t.eng = s.eng) (htables : t.tstate = s.tstate) (hreq : t.rngReq = s.rngReq)
    (hicoef : t.icoef = s.icoef) : DrawInsideGenpts t := by
  simpa only [DrawInsideGenpts, State.ready, hdraw, heng, htables, hreq, hicoef] using h

/-- A host transaction: outside reset a write may change ENG only from idle, where no draw is in progress. -/
theorem Inv.busStep {s : State} (h : Inv s) (op : BusOp) : Inv (busStep s op) := by
  rcases busEffect_cases s op with heq | ⟨addr, d, l, -, hreach, -, heq⟩
  · rw [Machine.busStep, heq]
    exact h.respond _
  · have hrst : s.rstN = true := (reachable_some hreach).1
    have hb := busStep_behind s op
    have hdraws : DrawInsideGenpts (Machine.busStep s op) := by
      rcases busStep_eng s op with ⟨heng, -⟩ | ⟨hidle, -⟩
      · exact h.drawInsideGenpts.congr hb.drawAt heng hb.tstate hb.rngReq hb.icoef
      · intro k hk
        rw [hb.drawAt, h.drawAt_eq_none_of_idle hidle] at hk
        cases hk
    have hdone : DoneOnlyWhenIdle (Machine.busStep s op) := by
      intro hbusy
      rcases busStep_eng s op with ⟨heng, hmono⟩ | ⟨-, hdone⟩
      · have : s.done = false := h.doneOnlyWhenIdle (by rwa [State.busy, heng] at hbusy)
        exact Bool.eq_false_iff.2 fun ht => by simp [hmono ht] at this
      · exact hdone
    exact
      { ramCanonical := by
          rw [Machine.busStep, heq]
          exact ramCanonical_writeLoc h.ramCanonical d l
        tablesListed := by rw [TablesListed, hb.tstate]; exact h.tablesListed
        drawInsideGenpts := hdraws
        requestInsideLoop := by rw [RequestInsideLoop, hb.rngReq, hb.drawAt]; exact h.requestInsideLoop
        icoefCleared := by rw [IcoefCleared, hb.drawAt, hb.icoef]; exact h.icoefCleared
        doneOnlyWhenIdle := hdone
        infoOnlyWithIndex := by
          rw [InfoOnlyWithIndex, hb.errCode, hb.errInfo]
          exact h.infoOnlyWithIndex
        heldInReset := heldInReset_of_released (hb.rstN.trans hrst) }

/-- The reset pin. -/
theorem Inv.setRstN {s : State} (h : Inv s) (level : Bool) : Inv (s.setRstN level) := by
  rcases setRstN_cases s level with ⟨-, heq⟩ | heq <;> rw [heq]
  · exact h
  · exact inv_of_idle rfl (.inl rfl) (fun _ => rfl) (heldInReset_takeReset s level) rfl rfl rfl rfl

/-- An answer to the outstanding request: the loop stays at `k`, goes on to `k + 1`, or is over (R151, R212). -/
theorem Inv.takeDraw {s : State} (h : Inv s) {w : Word} (hrst : s.rstN = true) (heng : s.eng = .busy w)
    (hreq : s.rngReq = .pending) (a : RngAnswer) : Inv (takeDraw a s) := by
  have hdone := h.done_eq_false heng
  obtain ⟨k, hk⟩ := Option.ne_none_iff_exists'.1 (h.requestInsideLoop hreq)
  obtain ⟨w, secret, n, thr, heng, hgen, hready, hk1, -, hlt, hicoef⟩ := h.drawInsideGenpts k hk
  have hkt : k < thr.toNat := hlt hreq
  rcases takeDraw_cases a s with ⟨-, heq⟩ | ⟨k', b, hk', -, hb, heq⟩ | ⟨k', -, -, heq⟩ <;> rw [heq]
  · refine inv_of_drawing h.ramCanonical h.tablesListed h.infoOnlyWithIndex hrst hdone hk fun j hj => ?_
    cases hk.symm.trans hj
    exact ⟨w, secret, n, thr, heng, hgen, hready, hk1, hkt.le, nofun, hicoef⟩
  · cases hk.symm.trans hk'
    refine inv_of_drawing h.ramCanonical h.tablesListed h.infoOnlyWithIndex hrst hdone rfl fun j hj => ?_
    cases hj
    have hk255 : k < 255 := by have := thr.isLt; omega
    exact ⟨w, secret, n, thr, heng, hgen, hready, by omega, hkt, nofun, icoefDrawn_next hk1 hk255 hb hicoef⟩
  · exact inv_of_idle h.ramCanonical h.tablesListed (infoOnlyWithIndex_raise _ nofun)
      (heldInReset_of_released hrst) rfl rfl rfl rfl

/-- The accepted word runs. Every ending but those inside the loop of R151 leaves the engine idle; a word other than a
GENPTS finds no draw in progress and leaves it so. -/
theorem Inv.ends {s t : State} (h : Inv s) {w : Word} (hrst : s.rstN = true) (heng : s.eng = .busy w)
    (hreq : s.rngReq = .idle) (hends : Ends (decode w) s t) : Inv t := by
  have hdone := h.done_eq_false heng
  have hheld : HeldInReset t := heldInReset_of_released (hends.behind.rstN.trans hrst)
  have hnodraw (hcmd : ∀ secret n thr, decode w ≠ .ok (.genpts secret n thr)) :
      s.drawAt = none ∧ s.icoef = icoefZero :=
    ⟨h.drawAt_eq_none heng hcmd, h.icoefCleared (h.drawAt_eq_none heng hcmd)⟩
  cases hends with
  | failed code info _ hinfo hcmd =>
    obtain ⟨hdraw, hicoef⟩ := hnodraw hcmd
    exact inv_of_idle h.ramCanonical h.tablesListed (infoOnlyWithIndex_raise _ hinfo) hheld rfl hreq hdraw hicoef
  | rejected code =>
    exact inv_of_idle h.ramCanonical h.tablesListed (infoOnlyWithIndex_raise _ fun _ => rfl) hheld rfl hreq rfl rfl
  | nop hcmd =>
    obtain ⟨hdraw, hicoef⟩ := hnodraw (by rw [hcmd]; nofun)
    exact inv_of_idle h.ramCanonical h.tablesListed (infoOnlyWithIndex_complete _) hheld rfl hreq hdraw hicoef
  | init hcmd =>
    obtain ⟨hdraw, hicoef⟩ := hnodraw (by rw [hcmd]; nofun)
    exact inv_of_idle h.ramCanonical (.inr rfl) (infoOnlyWithIndex_complete _) hheld rfl hreq hdraw hicoef
  | treset hcmd =>
    obtain ⟨hdraw, hicoef⟩ := hnodraw (by rw [hcmd]; nofun)
    exact inv_of_idle h.ramCanonical (.inl rfl) (infoOnlyWithIndex_complete _) hheld rfl hreq hdraw hicoef
  | result v hcmd =>
    obtain ⟨hdraw, hicoef⟩ := hnodraw (by rcases hcmd with ⟨a, b, hc⟩ | ⟨x, hc⟩ | ⟨pt, hc⟩ <;> rw [hc] <;> nofun)
    exact inv_of_idle h.ramCanonical h.tablesListed (infoOnlyWithIndex_complete _) hheld rfl hreq hdraw hicoef
  | secret bytes _ hcmd =>
    obtain ⟨pt, hc⟩ := hcmd
    obtain ⟨hdraw, hicoef⟩ := hnodraw (by rw [hc]; nofun)
    exact inv_of_idle (Memory.wf_writeElems _ _ h.ramCanonical) h.tablesListed (infoOnlyWithIndex_complete _) hheld
      rfl hreq hdraw hicoef
  | points secret n thr k ys =>
    exact inv_of_idle (Memory.wf_writeElems _ _ (Memory.wf_writeElems _ _ h.ramCanonical))
      (by simpa [TablesListed] using h.tablesListed)
      (infoOnlyWithIndex_complete _) hheld rfl (by simpa using hreq) rfl rfl
  | starts secret n thr hcmd hready hdraw hcheck =>
    refine inv_of_drawing h.ramCanonical h.tablesListed h.infoOnlyWithIndex hrst hdone rfl fun j hj => ?_
    cases hj
    have hthr : 2 ≤ thr.toNat := (genptsCheck_none.1 hcheck).1
    have hicoef : IcoefDrawn (icoefSet s.icoef 0 secret) secret 1 := by
      rw [h.icoefCleared hdraw]
      exact icoefDrawn_start secret
    exact ⟨w, secret, n, thr, heng, ⟨hcmd, hcheck⟩, hready, le_rfl, by omega, fun _ => by omega, hicoef⟩
  | requests secret n thr k hcmd hdraw hk =>
    obtain ⟨w', secret', n', thr', heng', ⟨hgen, hcheck⟩, hready, hk1, hle, -, hicoef⟩ := h.drawInsideGenpts k hdraw
    cases heng.symm.trans heng'
    cases hcmd.symm.trans hgen
    refine inv_of_drawing h.ramCanonical h.tablesListed h.infoOnlyWithIndex hrst hdone hdraw fun j hj => ?_
    cases hdraw.symm.trans hj
    exact ⟨w, secret, n, thr, heng, ⟨hcmd, hcheck⟩, hready, hk1, hle, fun _ => hk, hicoef⟩
  | waits => exact h

/-- Settles O9: one lemma per kind of step. -/
theorem stepKeepsInvariant : Obligations.StepKeepsInvariant := by
  intro s t h hstep
  cases steps_of_step hstep with
  | passes rest => exact h.setSchedule rest
  | bus op rest => exact (h.setSchedule rest).busStep op
  | rst level rest => exact (h.setSchedule rest).setRstN level
  | answers w fail data rest hrst _ heng hreq => exact (h.setSchedule rest).takeDraw hrst heng hreq _
  | runs w rest t hrst _ heng hreq _ hends => exact (h.setSchedule rest).ends hrst heng hreq hends

/-- Settles O10: reset leaves an idle engine and no draw. -/
theorem resetMeetsInvariant : Obligations.ResetMeetsInvariant :=
  inv_of_idle rfl (.inl rfl) (fun _ => rfl) (heldInReset_of_released rfl) rfl rfl rfl rfl

/-! ### What no step changes (R21 to R23, R27, R31) -/

/-- A level of the pin keeps the parameters of the part (R23). -/
theorem setRstN_parameters (s : State) (level : Bool) :
    (s.setRstN level).slotsM1 = s.slotsM1 ∧ (s.setRstN level).maxlenM1 = s.maxlenM1 := by
  rcases setRstN_cases s level with ⟨-, h⟩ | h <;> rw [h] <;> exact ⟨rfl, rfl⟩

/-- No step changes the parameters of the part (R23). -/
theorem step_parameters {s t : State} (h : step s = .next t) :
    t.slotsM1 = s.slotsM1 ∧ t.maxlenM1 = s.maxlenM1 := by
  cases steps_of_step h with
  | passes rest => exact ⟨rfl, rfl⟩
  | bus op rest =>
    have hb := busStep_behind (s.setSchedule rest) op
    exact ⟨hb.slotsM1, hb.maxlenM1⟩
  | rst level rest => exact setRstN_parameters (s.setSchedule rest) level
  | answers w fail data rest =>
    have hb := takeDraw_behind (portAnswer fail data) (s.setSchedule rest)
    exact ⟨hb.slotsM1, hb.maxlenM1⟩
  | runs w rest t _ _ _ _ _ hends => exact ⟨hends.behind.slotsM1, hends.behind.maxlenM1⟩

/-- Settles O14: ID and POLY are constants, and CAPS reads the parameters of the part. -/
theorem identityRegistersNeverChange : Obligations.IdentityRegistersNeverChange := by
  intro s t h
  obtain ⟨hslots, hmaxlen⟩ := step_parameters h
  exact ⟨rfl, rfl, by rw [readLoc, readLoc, State.capsWord, State.capsWord, hslots, hmaxlen]⟩

/-- With no change of the reset pin, a step that changes RESULT or TSTATE runs the accepted word. -/
theorem step_keeps_or_runs {s t : State} (hrst : ∀ level rest, s.schedule ≠ .rst level :: rest)
    (h : step s = .next t) :
    (t.result = s.result ∧ t.tstate = s.tstate) ∨
      ∃ w rest, s.eng = .busy w ∧ Ends (decode w) (s.setSchedule rest) t := by
  cases steps_of_step h with
  | passes rest => exact .inl ⟨rfl, rfl⟩
  | bus op rest =>
    have hb := busStep_behind (s.setSchedule rest) op
    exact .inl ⟨hb.result, hb.tstate⟩
  | rst level rest hs => exact absurd hs (hrst level rest)
  | answers w fail data rest => exact .inl ⟨takeDraw_result _ _, takeDraw_tstate _ _⟩
  | runs w rest t _ _ heng _ _ hends => exact .inr ⟨w, rest, heng, hends⟩

/-- A write to RESULT gets ERR, wherever the block stands (R27, R65, R68, R240). -/
theorem result_write_rejected (s : State) (d : Word) :
    busResponse s (.write 0x18 d) = ⟨false, 0⟩ ∧ busEffect s (.write 0x18 d) = s := by
  cases h : reachable s 0x18 with
  | none => exact ⟨by simp only [busResponse, h, errResp], by simp only [busEffect, h]⟩
  | some l =>
    have hl : l = .result := by
      have hoff : l.offset = Loc.result.offset := (reachable_some h).2.1
      have hreg := regionAt_offset s.slots_le s.maxlen_le (reachable_some h).2.2.1
      rw [hoff] at hreg
      exact (Option.some.inj hreg).symm
    subst hl
    exact ⟨by simp only [busResponse, h, Loc.readOnly, errResp, if_true],
      by simp only [busEffect, h, Loc.readOnly, if_true]⟩

/-- Settles O19: RESULT is read-only on the bus, and the only endings that write it are those of MUL, EVAL and LAGR. -/
theorem onlySuccessfulMulEvalLagrWriteResult : Obligations.OnlySuccessfulMulEvalLagrWriteResult := by
  refine ⟨rfl, fun s => rfl, result_write_rejected, fun s t _ hrst hstep hne => ?_⟩
  rcases step_keeps_or_runs hrst hstep with ⟨hres, -⟩ | ⟨w, rest, heng, hends⟩
  · exact absurd hres hne
  · rcases hends.result_eq_or with hres | ⟨hok, hcmd⟩
    · exact absurd hres hne
    · exact ⟨hok, w, heng, hcmd⟩

/-- Settles O59: the only endings that write TSTATE are those of INIT and TRESET. -/
theorem onlyInitAndTresetChangeTstate : Obligations.OnlyInitAndTresetChangeTstate := by
  intro s t _ hrst hstep hne
  rcases step_keeps_or_runs hrst hstep with ⟨-, hts⟩ | ⟨w, rest, heng, hends⟩
  · exact absurd hts hne
  · exact ⟨w, heng, hends.tstate_eq_or.resolve_left hne⟩

/-! ### Reading back what was written (R65) -/

/-- A read of a location it reaches returns OKAY and the word there (R65). -/
theorem busResponse_read {s : State} {addr : Word} {l : Loc} (h : reachable s addr = some l) :
    busResponse s (.read addr) = ⟨true, readLoc s l⟩ := by
  simp only [busResponse, h, okayResp]

/-- The low `n` bits, zero-extended, are the word under the mask of `n` ones. -/
theorem setWidth_setWidth_eq_and (d : Word) {n : Nat} (hn : n ≤ 32) :
    (d.setWidth n).setWidth 32 = d &&& BitVec.ofNat 32 (2 ^ n - 1) := by
  have h1 : 2 ^ n ≤ 2 ^ 32 := Nat.pow_le_pow_right (by omega) hn
  have h2 : 0 < 2 ^ n := Nat.two_pow_pos n
  have hmask : (2 ^ n - 1) % 2 ^ 32 = 2 ^ n - 1 := Nat.mod_eq_of_lt (by omega)
  have hlow : d.toNat % 2 ^ n < 2 ^ 32 := (Nat.mod_lt _ h2).trans_le h1
  apply BitVec.eq_of_toNat_eq
  rw [BitVec.toNat_setWidth, BitVec.toNat_setWidth, BitVec.toNat_and, BitVec.toNat_ofNat, hmask,
    Nat.and_two_pow_sub_one_eq_mod, Nat.mod_eq_of_lt hlow]

/-- A read does not see the last response. -/
theorem readLoc_respond (s : State) (r : BusResp) (l : Loc) : readLoc (s.respond r) l = readLoc s l := by
  cases l <;> rfl

/-- A write to a writable register that is not locked: the write and its OKAY; and a read of the same offset then
returns the register's new word (R65, R68, R70). -/
theorem busStep_write_then_read {s : State} {l : Loc} (d : Word) (hrst : s.rstN = true)
    (hm : l.mapped s.slots s.maxlen = true) (hlock : (s.busy && l.locked) = false) (hr : l.readOnly = false)
    (hbusy : (writeLoc s d l).busy = s.busy) :
    busStep s (.write (BitVec.ofNat 32 l.offset) d) = (writeLoc s d l).respond ⟨true, 0⟩ ∧
    busResponse (busStep s (.write (BitVec.ofNat 32 l.offset) d)) (.read (BitVec.ofNat 32 l.offset)) =
      ⟨true, readLoc (writeLoc s d l) l⟩ := by
  have hw := busStep_write d (reachable_of hrst hm hlock) hr
  have hb := writeLoc_behind s d l
  have hm' : l.mapped (writeLoc s d l).slots (writeLoc s d l).maxlen = true := by
    rwa [State.slots, State.maxlen, hb.slotsM1, hb.maxlenM1]
  have hreach : reachable ((writeLoc s d l).respond ⟨true, 0⟩) (BitVec.ofNat 32 l.offset) = some l :=
    reachable_of (s := (writeLoc s d l).respond ⟨true, 0⟩) (hb.rstN.trans hrst) hm' (by rwa [State.respond_busy, hbusy])
  exact ⟨hw, by rw [hw, busResponse_read hreach, readLoc_respond]⟩

/-- Settles O54: each count register stores the low nine bits of the word and reads them back. -/
theorem countRegistersStoreNineBits : Obligations.CountRegistersStoreNineBits := by
  intro s d hrst hbusy
  have hmask : (d.setWidth 9).setWidth 32 = d &&& 0x1FF := setWidth_setWidth_eq_and d (by decide)
  obtain ⟨hw1, hr1⟩ := busStep_write_then_read (l := .ncoef) d hrst rfl (by rw [hbusy]; rfl) rfl rfl
  obtain ⟨hw2, hr2⟩ := busStep_write_then_read (l := .npts) d hrst rfl (by rw [hbusy]; rfl) rfl rfl
  obtain ⟨hw3, hr3⟩ := busStep_write_then_read (l := .nslots) d hrst rfl (by rw [hbusy]; rfl) rfl rfl
  rw [← hmask]
  exact ⟨hw1, hw2, hw3, hr1, hr2, hr3⟩

/-! ### CTRL, STATUS and ERRINFO bit by bit (R24, R25, R28) -/

/-- CTRL reads the two bits a write stores (R24). -/
theorem ctrlWord_setCtrl (s : State) (d : Word) : (s.setCtrl d).ctrlWord = d &&& 0x3 := by
  have h : BitVec.ofBool (d.getLsbD 1) ++ BitVec.ofBool (d.getLsbD 0) = d.setWidth 2 := by
    apply BitVec.eq_of_getLsbD_eq
    intro i hi
    simp only [BitVec.getLsbD_append, BitVec.getLsbD_ofBool, BitVec.getLsbD_setWidth]
    interval_cases i <;> simp
  have hmask : (d.setWidth 2).setWidth 32 = d &&& 0x3 := setWidth_setWidth_eq_and d (by decide)
  rw [← hmask, ← h]
  rfl

/-- STATUS reads READY, BUSY, DONE, ERR and OVR in bits 0 to 4, and 0 above (R25). -/
theorem statusWord_getLsbD (s : State) (n : Nat) :
    s.statusWord.getLsbD n =
      ((n == 0 && s.ready) || (n == 1 && s.busy) || (n == 2 && s.done) || (n == 3 && s.err) ||
        (n == 4 && s.ovr)) := by
  simp only [State.statusWord, BitVec.getLsbD_setWidth, BitVec.getLsbD_append, BitVec.getLsbD_ofBool]
  rcases n with _ | _ | _ | _ | _ | n <;> simp

/-- A word of two parts as a number. -/
theorem toNat_append_eq_add {m n : Nat} (x : BitVec m) (y : BitVec n) :
    (x ++ y).toNat = x.toNat * 2 ^ n + y.toNat := by
  rw [BitVec.toNat_append, ← Nat.shiftLeft_add_eq_or_of_lt y.isLt, Nat.shiftLeft_eq]

/-- ERRINFO reads INFO in its upper half and CODE in its low byte (R28). -/
theorem errinfoWord_eq (s : State) :
    s.errinfoWord = BitVec.ofNat 32 (s.errInfo.toNat * 2 ^ 16 + s.errCode.value.toNat) := by
  have h1 : s.errInfo.toNat < 2 ^ 16 := s.errInfo.isLt
  have h2 : s.errCode.value.toNat < 2 ^ 8 := s.errCode.value.isLt
  have h0 : (0 : Byte).toNat = 0 := rfl
  have h3 : s.errinfoWord.toNat = (s.errInfo ++ (0 : Byte) ++ s.errCode.value).toNat := rfl
  apply BitVec.eq_of_toNat_eq
  rw [h3, toNat_append_eq_add, toNat_append_eq_add, BitVec.toNat_ofNat, h0]
  omega

/-- Settles O55: the words of the four registers, and the writes of CTRL and STATUS. -/
theorem controlAndStatusRegistersAsLaidOut : Obligations.ControlAndStatusRegistersAsLaidOut := by
  intro s d hrst
  obtain ⟨hw, hr⟩ := busStep_write_then_read (l := .ctrl) d hrst rfl (Bool.and_false _) rfl rfl
  obtain ⟨hack, -⟩ := busStep_write_then_read (l := .status) d hrst rfl (Bool.and_false _) rfl rfl
  refine ⟨hw, ?_, statusWord_getLsbD s, hack, errinfoWord_eq s, rfl⟩
  rw [← ctrlWord_setCtrl s d]
  exact hr

/-! ### SLOT_LEN (R36) -/

/-- A 17-bit value is its three byte lanes. -/
theorem lanes_append (v : BitVec 17) :
    (((v.extractLsb' 16 1).setWidth 8 ++ v.extractLsb' 8 8 ++ v.extractLsb' 0 8).setWidth 17 : BitVec 17) = v := by
  apply BitVec.eq_of_toNat_eq
  have hv : v.toNat < 2 ^ 17 := v.isLt
  rw [BitVec.toNat_setWidth, toNat_append_eq_add, toNat_append_eq_add]
  simp only [BitVec.toNat_setWidth, BitVec.extractLsb'_toNat, Nat.shiftRight_eq_div_pow]
  omega

/-- A 17-bit element reads back (R36). -/
theorem State.elem17_setElem17_same (s : State) (a : Nat) (v : BitVec 17) : (s.setElem17 a v).elem17 a = v := by
  have h0 : (s.setElem17 a v).elemByte a = v.extractLsb' 0 8 := by
    simp [State.elemByte, State.setElem17, Memory.read_write]
  have h1 : (s.setElem17 a v).elemByte (a + 1) = v.extractLsb' 8 8 := by
    simp [State.elemByte, State.setElem17, Memory.read_write]
  have h2 : (s.setElem17 a v).elemByte (a + 2) = (v.extractLsb' 16 1).setWidth 8 := by
    simp [State.elemByte, State.setElem17]
  rw [State.elem17, h0, h1, h2, lanes_append]

/-- A byte outside the three lanes keeps its value (R36). -/
theorem State.elemByte_setElem17_other (s : State) {a a' : Nat} (v : BitVec 17) (h : a' < a ∨ a + 2 < a') :
    (s.setElem17 a v).elemByte a' = s.elemByte a' := by
  have h0 : a' ≠ a := by omega
  have h1 : a' ≠ a + 1 := by omega
  have h2 : a' ≠ a + 2 := by omega
  simp [State.elemByte, State.setElem17, Memory.read_write, h0, h1, h2]

/-- Settles O53: the three byte lanes of the element hold the low 17 bits of the word, and no other lane changes. -/
theorem slotLenReadsBackWhatWasWritten : Obligations.SlotLenReadsBackWhatWasWritten := by
  intro s slot d hrst hbusy hslot
  have hmask : (d.setWidth 17).setWidth 32 = d &&& 0x1FFFF := setWidth_setWidth_eq_and d (by decide)
  obtain ⟨hw, hr⟩ := busStep_write_then_read (l := .slotLen slot) d hrst (decide_eq_true hslot)
    (by rw [hbusy]; rfl) rfl rfl
  have hback := s.elem17_setElem17_same (Loc.slotLen slot).offset (d.setWidth 17)
  refine ⟨_, rfl, ?_, ?_, ?_, fun a ha => ?_, ?_⟩
  · rw [hw]; rfl
  · rw [hr, ← hmask, ← hback]
    rfl
  · rw [hw]
    exact (congrArg BitVec.toNat hback).trans (BitVec.toNat_setWidth ..)
  · rw [hw]
    exact s.elemByte_setElem17_other _ ha
  · rw [hw]; rfl

/-! ### Reset (R43) -/

/-- Settles O12: each register by the reset state's definition, ICOEF entry by entry. -/
theorem resetValues : Obligations.ResetValues :=
  ⟨rfl, rfl, rfl, rfl, rfl, rfl, rfl, rfl, rfl, rfl, rfl, rfl, rfl, icoefAt_icoefZero, rfl, rfl, rfl, rfl, rfl⟩

/-! ### ICOEF behind the bus (R40) -/

/-- A read does not see ICOEF. -/
theorem readLoc_withIcoef (s : State) (c : Vector Byte 255) (l : Loc) :
    readLoc { s with icoef := c } l = readLoc s l := by
  cases l <;> rfl

/-- A write neither sees nor changes ICOEF. -/
theorem writeLoc_withIcoef (s : State) (c : Vector Byte 255) (d : Word) (l : Loc) :
    writeLoc { s with icoef := c } d l = { writeLoc s d l with icoef := c } := by
  cases l with
  | cmd =>
    have hb : State.busy { s with icoef := c } = s.busy := rfl
    simp only [writeLoc, cmdWrite, hb]
    cases s.busy <;> rfl
  | _ => rfl

/-- Where a transaction reaches does not depend on ICOEF. -/
theorem reachable_withIcoef (s : State) (c : Vector Byte 255) (addr : Word) :
    reachable { s with icoef := c } addr = reachable s addr := rfl

theorem busResponse_withIcoef (s : State) (c : Vector Byte 255) (op : BusOp) :
    busResponse { s with icoef := c } op = busResponse s op := by
  cases op with
  | read addr => simp only [busResponse, reachable_withIcoef, readLoc_withIcoef]
  | write addr d => rfl

theorem busEffect_withIcoef (s : State) (c : Vector Byte 255) (op : BusOp) :
    busEffect { s with icoef := c } op = { busEffect s op with icoef := c } := by
  cases op with
  | read addr => rfl
  | write addr d =>
    simp only [busEffect, reachable_withIcoef, writeLoc_withIcoef]
    cases reachable s addr with
    | none => rfl
    | some l => cases h : l.readOnly <;> simp [h]

/-- Settles O58: ICOEF is in no word the bus reads and in neither output pin. -/
theorem icoefIsNeverObservable : Obligations.IcoefIsNeverObservable := by
  intro s c op
  refine ⟨busResponse_withIcoef s c op, ?_, rfl, rfl⟩
  rw [busStep, busResponse_withIcoef, busEffect_withIcoef]
  rfl

end Sys2Proof.Machine

/-! Proofs of the statements of 20_memory.md: what a transaction reaches, and that every step keeps the RAM inside the
buffers of the part. -/

namespace Sys2Proof.Machine

/-! ### What the offset of a location reaches (R63, R64, R66 to R68) -/

/-- Settles O48: the map read from a location to its offset and back. -/
theorem addressMapIsOneToOne : Obligations.AddressMapIsOneToOne :=
  fun _ _ hslots hmaxlen => ⟨fun _ h => locate_offset hslots hmaxlen h, fun _ _ ha h => offset_of_locate ha h⟩

/-- A transaction at the offset of a location reaches that location, if it reaches any. -/
theorem eq_of_reachable_offset {s : State} {l l' : Loc} (hm : l.mapped s.slots s.maxlen = true)
    (h : reachable s (BitVec.ofNat 32 l.offset) = some l') : l' = l := by
  obtain ⟨-, hoff, hm', -⟩ := reachable_some h
  obtain ⟨-, hlt⟩ := Loc.offset_lt s.slots_le s.maxlen_le hm
  rw [BitVec.toNat_ofNat, Nat.mod_eq_of_lt (by omega)] at hoff
  have hl' := regionAt_offset s.slots_le s.maxlen_le hm'
  rw [hoff, regionAt_offset s.slots_le s.maxlen_le hm] at hl'
  exact (Option.some.inj hl').symm

/-- The bus lock: while BUSY nothing is reached at the offset of a locked location (R68). -/
theorem reachable_locked {s : State} {l : Loc} (hbusy : s.busy = true) (hl : l.locked = true)
    (hm : l.mapped s.slots s.maxlen = true) : reachable s (BitVec.ofNat 32 l.offset) = none := by
  cases h : reachable s (BitVec.ofNat 32 l.offset) with
  | none => rfl
  | some l' =>
    obtain ⟨-, -, -, hfree⟩ := reachable_some h
    rw [eq_of_reachable_offset hm h, hbusy, hl] at hfree
    cases hfree

/-- Nothing is reached at a misaligned offset (R63), nor at one that no location of the part has (R64). -/
theorem reachable_misaligned_or_unmapped {s : State} {addr : Word}
    (h : addr.toNat % 4 ≠ 0 ∨ ∀ l : Loc, l.mapped s.slots s.maxlen = true → addr.toNat ≠ l.offset) :
    reachable s addr = none := by
  cases hreach : reachable s addr with
  | none => rfl
  | some l =>
    obtain ⟨-, hoff, hm, -⟩ := reachable_some hreach
    obtain ⟨haligned, -⟩ := Loc.offset_lt s.slots_le s.maxlen_le hm
    rcases h with hmisaligned | hnone
    · exact absurd (hoff ▸ haligned) hmisaligned
    · exact absurd hoff.symm (hnone l hm)

/-- Settles O47: such an offset reaches no location. -/
theorem misalignedOrUnmappedGetsErr : Obligations.MisalignedOrUnmappedGetsErr := by
  intro s addr d h
  have hnone := reachable_misaligned_or_unmapped h
  exact ⟨busStep_none_read hnone, _, rfl, busStep_none_write d hnone⟩

/-! ### Access types and the bus lock (R65, R68, R69, R71) -/

/-- A write to a read-only location gets ERR, wherever the block stands (R65, R68, R240). -/
theorem busStep_write_readOnly {s : State} {l : Loc} (d : Word) (hm : l.mapped s.slots s.maxlen = true)
    (hr : l.readOnly = true) : busStep s (.write (BitVec.ofNat 32 l.offset) d) = s.respond ⟨false, 0⟩ := by
  cases h : reachable s (BitVec.ofNat 32 l.offset) with
  | none => exact busStep_none_write d h
  | some l' => exact busStep_readOnly d h (eq_of_reachable_offset hm h ▸ hr)

/-- Settles O49: each of the nine is read-only. -/
theorem readOnlyWriteGetsErr : Obligations.ReadOnlyWriteGetsErr := by
  intro s l d hl hm
  refine busStep_write_readOnly d hm ?_
  rcases hl with hl | ⟨i, rfl | rfl | rfl⟩
  · fin_cases hl <;> rfl
  all_goals rfl

/-- The six registers the lock leaves out (R68). -/
theorem Loc.locked_eq_false_iff (l : Loc) :
    l.locked = false ↔ l ∈ ([.id, .caps, .poly, .ctrl, .status, .cmd] : List Loc) := by
  cases l <;> simp [Loc.locked]

/-- Settles O50: a locked location is not reached; one of the six is. -/
theorem busyLocksOperandsAndResults : Obligations.BusyLocksOperandsAndResults := by
  intro s l d hbusy hm
  refine ⟨fun hl => ?_, fun hrst hl => ?_⟩
  · have hlocked : l.locked = true := by
      rwa [← Loc.locked_eq_false_iff, Bool.not_eq_false] at hl
    have hnone := reachable_locked hbusy hlocked hm
    exact ⟨busStep_none_read hnone, busStep_none_write d hnone⟩
  · have hopen : (s.busy && l.locked) = false := by
      rw [(Loc.locked_eq_false_iff l).2 hl, Bool.and_false]
    exact busStep_read (reachable_of hrst hm hopen)

/-- Settles O16: CMD is not locked, and the write of it while BUSY sets OVR alone. -/
theorem busyCmdWriteIsDropped : Obligations.BusyCmdWriteIsDropped := by
  intro s w hrst hbusy
  have hw := busStep_write w (reachable_of (l := .cmd) hrst rfl (Bool.and_false _)) rfl
  have hdrop : writeLoc s w .cmd = s.dropCmd := by rw [writeLoc, cmdWrite, if_pos hbusy]
  rw [hdrop] at hw
  exact ⟨_, rfl, hw⟩

/-- While the engine is idle nothing is locked: a location is reached at its offset (R68). -/
theorem reachable_of_idle {s : State} {l : Loc} (hrst : s.rstN = true) (hbusy : s.busy = false)
    (hm : l.mapped s.slots s.maxlen = true) : reachable s (BitVec.ofNat 32 l.offset) = some l :=
  reachable_of hrst hm (by rw [hbusy, Bool.false_and])

/-- Settles O51: the read has a response and no effect. -/
theorem readsReturnTheLocationAndChangeNothing : Obligations.ReadsReturnTheLocationAndChangeNothing := by
  refine ⟨fun _ _ => rfl, fun _ => rfl, fun s l rest hrst hbusy hm hs => ?_⟩
  have hreach : reachable (s.setSchedule rest) (BitVec.ofNat 32 l.offset) = some l :=
    reachable_of_idle (s := s.setSchedule rest) hrst hbusy hm
  have hword : readLoc (s.setSchedule rest) l = readLoc s l := by cases l <;> rfl
  rw [step_bus hrst hs, busStep_read hreach, hword]
  rfl

/-! ### The byte elements (R32 to R35, R37) -/

/-- COEF, XS, YS, SLOT_ID and PAY are writable, and hold one byte at the offset of the element (R65). -/
theorem byteElement_access {l : Loc}
    (hl : (∃ i, l = .coef i ∨ l = .xs i ∨ l = .ys i ∨ l = .slotId i) ∨ ∃ slot j, l = .pay slot j) :
    l.readOnly = false ∧ (∀ s d, writeLoc s d l = s.setElem l.offset (d.setWidth 8)) ∧
      ∀ s, readLoc s l = (s.elemByte l.offset).setWidth 32 := by
  rcases hl with ⟨i, rfl | rfl | rfl | rfl⟩ | ⟨slot, j, rfl⟩ <;> exact ⟨rfl, fun _ _ => rfl, fun _ => rfl⟩

/-- Settles O52: the element's byte of RAM holds the low byte of the word, and no other byte changes. -/
theorem byteElementReadsBackWhatWasWritten : Obligations.ByteElementReadsBackWhatWasWritten := by
  intro s l d hrst hbusy hm hl
  obtain ⟨hwritable, hwrite, hread⟩ := byteElement_access hl
  obtain ⟨hw, hr⟩ := busStep_write_then_read d hrst hm (by rw [hbusy, Bool.false_and]) hwritable
    (by rw [hwrite, State.setElem_busy])
  have hmask : (d.setWidth 8).setWidth 32 = d &&& 0xFF := setWidth_setWidth_eq_and d (by decide)
  rw [hwrite, hread, State.elemByte_setElem_same, hmask] at hr
  rw [hwrite] at hw
  refine ⟨_, rfl, ?_, hr, fun a ha => ?_, ?_⟩ <;> rw [hw]
  · rfl
  · exact s.elemByte_setElem_other _ ha
  · rfl

/-! ### The table windows (R77) -/

/-- A table entry at an index in range. -/
theorem Table.entry_ofNat (t : Table) {i : Nat} (hi : i < 256) : Table.entry t (BitVec.ofNat 8 i) = t[i]! := by
  have h : (BitVec.ofNat 8 i).toNat = i := by rw [BitVec.toNat_ofNat, Nat.mod_eq_of_lt hi]
  simp only [Table.entry, h, getElem!_pos t i hi]

/-- A read of a locked location: its word while the engine is idle, ERR while BUSY (R65, R68). -/
theorem busResponse_read_locked {s : State} {l : Loc} (hrst : s.rstN = true) (hl : l.locked = true)
    (hm : l.mapped s.slots s.maxlen = true) :
    (s.busy = false → busResponse s (.read (BitVec.ofNat 32 l.offset)) = ⟨true, readLoc s l⟩) ∧
    (s.busy = true → busResponse s (.read (BitVec.ofNat 32 l.offset)) = ⟨false, 0⟩) := by
  refine ⟨fun hbusy => busResponse_read (reachable_of_idle hrst hbusy hm), fun hbusy => ?_⟩
  simp only [busResponse, reachable_locked hbusy hl hm, errResp]

/-- Settles O56: what the two windows show of the tables, behind the lock. -/
theorem tableWindowsReadTheTables : Obligations.TableWindowsReadTheTables := by
  intro s i hrst hi
  obtain ⟨hexps, hexpsBusy⟩ := busResponse_read_locked (l := .exps i) hrst rfl (decide_eq_true hi)
  obtain ⟨hlogs, hlogsBusy⟩ := busResponse_read_locked (l := .logs i) hrst rfl (decide_eq_true hi)
  simp only [Loc.offset, readLoc] at hexps hexpsBusy hlogs hlogsBusy
  refine ⟨fun hbusy exps logs ht => ?_, fun hbusy ht => ?_, fun hbusy => ⟨hexpsBusy hbusy, hlogsBusy hbusy⟩⟩
  · rw [hexps hbusy, hlogs hbusy, State.expsWindow, State.logsWindow, ht]
    simp only [Table.entry_ofNat _ hi, BitVec.ofNat_toNat, and_self]
  · rw [hexps hbusy, hlogs hbusy, State.expsWindow, State.logsWindow, ht]
    exact ⟨rfl, rfl⟩

/-! ### Every step keeps the RAM inside the buffers (R66, R67) -/

/-- The buffers of the part are seen through its parameters alone. -/
theorem RamInBuffers.congr {s t : State} (h : RamInBuffers s) (hram : t.ram = s.ram) (hslots : t.slotsM1 = s.slotsM1)
    (hmaxlen : t.maxlenM1 = s.maxlenM1) : RamInBuffers t := by
  intro cell hcell
  have hbyte := h cell (hram ▸ hcell)
  simpa only [BufferByte, State.slots, State.maxlen, hslots, hmaxlen] using hbyte

/-- A byte written to a buffer of the part. -/
theorem RamInBuffers.setElem {s : State} (h : RamInBuffers s) {a : Nat} (ha : BufferByte s a) (b : Byte) :
    RamInBuffers (s.setElem a b) := by
  intro cell hcell
  rcases Memory.mem_write hcell with rfl | hold
  · exact ha
  · exact h cell hold

/-- A sequence of byte elements written to buffers of the part. -/
theorem RamInBuffers.setElems {s : State} (h : RamInBuffers s) {base : Nat} {bs : List Byte}
    (hbs : ∀ i, i < bs.length → BufferByte s (base + 4 * i)) : RamInBuffers (s.setElems base bs) := by
  induction bs generalizing s base with
  | nil => exact h
  | cons b rest ih =>
    have hrest (i : Nat) (hi : i < rest.length) : BufferByte s (base + 4 + 4 * i) := by
      have hoff : base + 4 + 4 * i = base + 4 * (i + 1) := by omega
      exact hoff ▸ hbs (i + 1) (Nat.succ_lt_succ hi)
    exact ih (h.setElem (hbs 0 (Nat.succ_pos _)) b) hrest

/-- A host write of a location of the part. -/
theorem RamInBuffers.writeLoc {s : State} (h : RamInBuffers s) (d : Word) {l : Loc}
    (hm : l.mapped s.slots s.maxlen = true) : RamInBuffers (writeLoc s d l) := by
  cases l with
  | coef i | xs i | ys i | slotId i | pay slot j => exact h.setElem (.inl ⟨_, hm, rfl, by simp⟩) _
  | slotLen slot =>
    have hslot : slot < s.slots := of_decide_eq_true hm
    have hlane0 : BufferByte s (Loc.slotLen slot).offset := .inl ⟨_, hm, rfl, by simp⟩
    have hlane1 : BufferByte s ((Loc.slotLen slot).offset + 1) := .inr ⟨slot, hslot, .inl rfl⟩
    have hlane2 : BufferByte s ((Loc.slotLen slot).offset + 2) := .inr ⟨slot, hslot, .inr rfl⟩
    exact ((h.setElem hlane0 _).setElem hlane1 _).setElem hlane2 _
  | cmd =>
    simp only [Machine.writeLoc, cmdWrite]
    split <;> exact h
  | _ => exact h

/-- A host transaction: it writes a location it reaches, if any. -/
theorem RamInBuffers.busStep {s : State} (h : RamInBuffers s) (op : BusOp) : RamInBuffers (busStep s op) := by
  rcases busEffect_cases s op with heq | ⟨addr, d, l, -, hreach, -, heq⟩ <;> rw [Machine.busStep, heq]
  · exact h
  · obtain ⟨-, -, hm, -⟩ := reachable_some hreach
    exact h.writeLoc d hm

/-- The reset pin: the RAM stays, or lists nothing. -/
theorem RamInBuffers.setRstN {s : State} (h : RamInBuffers s) (level : Bool) : RamInBuffers (s.setRstN level) := by
  rcases setRstN_cases s level with ⟨-, heq⟩ | heq <;> rw [heq]
  · exact h
  · exact fun _ hcell => absurd hcell List.not_mem_nil

/-- An answer of the random source does not touch the RAM. -/
theorem RamInBuffers.takeDraw {s : State} (h : RamInBuffers s) (a : RngAnswer) : RamInBuffers (takeDraw a s) := by
  rcases takeDraw_cases a s with ⟨-, heq⟩ | ⟨k, b, -, -, -, heq⟩ | ⟨k, -, -, heq⟩ <;> rw [heq] <;> exact h

/-- The outputs of GENPTS: at most 255 elements of XS and YS (R152). -/
theorem RamInBuffers.setXs_setYs {s : State} (h : RamInBuffers s) {xs ys : List Byte} (hxs : xs.length < 256)
    (hys : ys.length < 256) : RamInBuffers ((s.setXs xs).setYs ys) := by
  refine (h.setElems fun i hi => ?_).setElems fun i hi => ?_
  · exact .inl ⟨.xs i, decide_eq_true (hi.trans hxs), rfl, by simp⟩
  · exact .inl ⟨.ys i, decide_eq_true (hi.trans hys), rfl, by simp⟩

/-- The output of COMBINE: at most P_MAXLEN elements of SECRET (R180). -/
theorem RamInBuffers.setSecret {s : State} (h : RamInBuffers s) {bytes : List Byte}
    (hlen : bytes.length ≤ s.maxlen) : RamInBuffers (s.setSecret bytes) :=
  h.setElems fun j hj => .inl ⟨.secret j, decide_eq_true (hj.trans_le hlen), rfl, by simp⟩

/-- The accepted word runs: GENPTS and COMBINE write their outputs, no other ending writes the RAM. -/
theorem RamInBuffers.ends {s t : State} (h : RamInBuffers s) {cmd : Except Verdict Instr} (hends : Ends cmd s t) :
    RamInBuffers t := by
  cases hends with
  | points secret n thr k ys _ _ _ _ hlen =>
    have hxs : ((List.range n.toNat).map fun i => (BitVec.ofNat 8 (i + 1) : Byte)).length < 256 := by
      simpa using n.isLt
    exact (h.setXs_setYs hxs (hlen ▸ n.isLt)).congr rfl rfl rfl
  | secret bytes hlen => exact h.setSecret hlen
  | _ => exact h

/-- Settles O11: one lemma per kind of step. -/
theorem stepKeepsRamInBuffers : Obligations.StepKeepsRamInBuffers := by
  intro s t h hstep
  cases steps_of_step hstep with
  | passes rest => exact h
  | bus op rest => exact RamInBuffers.busStep (s := s.setSchedule rest) h op
  | rst level rest => exact RamInBuffers.setRstN (s := s.setSchedule rest) h level
  | answers w fail data rest => exact RamInBuffers.takeDraw (s := s.setSchedule rest) h _
  | runs w rest t _ _ _ _ _ hends => exact RamInBuffers.ends (s := s.setSchedule rest) h hends

end Sys2Proof.Machine

/-! Proofs of the statements of 30_encoding.md: the decoder, the encoder and the (match, mask) rows agree, a word that
is no command completes with its error, the assembler, and the host statement `ldcoef`. -/

namespace Sys2Proof

/-! ### The decoder and the encoder (R90, R91, R97) -/

/-- The decoder reads every command back from its word (R91, R97). -/
@[simp] theorem decode_encode (i : Instr) : decode (encode i) = .ok i := by
  cases i <;> simp [encode, decode, decodeF0, decodeF1, decodeF2]

/-- Format F0: what is accepted is OP alone (R90, R97). -/
theorem encode_of_decodeF0 {w : Word} {i j : Instr} {op : Byte} (hop : opField w = op)
    (hi : encode i = packWord 0 0 0 op) (h : decodeF0 w i = .ok j) : encode j = w := by
  unfold decodeF0 at h
  split at h
  next hzero =>
    obtain ⟨ha, hb, hc⟩ := hzero
    obtain rfl := Except.ok.inj h
    rw [hi, ← packWord_fields w, ha, hb, hc, hop]
  next => cases h

/-- Format F1: what is accepted is A and OP (R90, R97). -/
theorem encode_of_decodeF1 {w : Word} {i j : Instr} {op : Byte} (hop : opField w = op)
    (hi : encode i = packWord 0 0 (aField w) op) (h : decodeF1 w i = .ok j) : encode j = w := by
  unfold decodeF1 at h
  split at h
  next hzero =>
    obtain ⟨hb, hc⟩ := hzero
    obtain rfl := Except.ok.inj h
    rw [hi, ← hop]
    conv_rhs => rw [← packWord_fields w, hb, hc]
  next => cases h

/-- Format F2: what is accepted is B, A and OP (R90, R97). -/
theorem encode_of_decodeF2 {w : Word} {i j : Instr} {op : Byte} (hop : opField w = op)
    (hi : encode i = packWord 0 (bField w) (aField w) op) (h : decodeF2 w i = .ok j) : encode j = w := by
  unfold decodeF2 at h
  split at h
  next hc =>
    obtain rfl := Except.ok.inj h
    rw [hi, ← hop]
    conv_rhs => rw [← packWord_fields w, hc]
  next => cases h

/-- A word the decoder accepts is the encoding of the command it reads (R97, R98). -/
theorem encode_of_decode {w : Word} {i : Instr} (h : decode w = .ok i) : encode i = w := by
  unfold decode at h
  split at h
  next hop => exact encode_of_decodeF0 hop rfl h -- NOP
  split at h
  next hop => exact encode_of_decodeF0 hop rfl h -- INIT
  split at h
  next hop => exact encode_of_decodeF0 hop rfl h -- TRESET
  split at h
  next hop => exact encode_of_decodeF2 hop rfl h -- MUL
  split at h
  next hop => exact encode_of_decodeF1 hop rfl h -- EVAL
  split at h
  next hop => -- GENPTS
    obtain rfl := Except.ok.inj h
    have hw := packWord_fields w
    rwa [hop] at hw
  split at h
  next hop => exact encode_of_decodeF1 hop rfl h -- LAGR
  split at h
  next hop => exact encode_of_decodeF1 hop rfl h -- COMBINE
  cases h

/-- Settles O1: `decode_encode` and `encode_of_decode`. -/
theorem decodeAndEncodeAgree : Obligations.DecodeAndEncodeAgree :=
  ⟨decode_encode, fun _ _ => encode_of_decode⟩

/-! ### The (match, mask) rows (R92) -/

/-- A command's encoding selects the row of its own mnemonic, and no other (R92). -/
theorem selectsRow_encode_iff (i : Instr) (m : Mnemonic) : selectsRow (encode i) m = true ↔ m = i.mnemonic := by
  cases i with
  | nop => exact Laws.EncodeSelectsRow.nop m
  | init => exact Laws.EncodeSelectsRow.init m
  | treset => exact Laws.EncodeSelectsRow.treset m
  | mul a b => exact Laws.EncodeSelectsRow.mul a b m
  | eval x => exact Laws.EncodeSelectsRow.eval x m
  | genpts secret n thr => exact Laws.EncodeSelectsRow.genpts secret n thr m
  | lagr pt => exact Laws.EncodeSelectsRow.lagr pt m
  | combine pt => exact Laws.EncodeSelectsRow.combine pt m

/-- A field under a full mask is the field. -/
theorem byte_and_fullMask (x : Byte) : x &&& 255#8 = x := BitVec.and_allOnes

/-- A word that selects a row is the encoding of a command of the row's mnemonic (R92). -/
theorem exists_encode_of_selectsRow {w : Word} {m : Mnemonic} (h : selectsRow w m = true) :
    ∃ i, encode i = w ∧ i.mnemonic = m := by
  rw [← packWord_fields w, Laws.EncodeSelectsRow.selectsRow_iff] at h
  rw [← packWord_fields w]
  generalize cField w = c, bField w = b, aField w = a, opField w = op at h ⊢
  cases m <;> simp [opRow, cField, bField, aField, opField, byte_and_fullMask] at h
  case nop =>
    obtain ⟨rfl, rfl, rfl, rfl⟩ : c = 0 ∧ b = 0 ∧ a = 0 ∧ op = 0x00 := h
    exact ⟨.nop, rfl, rfl⟩
  case init =>
    obtain ⟨rfl, rfl, rfl, rfl⟩ : c = 0 ∧ b = 0 ∧ a = 0 ∧ op = 0x01 := h
    exact ⟨.init, rfl, rfl⟩
  case treset =>
    obtain ⟨rfl, rfl, rfl, rfl⟩ : c = 0 ∧ b = 0 ∧ a = 0 ∧ op = 0x02 := h
    exact ⟨.treset, rfl, rfl⟩
  case mul =>
    obtain ⟨rfl, rfl⟩ : c = 0 ∧ op = 0x10 := h
    exact ⟨.mul a b, rfl, rfl⟩
  case eval =>
    obtain ⟨rfl, rfl, rfl⟩ : c = 0 ∧ b = 0 ∧ op = 0x11 := h
    exact ⟨.eval a, rfl, rfl⟩
  case genpts =>
    obtain rfl : op = 0x12 := h
    exact ⟨.genpts a b c, rfl, rfl⟩
  case lagr =>
    obtain ⟨rfl, rfl, rfl⟩ : c = 0 ∧ b = 0 ∧ op = 0x20 := h
    exact ⟨.lagr a, rfl, rfl⟩
  case combine =>
    obtain ⟨rfl, rfl, rfl⟩ : c = 0 ∧ b = 0 ∧ op = 0x21 := h
    exact ⟨.combine a, rfl, rfl⟩

/-- Settles O2: both sides say that the word is the encoding of a command of that mnemonic. -/
theorem matchMaskRowsAreTheDecoder : Obligations.MatchMaskRowsAreTheDecoder := by
  intro w m
  constructor
  · intro h
    obtain ⟨i, rfl, hm⟩ := exists_encode_of_selectsRow h
    exact ⟨i, decode_encode i, hm⟩
  · rintro ⟨i, hi, rfl⟩
    rw [← encode_of_decode hi, selectsRow_encode_iff]

/-! ### Words that are no command (R93, R94) -/

/-- A reserved OP is BAD_OPCODE, whatever the other fields hold (R94). -/
theorem decode_reserved {w : Word}
    (h : opField w ∉ ([0x00, 0x01, 0x02, 0x10, 0x11, 0x12, 0x20, 0x21] : List Byte)) :
    decode w = .error .badOpcode := by
  simp only [List.mem_cons, List.not_mem_nil, or_false, not_or] at h
  simp only [decode, h, if_false]

/-- An illegal word, with a nonzero field that the format of its OP requires to be 0, is BAD_CMD (R93). -/
theorem decode_illegal {w : Word}
    (h : (opField w ∈ ([0x00, 0x01, 0x02] : List Byte) ∧ (aField w ≠ 0 ∨ bField w ≠ 0 ∨ cField w ≠ 0)) ∨
      (opField w = 0x10 ∧ cField w ≠ 0) ∨
      (opField w ∈ ([0x11, 0x20, 0x21] : List Byte) ∧ (bField w ≠ 0 ∨ cField w ≠ 0))) :
    decode w = .error .badCmd := by
  simp only [List.mem_cons, List.not_mem_nil, or_false] at h
  rcases h with ⟨hop, hne⟩ | ⟨hop, hne⟩ | ⟨hop, hne⟩
  · have hF0 (i : Instr) : decodeF0 w i = .error .badCmd := if_neg (by tauto)
    rcases hop with hop | hop | hop <;> simp [decode, hop, hF0]
  · have hF2 (i : Instr) : decodeF2 w i = .error .badCmd := if_neg hne
    simp [decode, hop, hF2]
  · have hF1 (i : Instr) : decodeF1 w i = .error .badCmd := if_neg (by tauto)
    rcases hop with hop | hop | hop <;> simp [decode, hop, hF1]

/-- A word the decoder rejects selects no row (R92, R93). -/
theorem selectsRow_of_rejected {w : Word} {v : Verdict} (h : decode w = .error v) (m : Mnemonic) :
    selectsRow w m = false := by
  refine Bool.eq_false_iff.2 fun hsel => ?_
  obtain ⟨i, hi, -⟩ := (matchMaskRowsAreTheDecoder w m).1 hsel
  cases hi.symm.trans h

end Sys2Proof

namespace Sys2Proof.Machine

/-- What a write does at a writable location it reaches (R65). -/
theorem busEffect_write {s : State} {addr : Word} {l : Loc} (d : Word) (h : reachable s addr = some l)
    (hr : l.readOnly = false) : busEffect s (.write addr d) = writeLoc s d l := by
  simp only [busEffect, h, hr, Bool.false_eq_true, if_false]

/-- An idle block accepts any word written to CMD (R200). -/
theorem busEffect_cmd_write {s : State} (w : Word) (hbusy : s.busy = false) (hrst : s.rstN = true) :
    busEffect s (.write 0x14 w) = s.accept w := by
  have hreach : reachable s 0x14 = some .cmd := reachable_of_idle (l := .cmd) hrst hbusy rfl
  rw [busEffect_write w hreach rfl, writeLoc, cmdWrite, hbusy, if_neg Bool.false_ne_true]

/-- The engine's turn on an accepted word that the decoder rejects: the completion with the verdict's code and INFO 0
(R93, R94). -/
theorem engineTurn_accept_rejected {s : State} {w : Word} {v : Verdict} (hreq : s.rngReq = .idle)
    (h : decode w = .error v) :
    engineTurn (s.accept w) = .next (Spec.failed s (verdictCode v) 0) := by
  have hturn : engineTurn (s.accept w) = runCommand w (s.accept w) := by
    simp only [engineTurn, State.accept_eng, State.accept_rngReq, hreq]
  rw [hturn, runCommand_error h]
  rfl

/-- Settles O3: a reserved OP is accepted, and the engine's turn on it is the completion of a rejected word. -/
theorem reservedOpcodeCompletesWithBadOpcode : Obligations.ReservedOpcodeCompletesWithBadOpcode := by
  refine ⟨rfl, fun w s hbusy hrst hreq hop => ?_⟩
  have hdec := decode_reserved hop
  rw [busEffect_cmd_write w hbusy hrst]
  exact ⟨hdec, rfl, engineTurn_accept_rejected hreq hdec⟩

/-- Settles O4: an illegal word is rejected, so it selects no row and completes with the verdict's code. -/
theorem illegalFieldCompletesWithBadCmd : Obligations.IllegalFieldCompletesWithBadCmd := by
  refine ⟨rfl, fun w s hbusy hrst hreq hfield => ?_⟩
  have hdec := decode_illegal hfield
  rw [busEffect_cmd_write w hbusy hrst]
  exact ⟨hdec, selectsRow_of_rejected hdec, rfl, engineTurn_accept_rejected hreq hdec⟩

end Sys2Proof.Machine

namespace Sys2Proof

/-! ### The assembler (R98) -/

theorem Asm.wellFormed_iff (c : Asm) :
    c.wellFormed = true ↔ c.operands.length = c.mnemonic.arity ∧ ∀ v ∈ c.operands, v ≤ 255 := by
  simp [Asm.wellFormed, Asm.arityOk, Asm.rangeOk]

/-- A written command with its format's number of operands, each in range, stands for a command (R98). -/
theorem Asm.exists_toInstr {c : Asm} (h : c.wellFormed = true) : ∃ i, c.toInstr = some i := by
  obtain ⟨hlen, -⟩ := c.wellFormed_iff.1 h
  obtain ⟨m, operands⟩ := c
  rw [Asm.toInstr, if_pos h]
  cases m
  case nop | init | treset =>
    obtain rfl := List.length_eq_zero_iff.1 hlen
    exact ⟨_, rfl⟩
  case eval | lagr | combine =>
    obtain ⟨x, rfl⟩ := List.length_eq_one_iff.1 hlen
    exact ⟨_, rfl⟩
  case mul =>
    obtain ⟨a, b, rfl⟩ := List.length_eq_two.1 hlen
    exact ⟨_, rfl⟩
  case genpts =>
    obtain ⟨a, b, t, rfl⟩ := List.length_eq_three.1 hlen
    exact ⟨_, rfl⟩

/-- A written command assembles exactly when it is well formed (R98). -/
theorem exists_assemble_iff (c : Asm) : (∃ w, assemble c = some w) ↔ c.wellFormed = true := by
  constructor
  · rintro ⟨w, hw⟩
    by_contra h
    simp [assemble, Asm.toInstr, h] at hw
  · intro h
    obtain ⟨i, hi⟩ := Asm.exists_toInstr h
    exact ⟨encode i, by rw [assemble, hi, Option.map_some]⟩

/-- The word `{C, B, A, OP}` of operands in range, as a number (R90, R98). -/
theorem packWord_ofNat {a b : Nat} (ha : a ≤ 255) (hb : b ≤ 255) (c : Nat) (op : Byte) :
    packWord (BitVec.ofNat 8 c) (BitVec.ofNat 8 b) (BitVec.ofNat 8 a) op =
      BitVec.ofNat 32 (c * 2 ^ 24 + b * 2 ^ 16 + a * 2 ^ 8 + op.toNat) := by
  have hop : op.toNat < 256 := op.isLt
  apply BitVec.eq_of_toNat_eq
  simp only [packWord_toNat, BitVec.toNat_ofNat]
  omega

/-- Settles O6: a command is assembled iff it is well formed, and the words are `{C, B, A, OP}` as numbers. -/
theorem assemblerEncodesWrittenCommands : Obligations.AssemblerEncodesWrittenCommands := by
  refine ⟨fun c => (exists_assemble_iff c).trans c.wellFormed_iff, rfl, rfl, rfl, fun a b c ha hb hc => ?_⟩
  have hF1 (op : Byte) := packWord_ofNat ha (Nat.zero_le 255) 0 op
  have hF2 (op : Byte) := packWord_ofNat ha hb 0 op
  simp only [Nat.zero_mul, Nat.zero_add] at hF1 hF2
  refine ⟨?_, ?_, ?_, ?_, ?_⟩ <;>
    rw [assemble, Asm.toInstr, if_pos ((Asm.wellFormed_iff _).2 (by simp [Mnemonic.arity, ha, hb, hc]))]
  · exact congrArg some (hF2 0x10)
  · exact congrArg some (hF1 0x11)
  · exact congrArg some (packWord_ofNat ha hb c 0x12)
  · exact congrArg some (hF1 0x20)
  · exact congrArg some (hF1 0x21)

/-! ### Words written out (R92, R97) -/

/-- Settles O5: the decoder's value at each word. -/
theorem sampleWordsDecode : Obligations.SampleWordsDecode := by
  unfold Obligations.SampleWordsDecode
  decide

end Sys2Proof

namespace Sys2Proof.Machine

/-! ### The host statement `ldcoef` (R99) -/

/-- A run of `k + 1` steps is a step and a run of `k`. -/
theorem core_run_succ {s t : State} (h : step s = .next t) (k : Nat) :
    Host.Core.run Sys2Proof.core (k + 1) s = Host.Core.run Sys2Proof.core k t := by
  have hcore : Sys2Proof.core.step s = .next t := h
  simp only [Host.Core.run, hcore]

/-- A host write of a writable location of an idle block, with the actions `ops` of the statement still to come
(R65, R99). -/
theorem step_writeAt {s : State} {l : Loc} {v : Word} {ops : List HostOp} {rest : List Event} (hrst : s.rstN = true)
    (hbusy : s.busy = false) (hm : l.mapped s.slots s.maxlen = true) (hr : l.readOnly = false)
    (hs : s.schedule = (writeAt l v :: ops).filterMap HostOp.event? ++ rest) :
    step s = .next ((writeLoc (s.setSchedule (ops.filterMap HostOp.event? ++ rest)) v l).respond ⟨true, 0⟩) := by
  have hreach : reachable (s.setSchedule (ops.filterMap HostOp.event? ++ rest)) (BitVec.ofNat 32 l.offset) = some l :=
    reachable_of_idle (s := s.setSchedule (ops.filterMap HostOp.event? ++ rest)) hrst hbusy hm
  exact (step_bus hrst hs).trans (congrArg _ (busStep_write v hreach hr))

/-- The element of COEF at index `k` lies `k` words after the first (R66). -/
theorem Loc.coef_offset (k : Nat) : (Loc.coef k).offset = (Loc.coef 0).offset + 4 * k := rfl

/-- The next element of COEF lies in the next word (R66). -/
theorem Loc.coef_offset_succ (i : Nat) : (Loc.coef (i + 1)).offset = (Loc.coef i).offset + 4 := by
  simp only [Loc.offset]
  omega

/-- The host writes of `ldcoef` from index `i` on: each takes one step, and they leave the coefficients in COEF and the
count in NCOEF. -/
theorem run_writeCoefs {s : State} {i : Nat} {coeffs : List Byte} {count : Word} {rest : List Event}
    (hrst : s.rstN = true) (hbusy : s.busy = false) (hlen : i + coeffs.length ≤ 256)
    (hs : s.schedule = (writeFrom .coef i coeffs ++ [writeAt .ncoef count]).filterMap HostOp.event? ++ rest) :
    Host.Core.run Sys2Proof.core (coeffs.length + 1) s =
      .next ((((s.setElems (Loc.coef i).offset coeffs).setNcoef (count.setWidth 9)).respond
        ⟨true, 0⟩).setSchedule rest) := by
  induction coeffs generalizing s i with
  | nil =>
    rw [writeFrom, List.nil_append] at hs
    exact core_run_succ (step_writeAt hrst hbusy rfl rfl hs) 0
  | cons b bs ih =>
    rw [List.length_cons] at hlen ⊢
    rw [writeFrom, List.cons_append] at hs
    have hmapped : (Loc.coef i).mapped s.slots s.maxlen = true := decide_eq_true (by omega)
    have hbyte : (b.setWidth 32).setWidth 8 = b := by
      rw [BitVec.setWidth_setWidth_of_le b (by decide), BitVec.setWidth_eq]
    have hstep := step_writeAt hrst hbusy hmapped rfl hs
    rw [writeLoc, hbyte] at hstep
    have hrun := ih (i := i + 1)
      (s := ((s.setSchedule ((writeFrom .coef (i + 1) bs ++ [writeAt .ncoef count]).filterMap HostOp.event? ++
        rest)).setElem (Loc.coef i).offset b).respond ⟨true, 0⟩) hrst hbusy (by omega) rfl
    rw [Loc.coef_offset_succ] at hrun
    refine (core_run_succ hstep _).trans (hrun.trans (congrArg _ ?_))
    simp only [State.setElems, State.setElem, State.setNcoef, State.respond, State.setSchedule, Memory.writeElems]

/-- Settles O60: what `run_writeCoefs` leaves, read element by element. -/
theorem ldcoefLoadsTheCoefficients : Obligations.LdcoefLoadsTheCoefficients := by
  intro s coeffs rest hrst hbusy hlen hs
  have hcount : (BitVec.ofNat 32 coeffs.length).setWidth 9 = BitVec.ofNat 9 coeffs.length :=
    BitVec.setWidth_ofNat_of_le (by decide) _
  rw [HostStmt.events, HostStmt.ops] at hs
  have hrun := run_writeCoefs hrst hbusy (by omega) hs
  rw [hcount] at hrun
  refine ⟨_, hrun, fun k hk => ?_, fun a ha => ?_, ?_⟩
  · rw [List.getD_eq_getElem _ _ hk, State.coef, Loc.coef_offset k, State.setSchedule_elemByte, State.respond_elemByte,
      State.setNcoef_elemByte, s.elemByte_setElems_same hk]
  · rw [State.setSchedule_elemByte, State.respond_elemByte, State.setNcoef_elemByte]
    exact s.elemByte_setElems_other fun k hk => Loc.coef_offset k ▸ ha k hk
  · simp only [State.setElems, State.setNcoef, State.respond, State.setSchedule]

end Sys2Proof.Machine

/-! Proofs of the statements of 40_field_tables.md: NOP, INIT, TRESET and MUL; the tables are the powers of `x` and
their logarithms; the table product is the polynomial product, so it obeys the field laws. -/

namespace Sys2Proof.Machine

open Sys2Proof.Spec

/-! ### NOP, TRESET and MUL (R116 to R118) -/

/-- Settles O22: NOP is `complete()`. -/
theorem nopOnlyCompletes : Obligations.NopOnlyCompletes := fun _ => rfl

/-- Settles O26: without tables both windows show 0. -/
theorem tresetDiscardsTheTables : Obligations.TresetDiscardsTheTables :=
  fun _ => ⟨_, rfl, rfl, rfl, fun _ => ⟨rfl, rfl⟩⟩

theorem gfMul_eq_zero (exps logs : Table) {a b : Byte} (h : a = 0 ∨ b = 0) : gfMul exps logs a b = 0 := if_pos h

theorem gfMul_of_ne_zero (exps logs : Table) {a b : Byte} (ha : a ≠ 0) (hb : b ≠ 0) :
    gfMul exps logs a b = expAt exps ((logOf logs a + logOf logs b) % 255) := if_neg (not_or.2 ⟨ha, hb⟩)

/-- Settles O27: MUL writes `gfMul`, in its two cases. -/
theorem mulWritesTheProduct : Obligations.MulWritesTheProduct := by
  intro s exps logs a b hready
  have hmul : exec (.mul a b) s = .next (s.setResult (gfMul exps logs a b)).complete := execMul_ready hready a b
  refine ⟨fun hzero => ?_, fun ha hb => ?_⟩
  · rw [hmul, gfMul_eq_zero exps logs hzero]
    rfl
  · rw [hmul, gfMul_of_ne_zero exps logs ha hb]
    rfl

/-! ### INIT (R111 to R115) -/

/-- Settles O23: the loop's tables are those listed, and they pass the self-check. -/
theorem initBuildsTheListedTables : Obligations.InitBuildsTheListedTables :=
  fun s => ⟨_, execInit_eq s, rfl, rfl⟩

/-! ### Multiplication by x (R111) -/

/-- A byte multiplied by `x` and reduced by 0x11D. -/
def mulX (a : Byte) : Byte := if a.getLsbD 7 then a <<< 1 ^^^ 0x1D else a <<< 1

/-- The loop's 9-bit step (R111) is `mulX`, for each of the 256 bytes. -/
theorem doubleReduce_setWidth : ∀ a : Byte, doubleReduce (a.setWidth 9) = (mulX a).setWidth 9 := by
  decide +kernel

theorem setWidth_setWidth_byte (a : Byte) : (a.setWidth 9).setWidth 8 = a := by
  rw [BitVec.setWidth_setWidth_of_le a (by decide), BitVec.setWidth_eq]

/-- The loop's working value, as a byte, runs through the powers of `x` (R111). -/
theorem doubleReduce_iterate (k : Nat) : (doubleReduce^[k] 1).setWidth 8 = mulX^[k] 1 := by
  have hsemi : Function.Semiconj (BitVec.setWidth 9) mulX doubleReduce := fun a => (doubleReduce_setWidth a).symm
  have hiter : (mulX^[k] 1).setWidth 9 = doubleReduce^[k] 1 := hsemi.iterate_right k 1
  rw [← hiter, setWidth_setWidth_byte]

@[simp] theorem mulX_zero : mulX 0 = 0 := rfl

/-- Adding the same byte to two summands under one condition each adds it to the sum when exactly one holds. -/
theorem ite_xor_ite (p q : Bool) (a b c : Byte) :
    (if p ^^ q then (a ^^^ b) ^^^ c else a ^^^ b) = (if p then a ^^^ c else a) ^^^ (if q then b ^^^ c else b) := by
  cases p <;> cases q
  case false.false => rfl
  case false.true => exact BitVec.xor_assoc a b c
  case true.false => exact (by ac_rfl : (a ^^^ b) ^^^ c = (a ^^^ c) ^^^ b)
  case true.true =>
    calc a ^^^ b = (a ^^^ b) ^^^ (c ^^^ c) := by rw [BitVec.xor_self, BitVec.xor_zero]
      _ = (a ^^^ c) ^^^ (b ^^^ c) := by ac_rfl

theorem mulX_xor (a b : Byte) : mulX (a ^^^ b) = mulX a ^^^ mulX b := by
  rw [mulX, BitVec.getLsbD_xor, BitVec.shiftLeft_xor_distrib, ite_xor_ite]
  rfl

@[simp] theorem mulX_iterate_zero (k : Nat) : mulX^[k] 0 = 0 := Function.iterate_fixed mulX_zero k

/-! ### The listed tables: powers of `x` and their logarithms (R112, R113) -/

/-- The antilog listing of R112 is 1 followed by its multiples by `x`. -/
theorem expsListing_eq_iterate : expsListing = List.iterate mulX 1 256 := by decide +kernel

/-- The antilog table lists the powers of `x`. -/
theorem expAt_eq_iterate {k : Nat} (hk : k ≤ 255) : expAt expsTable k = mulX^[k] 1 := by
  have hlt : k < 256 := Nat.lt_succ_of_le hk
  have hget : expsListing[k]? = some (mulX^[k] 1) := by
    rw [expsListing_eq_iterate, List.getElem?_iterate _ _ _ _ hlt]
  rw [expAt, Table.entry_ofNat _ hlt, getElem!_pos expsTable k hlt]
  exact (List.getElem_eq_iff _).2 hget

/-- Multiplying 1 by `x` 255 times gives 1 again (R113). -/
theorem mulX_iterate_255 : mulX^[255] 1 = 1 := by decide +kernel

theorem expAt_mod (k : Nat) : expAt expsTable (k % 255) = mulX^[k] 1 :=
  (expAt_eq_iterate (Nat.mod_lt k (by decide)).le).trans
    (Function.IsPeriodicPt.iterate_mod_apply (f := mulX) mulX_iterate_255 k)

/-- What the self-check of R114 says of the listed tables. -/
theorem expAt_logOf {v : Byte} (hv : v ≠ 0) : expAt expsTable (logOf logsTable v) = v := by
  have hpos : 0 < v.toNat := Nat.pos_of_ne_zero fun h => hv (BitVec.eq_of_toNat_eq h)
  have hlt : v.toNat < 256 := v.isLt
  have hall := List.all_eq_true.1 selfCheck_listed (v.toNat - 1) (List.mem_range.2 (by omega))
  rw [Nat.sub_add_cancel hpos, BitVec.ofNat_toNat, BitVec.setWidth_eq] at hall
  rw [expAt, logOf, BitVec.ofNat_toNat, BitVec.setWidth_eq]
  exact eq_of_beq hall

theorem logOf_le (v : Byte) : logOf logsTable v ≤ 255 := Nat.le_of_lt_succ (Table.entry logsTable v).isLt

theorem logOf_zero : logOf logsTable 0 = 0 := by decide +kernel

theorem logOf_one : logOf logsTable 1 = 255 := by decide +kernel

/-- Only 1 could have the logarithm 0, and its logarithm is 255 (R113). -/
theorem one_le_logOf {v : Byte} (hv : v ≠ 0) : 1 ≤ logOf logsTable v := by
  refine Nat.pos_of_ne_zero fun hlog => ?_
  have hone : v = 1 := by rw [← expAt_logOf hv, hlog, expAt_eq_iterate (Nat.zero_le _), Function.iterate_zero_apply]
  rw [hone, logOf_one] at hlog
  cases hlog

/-- Every nonzero byte is the power of `x` that its logarithm names. -/
theorem iterate_logOf {v : Byte} (hv : v ≠ 0) : mulX^[logOf logsTable v] 1 = v :=
  (expAt_eq_iterate (logOf_le v)).symm.trans (expAt_logOf hv)

/-- Distinct nonzero bytes have distinct logarithms, and there are as many of them as exponents in [1, 255]: each of
these is a logarithm. -/
theorem exists_logOf_eq {i : Nat} (hpos : 1 ≤ i) (hle : i ≤ 255) : ∃ v : Byte, v ≠ 0 ∧ logOf logsTable v = i := by
  have hmaps : Set.MapsTo (logOf logsTable) (Finset.univ.erase (0 : Byte)) (Finset.Icc 1 255) := fun v hv =>
    Finset.mem_coe.2 (Finset.mem_Icc.2 ⟨one_le_logOf (Finset.ne_of_mem_erase hv), logOf_le v⟩)
  have hinj : Set.InjOn (logOf logsTable) (Finset.univ.erase (0 : Byte)) :=
    Set.LeftInvOn.injOn (f₁' := expAt expsTable) fun v hv => expAt_logOf (Finset.ne_of_mem_erase hv)
  have hcard : (Finset.Icc 1 255).card ≤ (Finset.univ.erase (0 : Byte)).card := by
    rw [Finset.card_erase_of_mem (Finset.mem_univ _), Finset.card_univ, ← FinEnum.card_eq_fintypeCard,
      FinEnum.card_bitVec, Nat.card_Icc]
    decide
  obtain ⟨v, hv, hlog⟩ :=
    Finset.surjOn_of_injOn_of_card_le _ hmaps hinj hcard (Finset.mem_coe.2 (Finset.mem_Icc.2 ⟨hpos, hle⟩))
  exact ⟨v, Finset.ne_of_mem_erase hv, hlog⟩

theorem logOf_expAt {i : Nat} (hpos : 1 ≤ i) (hle : i ≤ 255) : logOf logsTable (expAt expsTable i) = i := by
  obtain ⟨v, hv, rfl⟩ := exists_logOf_eq hpos hle
  rw [expAt_logOf hv]

/-- Settles O24: the antilog table lists the powers of `x`, and the logarithm inverts it. -/
theorem listedTablesAreExpAndLog : Obligations.ListedTablesAreExpAndLog := by
  refine ⟨expAt_eq_iterate (Nat.zero_le _), (expAt_eq_iterate le_rfl).trans mulX_iterate_255, fun i hi => ?_,
    fun v hv => ⟨one_le_logOf hv, logOf_le v, expAt_logOf hv⟩, fun i hpos hle => logOf_expAt hpos hle, logOf_zero⟩
  rw [doubleReduce_setWidth, setWidth_setWidth_byte, expAt_eq_iterate hi, expAt_eq_iterate hi.le,
    Function.iterate_succ_apply']

/-! ### INIT's loop over any old content (R111, R115) -/

theorem Table.ext_entry {t t' : Table} (h : ∀ i, t.entry i = t'.entry i) : t = t' :=
  Vector.ext fun i hi => by
    have hentry := h (BitVec.ofNat 8 i)
    rwa [Table.entry_ofNat t hi, Table.entry_ofNat t' hi, getElem!_pos t i hi, getElem!_pos t' i hi] at hentry

theorem Table.entry_setEntry (t : Table) (i j v : Byte) :
    (t.setEntry i v).entry j = if i = j then v else t.entry j := by
  simp only [Table.entry, Table.setEntry, Vector.getElem_set, BitVec.toNat_inj]

/-- After a write two tables agree at the entry written and wherever they agreed before. -/
theorem Table.entry_setEntry_congr {t t' : Table} {j : Byte} (i v : Byte) (h : t.entry j = t'.entry j ∨ j = i) :
    (t.setEntry i v).entry j = (t'.setEntry i v).entry j := by
  rw [Table.entry_setEntry, Table.entry_setEntry]
  rcases h with h | rfl
  · rw [h]
  · rw [if_pos rfl, if_pos rfl]

/-- The loop leaves the same EXPS entry over two contents that agree there, or where it writes: from position `i` on. -/
theorem buildLoop_exps_congr {n i : Nat} {x : BitVec 9} {exps exps' logs logs' : Table} {j : Byte}
    (h : exps.entry j = exps'.entry j ∨ ∃ k < n, j = BitVec.ofNat 8 (i + k)) :
    (buildLoop n i x exps logs).1.entry j = (buildLoop n i x exps' logs').1.entry j := by
  induction n generalizing i x exps exps' logs logs' with
  | zero => exact h.resolve_right fun ⟨_, hk, _⟩ => absurd hk (Nat.not_lt_zero _)
  | succ n ih =>
    refine ih ?_
    rcases h with h | ⟨_ | k, hk, hj⟩
    · exact .inl (Table.entry_setEntry_congr _ _ (.inl h))
    · exact .inl (Table.entry_setEntry_congr _ _ (.inr hj))
    · exact .inr ⟨k, Nat.lt_of_succ_lt_succ hk, by rw [hj, Nat.add_right_comm, Nat.add_assoc]⟩

/-- The loop leaves the same LOGS entry over two contents that agree there, or where it writes: at the values that `x`
takes. -/
theorem buildLoop_logs_congr {n i : Nat} {x : BitVec 9} {exps exps' logs logs' : Table} {v : Byte}
    (h : logs.entry v = logs'.entry v ∨ ∃ k < n, v = (doubleReduce^[k] x).setWidth 8) :
    (buildLoop n i x exps logs).2.entry v = (buildLoop n i x exps' logs').2.entry v := by
  induction n generalizing i x exps exps' logs logs' with
  | zero => exact h.resolve_right fun ⟨_, hk, _⟩ => absurd hk (Nat.not_lt_zero _)
  | succ n ih =>
    refine ih ?_
    rcases h with h | ⟨_ | k, hk, hv⟩
    · exact .inl (Table.entry_setEntry_congr _ _ (.inl h))
    · exact .inl (Table.entry_setEntry_congr _ _ (.inr hv))
    · exact .inr ⟨k, Nat.lt_of_succ_lt_succ hk, hv⟩

theorem buildTablesOver_eq (exps logs : Table) :
    buildTablesOver exps logs =
      ((buildLoop 256 0 1 exps logs).1, Table.setEntry (buildLoop 256 0 1 exps logs).2 0 0) := rfl

/-- The loop writes EXPS at every position, and LOGS at every power of `x`, which is every value but 0; `logs[0]` is
written after it. -/
theorem buildTablesOver_congr (exps logs exps' logs' : Table) :
    buildTablesOver exps logs = buildTablesOver exps' logs' := by
  rw [buildTablesOver_eq, buildTablesOver_eq]
  refine congrArg₂ Prod.mk (Table.ext_entry fun j => ?_) (Table.ext_entry fun v => ?_)
  · refine buildLoop_exps_congr (.inr ⟨j.toNat, j.isLt, ?_⟩)
    rw [Nat.zero_add, BitVec.ofNat_toNat, BitVec.setWidth_eq]
  · refine Table.entry_setEntry_congr 0 0 (or_iff_not_imp_right.2 fun hv => buildLoop_logs_congr (.inr ?_))
    exact ⟨logOf logsTable v, Nat.lt_succ_of_le (logOf_le v),
      (iterate_logOf hv).symm.trans (doubleReduce_iterate _).symm⟩

/-- Settles O25: in particular over tables of zeros (log 13). -/
theorem tableBuildIgnoresOldContent : Obligations.TableBuildIgnoresOldContent :=
  fun exps logs => buildTablesOver_congr exps logs _ _

/-! ### The polynomial product (R2, R119) -/

theorem polyTimesFrom_succ (b : Byte) (n k : Nat) (a acc : Byte) :
    polyTimesFrom b (n + 1) k a acc =
      polyTimesFrom b n (k + 1) (mulX a) (if b.getLsbD k then acc ^^^ a else acc) := rfl

/-- A factor `x` may be taken out of the left operand of the shift-and-add loop. -/
theorem polyTimesFrom_mulX (b : Byte) (n k : Nat) (a acc : Byte) :
    polyTimesFrom b n k (mulX a) (mulX acc) = mulX (polyTimesFrom b n k a acc) := by
  induction n generalizing k a acc with
  | zero => rfl
  | succ n ih => rw [polyTimesFrom_succ, polyTimesFrom_succ, ← mulX_xor, ← apply_ite mulX, ih]

/-- The shift-and-add loop is additive in its right operand. -/
theorem polyTimesFrom_xor (b c : Byte) (n k : Nat) (a accB accC : Byte) :
    polyTimesFrom (b ^^^ c) n k a (accB ^^^ accC) =
      polyTimesFrom b n k a accB ^^^ polyTimesFrom c n k a accC := by
  induction n generalizing k a accB accC with
  | zero => rfl
  | succ n ih =>
    rw [polyTimesFrom_succ, polyTimesFrom_succ, polyTimesFrom_succ, ← ih, BitVec.getLsbD_xor, ite_xor_ite]

theorem polyTimes_xor (a b c : Byte) : polyTimes a (b ^^^ c) = polyTimes a b ^^^ polyTimes a c :=
  polyTimesFrom_xor b c 8 0 a 0 0

/-- 1 is the identity of the polynomial product, for each of the 256 bytes. -/
theorem one_polyTimes : ∀ b : Byte, polyTimes 1 b = b := by decide +kernel

theorem iterate_polyTimes (k : Nat) (a b : Byte) : polyTimes (mulX^[k] a) b = mulX^[k] (polyTimes a b) :=
  Function.Commute.iterate_right (f := (polyTimes · b)) (fun c => polyTimesFrom_mulX b 8 0 c 0) k a

theorem zero_polyTimesFrom (b : Byte) (n k : Nat) : polyTimesFrom b n k 0 0 = 0 := by
  have hadd : (0 : Byte) ^^^ 0 = 0 := BitVec.xor_self
  induction n generalizing k with
  | zero => rfl
  | succ n ih => rw [polyTimesFrom_succ, mulX_zero, hadd, ite_self, ih]

theorem zero_polyTimes (b : Byte) : polyTimes 0 b = 0 := zero_polyTimesFrom b 8 0

/-! ### The table product (R119) -/

theorem times_comm (a b : Byte) : times a b = times b a := by
  simp only [times, gfMul, or_comm, Nat.add_comm]

theorem zero_times (a : Byte) : times 0 a = 0 := gfMul_eq_zero _ _ (.inl rfl)

theorem times_zero (a : Byte) : times a 0 = 0 := gfMul_eq_zero _ _ (.inr rfl)

/-- The product with a nonzero byte multiplies by `x` as often as the byte's logarithm says. -/
theorem times_eq_iterate {a : Byte} (ha : a ≠ 0) (b : Byte) : times a b = mulX^[logOf logsTable a] b := by
  by_cases hb : b = 0
  · rw [hb, times_zero, mulX_iterate_zero]
  · rw [times, gfMul_of_ne_zero _ _ ha hb, expAt_mod, Function.iterate_add_apply, iterate_logOf hb]

/-- Settles O29: a nonzero byte is a power of `x`, and both products take the factors `x` out of it. -/
theorem tableProductIsPolynomialProduct : Obligations.TableProductIsPolynomialProduct := by
  intro a b
  by_cases ha : a = 0
  · rw [ha, zero_times, zero_polyTimes]
  · calc times a b = mulX^[logOf logsTable a] b := times_eq_iterate ha b
      _ = mulX^[logOf logsTable a] (polyTimes 1 b) := by rw [one_polyTimes]
      _ = polyTimes (mulX^[logOf logsTable a] 1) b := (iterate_polyTimes _ 1 b).symm
      _ = polyTimes a b := by rw [iterate_logOf ha]

theorem one_times (a : Byte) : times 1 a = a := by rw [tableProductIsPolynomialProduct, one_polyTimes]

theorem times_one (a : Byte) : times a 1 = a := by rw [times_comm, one_times]

theorem times_xor (a b c : Byte) : times a (b ^^^ c) = times a b ^^^ times a c := by
  simp only [tableProductIsPolynomialProduct _ _, polyTimes_xor]

theorem xor_times (a b c : Byte) : times (a ^^^ b) c = times a c ^^^ times b c := by
  rw [times_comm, times_xor, times_comm c a, times_comm c b]

theorem iterate_times (k : Nat) (a b : Byte) : times (mulX^[k] a) b = mulX^[k] (times a b) := by
  rw [tableProductIsPolynomialProduct, iterate_polyTimes, tableProductIsPolynomialProduct]

theorem times_assoc (a b c : Byte) : times (times a b) c = times a (times b c) := by
  by_cases ha : a = 0
  · rw [ha, zero_times, zero_times, zero_times]
  · rw [times_eq_iterate ha, times_eq_iterate ha, iterate_times]

theorem times_inverse {a : Byte} (ha : a ≠ 0) : times a (inverse a) = 1 := by
  rw [times_eq_iterate ha, inverse, expAt_mod, ← Function.iterate_add_apply, Nat.add_sub_cancel' (logOf_le a),
    mulX_iterate_255]

theorem times_eq_one_iff {a b : Byte} (ha : a ≠ 0) : times a b = 1 ↔ b = inverse a := by
  constructor
  · intro h
    calc b = times (times (inverse a) a) b := by rw [times_comm (inverse a), times_inverse ha, one_times]
      _ = inverse a := by rw [times_assoc, h, times_one]
  · rintro rfl
    exact times_inverse ha

/-- Settles O28: the laws one by one. -/
theorem productObeysTheFieldLaws : Obligations.ProductObeysTheFieldLaws :=
  ⟨times_comm, times_assoc, one_times, zero_times, times_xor, fun _ _ ha => times_eq_one_iff ha⟩

end Sys2Proof.Machine

/-! Proofs of the statements of 41_polynomial.md: the checks before a command runs, Horner's rule, the draws of GENPTS
and what it waits for, and that Lagrange interpolation recovers the constant term. -/

namespace Sys2Proof.Machine

open Sys2Proof.Spec

/-! ### The checks of TSTATE, of the counts and of GENPTS's operands (R140, R141, R150, R170, R171, R176) -/

/-- Before INIT a GENPTS clears ICOEF and completes (R140, R153). -/
theorem execGenpts_notReady {s : State} (h : s.tstate = .uninitialized) (secret n thr : Byte) :
    execGenpts secret n thr s = .next (s.clearDraws.raise .notReady 0) := by
  simp only [execGenpts, h]

/-- Settles O21: TSTATE is what each of the five looks at first. -/
theorem commandsBeforeInitGetNotReady : Obligations.CommandsBeforeInitGetNotReady := by
  refine ⟨rfl, fun s h => ⟨fun a b => ?_, fun x => ?_, fun secret n thr => ?_, fun pt => ?_, fun pt => ?_⟩⟩
  · simp only [exec, execMul, h]; rfl
  · simp only [exec, execEval, h]; rfl
  · rw [exec, execGenpts_notReady h]; rfl
  · simp only [exec, execLagr, h]; rfl
  · simp only [exec, execCombine, h]; rfl

/-- Settles O32: with the tables ready the count is what each of the three looks at next. -/
theorem countsOutOfRangeCompleteWithCount : Obligations.CountsOutOfRangeCompleteWithCount := by
  refine ⟨rfl, fun s exps logs h => ⟨fun hn x => ?_, fun hn pt => ?_, fun hn pt => ?_⟩⟩
  · simp only [exec, execEval, h, if_pos hn]; rfl
  · simp only [exec, execLagr, h, if_pos hn]; rfl
  · simp only [exec, execCombine, h, if_pos hn]; rfl

theorem genptsCheck_numShares {n : Byte} (hn : n.toNat < 2) (thr : Byte) :
    genptsCheck n thr = some .valNshares := if_pos (.inl hn)

theorem genptsCheck_threshold {n thr : Byte} (hn : 2 ≤ n.toNat) (ht : thr.toNat < 2) :
    genptsCheck n thr = some .valThreshold := by
  have hn255 : n.toNat < 256 := n.isLt
  rw [genptsCheck, if_neg (by omega), if_pos (.inl ht)]

theorem genptsCheck_order {n thr : Byte} (hn : 2 ≤ n.toNat) (ht : 2 ≤ thr.toNat) (hlt : n.toNat < thr.toNat) :
    genptsCheck n thr = some .valTGtN := by
  have ht255 : thr.toNat < 256 := thr.isLt
  rw [genptsCheck, if_neg (by omega), if_neg (by omega), if_pos hlt]

/-- A failed check of R150 on the first turn: ICOEF is cleared and nothing is drawn (R153). -/
theorem exec_genpts_failed {s : State} {exps logs : Table} (h : s.tstate = .ready exps logs) (hd : s.drawAt = none)
    {n thr : Byte} {code : Code} (hc : genptsCheck n thr = some code) (secret : Byte) :
    exec (.genpts secret n thr) s = .next (failed { s with icoef := icoefZero } code 0) := by
  have hclear : s.clearDraws = { s with icoef := icoefZero } := by rw [State.clearDraws, ← hd]
  rw [exec, execGenpts_check h hd hc, hclear]
  rfl

/-- Settles O33: the check that fails first gives the code. -/
theorem genptsChecksItsOperandsInOrder : Obligations.GenptsChecksItsOperandsInOrder := by
  refine ⟨rfl, rfl, rfl, fun s exps logs secret n thr h hd => ⟨fun hn => ?_, fun hn ht => ?_, fun hn ht hlt => ?_⟩⟩
  · exact exec_genpts_failed h hd (genptsCheck_numShares hn thr) secret
  · exact exec_genpts_failed h hd (genptsCheck_threshold hn ht) secret
  · exact exec_genpts_failed h hd (genptsCheck_order hn ht hlt) secret

/-! ### Horner's rule (R142 to R144) -/

/-- The field's zero is neutral for its addition. -/
theorem byte_zero_xor (a : Byte) : 0 ^^^ a = a := BitVec.zero_xor

theorem byte_xor_zero (a : Byte) : a ^^^ 0 = a := BitVec.xor_zero

theorem finishResult_ok (v : Byte) (s : State) : finishResult (.ok v) s = completed { s with result := v } := rfl

theorem finishResult_error (k : Nat) (s : State) : finishResult (.error k) s = failed s .logZero k := rfl

/-- EVAL with the tables ready and a legal count: what Horner's rule gives. -/
theorem exec_eval_ready {s : State} {exps logs : Table} (h : s.tstate = .ready exps logs)
    (hn : s.ncoef.toNat ≤ 256) (x : Byte) :
    exec (.eval x) s = .next (finishResult (hornerEval exps logs x s.coef s.ncoef.toNat) s) :=
  execEval_ready h hn x

/-- Where no step reads logs[0], a step multiplies by `x` and adds the next coefficient. -/
theorem hornerLoop_succ (exps logs : Table) {x fx : Byte} (c : Nat → Byte) (k : Nat) (h : x ≠ 0 ∨ fx = 0) :
    hornerLoop exps logs x c (k + 1) fx = hornerLoop exps logs x c k (gfMul exps logs x fx ^^^ c k) := by
  by_cases hfx : fx = 0
  · rw [hornerLoop, if_pos hfx, gfMul_eq_zero exps logs (.inr hfx), byte_zero_xor]
  · have hx : x ≠ 0 := h.resolve_right hfx
    rw [hornerLoop, if_neg hfx, if_neg hx, gfMul_of_ne_zero exps logs hx hfx]

/-- A step with `x` = 0 on a value that is not 0 reads logs[0] (R143). -/
theorem hornerLoop_succ_error (exps logs : Table) {fx : Byte} (c : Nat → Byte) (k : Nat) (hfx : fx ≠ 0) :
    hornerLoop exps logs 0 c (k + 1) fx = .error k := by
  rw [hornerLoop, if_neg hfx, if_pos rfl]

/-- Coefficients 0 at the top are passed over. -/
theorem hornerEval_of_zeros (exps logs : Table) (x : Byte) {c : Nat → Byte} {m n : Nat} (hmn : m ≤ n)
    (h : ∀ k, m ≤ k → k < n → c k = 0) : hornerEval exps logs x c n = hornerEval exps logs x c m := by
  induction n, hmn using Nat.le_induction with
  | base => rfl
  | succ n hmn ih =>
    have hstep : hornerEval exps logs x c (n + 1) = hornerEval exps logs x c n := by
      rw [hornerEval, hornerLoop_succ exps logs c n (.inr rfl), gfMul_eq_zero exps logs (.inr rfl),
        h n hmn (Nat.lt_succ_self n)]
      rfl
    rw [hstep, ih fun k hk hlt => h k hk (Nat.lt_succ_of_lt hlt)]

/-- Horner's rule at 0 reads logs[0] after the largest nonzero coefficient but c_0 (R143). -/
theorem hornerEval_zero_error (exps logs : Table) {c : Nat → Byte} {m n : Nat} (hm : 1 ≤ m) (hmn : m < n)
    (hc : c m ≠ 0) (h : ∀ k, m < k → k < n → c k = 0) : hornerEval exps logs 0 c n = .error (m - 1) := by
  obtain ⟨k, rfl⟩ : ∃ k, m = k + 1 := ⟨m - 1, by omega⟩
  have htop : hornerEval exps logs 0 c (k + 2) = .error k := by
    rw [hornerEval, hornerLoop_succ exps logs c (k + 1) (.inr rfl), gfMul_eq_zero exps logs (.inr rfl), byte_zero_xor,
      hornerLoop_succ_error exps logs c k hc]
  rw [hornerEval_of_zeros exps logs 0 hmn h, htop, Nat.add_sub_cancel]

/-- Where every coefficient but c_0 is 0 the value is c_0, and no step reads logs[0] (R143). -/
theorem hornerEval_constant (exps logs : Table) (x : Byte) {c : Nat → Byte} {n : Nat} (hn : 1 ≤ n)
    (h : ∀ k, 1 ≤ k → k < n → c k = 0) : hornerEval exps logs x c n = .ok (c 0) := by
  rw [hornerEval_of_zeros exps logs x hn h, hornerEval, hornerLoop, if_pos rfl, hornerLoop]

/-- Settles O31: which coefficient Horner's rule stops at, if any. -/
theorem evalAtZeroRaisesLogZero : Obligations.EvalAtZeroRaisesLogZero := by
  refine ⟨rfl, fun s exps logs h hn => ⟨fun m hm hmn hc hz => ?_, fun hpos hz => ?_, fun x hx => ?_⟩⟩
  · rw [exec_eval_ready h hn, hornerEval_zero_error exps logs hm hmn hc hz, finishResult_error]
  · rw [exec_eval_ready h hn, hornerEval_constant exps logs 0 hpos hz, finishResult_ok]
  · obtain ⟨v, hv⟩ := hornerLoop_ok_of_ne_zero exps logs s.coef hx s.ncoef.toNat 0
    exact ⟨v, by rw [exec_eval_ready h hn, hornerEval, hv, finishResult_ok]⟩

/-- The loop's value: the running value times the power of `x` still to come, and the terms still to come. -/
theorem hornerLoop_eq {x : Byte} (hx : x ≠ 0) (c : Nat → Byte) (n : Nat) (fx : Byte) :
    hornerLoop expsTable logsTable x c n fx = .ok (times fx (power x n) ^^^ polyValue c x n) := by
  induction n generalizing fx with
  | zero => rw [hornerLoop, power, times_one, polyValue, byte_xor_zero]
  | succ n ih =>
    have hterm : times (times x fx) (power x n) = times fx (power x (n + 1)) := by
      rw [times_comm x, times_assoc, times_comm x, power]
    calc hornerLoop expsTable logsTable x c (n + 1) fx
        = hornerLoop expsTable logsTable x c n (times x fx ^^^ c n) := hornerLoop_succ _ _ c n (.inl hx)
      _ = .ok (times (times x fx ^^^ c n) (power x n) ^^^ polyValue c x n) := ih _
      _ = .ok (times fx (power x (n + 1)) ^^^ polyValue c x (n + 1)) := by
        rw [xor_times, hterm, polyValue, BitVec.xor_assoc, BitVec.xor_comm (polyValue c x n)]

/-- Horner's rule gives the polynomial's value (R144). -/
theorem hornerEval_eq_polyValue {x : Byte} (hx : x ≠ 0) (c : Nat → Byte) (n : Nat) :
    hornerEval expsTable logsTable x c n = .ok (polyValue c x n) := by
  rw [hornerEval, hornerLoop_eq hx, zero_times, byte_zero_xor]

/-- A polynomial's value at 0 is its constant term (R144). -/
theorem polyValue_zero (c : Nat → Byte) {n : Nat} (hn : 1 ≤ n) : polyValue c 0 n = c 0 := by
  induction n, hn using Nat.le_induction with
  | base => rw [polyValue, polyValue, power, times_one, byte_zero_xor]
  | succ n hn ih =>
    obtain ⟨k, rfl⟩ : ∃ k, n = k + 1 := ⟨n - 1, by omega⟩
    rw [polyValue, ih, power, times_zero, times_zero, byte_xor_zero]

/-- Settles O30: Horner's rule at a nonzero point, and at 0 for a constant. -/
theorem evalWritesThePolynomialValue : Obligations.EvalWritesThePolynomialValue := by
  intro s x hready hn hx
  have hvalue : hornerEval expsTable logsTable x s.coef s.ncoef.toNat = .ok (polyValue s.coef x s.ncoef.toNat) := by
    by_cases hx0 : x = 0
    · subst hx0
      have hz := hx.resolve_left (not_not_intro rfl)
      rcases Nat.eq_zero_or_pos s.ncoef.toNat with h0 | hpos
      · rw [h0]
        rfl
      · rw [hornerEval_constant _ _ 0 hpos hz, polyValue_zero _ hpos]
    · exact hornerEval_eq_polyValue hx0 s.coef _
  rw [exec_eval_ready hready hn, hvalue, finishResult_ok]

/-! ### ICOEF while the coefficients are drawn (R151) -/

/-- ICOEF with the bytes of a list in its first entries. -/
def icoefFill (coeffs : Vector Byte 255) (bytes : List Byte) : Vector Byte 255 :=
  coeffs.mapIdx fun i b => bytes.getD i b

theorem icoefAt_of_lt (coeffs : Vector Byte 255) {i : Nat} (h : i < 255) : icoefAt coeffs i = coeffs[i] := by
  simp [icoefAt, h]

theorem icoefAt_icoefFill (coeffs : Vector Byte 255) (bytes : List Byte) {i : Nat} (h : i < 255) :
    icoefAt (icoefFill coeffs bytes) i = bytes.getD i (icoefAt coeffs i) := by
  rw [icoefAt_of_lt _ h, icoefAt_of_lt _ h, icoefFill, Vector.getElem_mapIdx]

/-- Two contents of ICOEF are the same when their 255 entries are. -/
theorem icoef_ext {c c' : Vector Byte 255} (h : ∀ i, i < 255 → icoefAt c i = icoefAt c' i) : c = c' :=
  Vector.ext fun i hi => by rw [← icoefAt_of_lt c hi, ← icoefAt_of_lt c' hi, h i hi]

theorem icoefFill_singleton (coeffs : Vector Byte 255) (b : Byte) :
    icoefFill coeffs [b] = icoefSet coeffs 0 b := by
  refine icoef_ext fun i hi => ?_
  rw [icoefAt_icoefFill _ _ hi, icoefAt_icoefSet _ _ _ hi]
  cases i <;> simp

/-- One more byte goes into the entry after those filled. -/
theorem icoefFill_append (coeffs : Vector Byte 255) (bytes : List Byte) (b : Byte) :
    icoefFill coeffs (bytes ++ [b]) = icoefSet (icoefFill coeffs bytes) bytes.length b := by
  refine icoef_ext fun i hi => ?_
  rw [icoefAt_icoefFill _ _ hi, icoefAt_icoefSet _ _ _ hi, icoefAt_icoefFill _ _ hi]
  rcases Nat.lt_trichotomy i bytes.length with hlt | rfl | hgt
  · rw [List.getD_append _ _ _ _ hlt, if_neg hlt.ne']
  · rw [List.getD_append_right _ _ _ _ le_rfl, Nat.sub_self, if_pos rfl]
    rfl
  · rw [if_neg hgt.ne, List.getD_eq_default _ _ hgt.le, List.getD_eq_default _ _ (by simpa using hgt)]

/-! ### The coefficients kept of the bytes drawn (R151) -/

/-- A nonzero byte is kept. -/
theorem filter_nonzero {b : Byte} (hb : b ≠ 0) : [b].filter (fun b => b ≠ 0) = [b] :=
  List.filter_cons_of_pos (decide_eq_true hb)

theorem coefficients_append (secret : Byte) (draws : List Byte) {b : Byte} (hb : b ≠ 0) :
    coefficients secret (draws ++ [b]) = coefficients secret draws ++ [b] := by
  rw [coefficients, coefficients, List.filter_append, filter_nonzero hb, List.cons_append]

theorem coefficients_append_zero (secret : Byte) (draws : List Byte) :
    coefficients secret (draws ++ [0]) = coefficients secret draws := by
  simp [coefficients, List.filter_append]

theorem coefficients_length (secret : Byte) (draws : List Byte) :
    (coefficients secret draws).length = kept draws + 1 := rfl

theorem kept_append (draws more : List Byte) : kept (draws ++ more) = kept draws + kept more := by
  simp only [kept, List.filter_append, List.length_append]

theorem exchanges_cons (b : Byte) (draws : List Byte) :
    exchanges (b :: draws) = .engine :: .rng false b :: exchanges draws := rfl

theorem exchanges_append (draws more : List Byte) :
    exchanges (draws ++ more) = exchanges draws ++ exchanges more := List.flatMap_append

/-! ### A GENPTS in the loop of R151 -/

theorem exists_tables_of_ready {s : State} (h : s.ready = true) : ∃ exps logs, s.tstate = .ready exps logs := by
  unfold State.ready at h
  split at h
  · cases h
  · exact ⟨_, _, by assumption⟩

/-- A GENPTS is in the loop of R151 and coefficient `k` is still to be drawn, whether or not its request is out. -/
structure DrawsAt (s : State) (secret n thr : Byte) (k : Nat) : Prop where
  rstN : s.rstN = true
  running : ∃ w, s.eng = .busy w ∧ decode w = .ok (.genpts secret n thr)
  ready : s.ready = true
  drawAt : s.drawAt = some k
  lt : k < thr.toNat

/-- It is seen through these fields alone. -/
theorem DrawsAt.congr {s t : State} {secret n thr : Byte} {k : Nat} (h : DrawsAt s secret n thr k)
    (hrst : t.rstN = s.rstN) (heng : t.eng = s.eng) (htables : t.tstate = s.tstate) (hdraw : t.drawAt = s.drawAt) :
    DrawsAt t secret n thr k where
  rstN := hrst.trans h.rstN
  running := heng ▸ h.running
  ready := by rw [State.ready, htables]; exact h.ready
  drawAt := hdraw.trans h.drawAt
  lt := h.lt

/-- The engine's turn on such a GENPTS, with no request out: the request. -/
theorem DrawsAt.runCommand {s : State} {secret n thr : Byte} {k : Nat} (h : DrawsAt s secret n thr k)
    (hreq : s.rngReq = .idle) {w : Word} (heng : s.eng = .busy w) : runCommand w s = .next s.request := by
  obtain ⟨w', heng', hdec⟩ := h.running
  cases heng.symm.trans heng'
  obtain ⟨exps, logs, htables⟩ := exists_tables_of_ready h.ready
  exact (runCommand_ok hdec s).trans (execGenpts_request htables h.drawAt hreq h.lt secret n)

/-- The step with the engine's turn next: the request (R212). -/
theorem DrawsAt.step_request {s : State} {secret n thr : Byte} {k : Nat} (h : DrawsAt s secret n thr k)
    (hreq : s.rngReq = .idle) {rest : List Event} (hs : s.schedule = .engine :: rest) :
    step s = .next (s.setSchedule rest).request := by
  obtain ⟨w, heng, hdec⟩ := h.running
  have hlater : DrawsAt (s.setSchedule rest) secret n thr k := h.congr rfl rfl rfl rfl
  exact (step_engine h.rstN heng hreq hs).trans (hlater.runCommand hreq heng)

/-- The step with an answer next, while the request is out: the answer to the draw (R151, R212). -/
theorem DrawsAt.step_answer {s : State} {secret n thr : Byte} {k : Nat} (h : DrawsAt s secret n thr k)
    (hreq : s.rngReq = .pending) {fail : Bool} {data : Byte} {rest : List Event}
    (hs : s.schedule = .rng fail data :: rest) :
    step s = .next (takeDraw (portAnswer fail data) (s.setSchedule rest)) := by
  obtain ⟨w, heng, -⟩ := h.running
  exact Machine.step_answer h.rstN heng hreq hs

/-! ### The draws of an accepted GENPTS (R151, R212) -/

/-- The state of an accepted GENPTS once these bytes are drawn, with no request out: the secret byte and the nonzero
bytes in ICOEF, the loop of R151 after them, and these events to come. -/
def State.drawn (s : State) (secret : Byte) (draws : List Byte) (rest : List Event) : State :=
  { s with
    icoef := icoefFill s.icoef (coefficients secret draws)
    drawAt := some (kept draws + 1)
    schedule := rest }

/-- With no byte drawn it is the start of the loop of R151. -/
theorem State.drawn_nil (s : State) (secret : Byte) (rest : List Event) :
    s.drawn secret [] rest = (s.setSchedule rest).startDraws secret := by
  have hfill : icoefFill s.icoef (coefficients secret []) = icoefSet s.icoef 0 secret := icoefFill_singleton ..
  rw [State.drawn, hfill]
  rfl

/-- While too few coefficients are drawn, the loop of R151 goes on. -/
theorem drawsAt_drawn {s : State} {secret n thr : Byte} (h : genptsAccepted s secret n thr) {draws : List Byte}
    (hkept : kept draws < thr.toNat - 1) (rest : List Event) :
    DrawsAt (s.drawn secret draws rest) secret n thr (kept draws + 1) := by
  obtain ⟨hrst, hrun, hready, -, -, -, -⟩ := h
  exact ⟨hrst, hrun, hready, rfl, by omega⟩

/-- The request raised and dropped again is none, where none was out. -/
theorem State.dropRequest_request {s : State} (h : s.rngReq = .idle) : s.request.dropRequest = s := by
  rw [State.dropRequest, State.request, ← h]

/-- A byte in answer to the request is one more byte drawn (R151). -/
theorem takeDraw_drawn {s : State} (hreq : s.rngReq = .idle) (secret : Byte) (draws : List Byte) (b : Byte)
    (rest : List Event) :
    takeDraw (.byte b) (s.drawn secret draws rest).request = s.drawn secret (draws ++ [b]) rest := by
  have hdrop : (s.drawn secret draws rest).request.dropRequest = s.drawn secret draws rest :=
    State.dropRequest_request hreq
  have htake : takeDraw (.byte b) (s.drawn secret draws rest).request =
      if b = 0 then (s.drawn secret draws rest).request.dropRequest
      else (s.drawn secret draws rest).request.dropRequest.keepDraw (kept draws + 1) b := rfl
  rw [htake, hdrop, State.drawn, State.drawn, kept_append]
  by_cases hb : b = 0
  · rw [if_pos hb, hb, coefficients_append_zero]
    rfl
  · have hone : kept [b] = 1 := by rw [kept, filter_nonzero hb]; rfl
    rw [if_neg hb, coefficients_append secret draws hb, icoefFill_append, coefficients_length, hone]
    rfl

section

variable {s : State} {secret n thr : Byte} (h : genptsAccepted s secret n thr)
include h

/-- The first turn of an accepted GENPTS is a request of the loop of R151 at its start. -/
theorem step_accepted {rest : List Event} (hs : s.schedule = .engine :: rest) :
    step s = step (s.drawn secret [] s.schedule) := by
  have ⟨hrst, ⟨w, heng, hdec⟩, hready, hthr, hle, hreq, hdraw⟩ := h
  obtain ⟨exps, logs, htables⟩ := exists_tables_of_ready hready
  have hnone : kept [] < thr.toNat - 1 := (by omega : 0 < thr.toNat - 1)
  have hstart : execGenpts secret n thr (s.setSchedule rest) = .next ((s.setSchedule rest).startDraws secret).request :=
    execGenpts_start (s := s.setSchedule rest) htables hdraw (genptsCheck_none.2 ⟨hthr, hle⟩) secret
  rw [(drawsAt_drawn h hnone s.schedule).step_request hreq hs, step_engine hrst heng hreq hs, runCommand_ok hdec]
  refine hstart.trans ?_
  rw [← State.drawn_nil]
  rfl

/-- A run that begins with the first turn may begin at the start of the loop of R151 as well. -/
theorem run_accepted {rest : List Event} (hs : s.schedule = .engine :: rest) (m : Nat) :
    Host.Core.run Sys2Proof.core (m + 1) s =
      Host.Core.run Sys2Proof.core (m + 1) (s.drawn secret [] s.schedule) := by
  obtain ⟨t, ht, -⟩ := step_steps s
  rw [core_run_succ ht, core_run_succ ((step_accepted h hs).symm.trans ht)]

/-- The step that makes the next request. -/
theorem step_drawn_request {draws : List Byte} (hkept : kept draws < thr.toNat - 1) (rest : List Event) :
    step (s.drawn secret draws (.engine :: rest)) = .next (s.drawn secret draws rest).request := by
  have ⟨_, _, _, _, _, hreq, _⟩ := h
  exact (drawsAt_drawn h hkept _).step_request hreq rfl

/-- The step that answers it. -/
theorem step_drawn_answer {draws : List Byte} (hkept : kept draws < thr.toNat - 1) (fail : Bool) (data : Byte)
    (rest : List Event) :
    step (s.drawn secret draws (.rng fail data :: rest)).request =
      .next (takeDraw (portAnswer fail data) (s.drawn secret draws rest).request) := by
  have hpending : DrawsAt (s.drawn secret draws (.rng fail data :: rest)).request secret n thr (kept draws + 1) :=
    (drawsAt_drawn h hkept (.rng fail data :: rest)).congr rfl rfl rfl rfl
  exact hpending.step_answer rfl rfl

/-- One exchange of R212 takes two steps and draws its byte. -/
theorem run_exchange {draws : List Byte} (hkept : kept draws < thr.toNat - 1) (b : Byte) (rest : List Event) (m : Nat) :
    Host.Core.run Sys2Proof.core (m + 2) (s.drawn secret draws (.engine :: .rng false b :: rest)) =
      Host.Core.run Sys2Proof.core m (s.drawn secret (draws ++ [b]) rest) := by
  have ⟨_, _, _, _, _, hreq, _⟩ := h
  rw [core_run_succ (step_drawn_request h hkept _), core_run_succ (step_drawn_answer h hkept false b rest)]
  exact congrArg _ (takeDraw_drawn hreq secret draws b rest)

/-- The exchanges that draw bytes too few to complete the coefficients. -/
theorem run_exchanges {before draws : List Byte} (hkept : kept (before ++ draws) < thr.toNat - 1) (rest : List Event)
    (m : Nat) :
    Host.Core.run Sys2Proof.core (m + 2 * draws.length) (s.drawn secret before (exchanges draws ++ rest)) =
      Host.Core.run Sys2Proof.core m (s.drawn secret (before ++ draws) rest) := by
  induction draws generalizing before with
  | nil => rw [List.append_nil]; rfl
  | cons b draws ih =>
    have hbefore : kept before < thr.toNat - 1 := by rw [kept_append] at hkept; omega
    have hassoc : before ++ b :: draws = before ++ [b] ++ draws := List.append_cons ..
    rw [hassoc] at hkept ⊢
    rw [exchanges_cons, List.cons_append, List.cons_append, List.length_cons, Nat.mul_succ, ← Nat.add_assoc,
      run_exchange h hbefore, ih hkept]

/-- The run of an accepted GENPTS over the exchanges that draw such bytes and a turn after them (R151, R212). -/
theorem run_accepted_exchanges {draws : List Byte} (hkept : kept draws < thr.toNat - 1) {rest : List Event}
    (hs : s.schedule = exchanges draws ++ .engine :: rest) (m : Nat) :
    Host.Core.run Sys2Proof.core (2 * draws.length + (m + 1)) s =
      Host.Core.run Sys2Proof.core m (s.drawn secret draws rest).request := by
  have hfirst : ∃ tail, s.schedule = .engine :: tail := by
    rw [hs]
    cases draws <;> exact ⟨_, rfl⟩
  obtain ⟨tail, htail⟩ := hfirst
  rw [← Nat.add_assoc, run_accepted h htail, Nat.add_assoc, Nat.add_comm, hs,
    run_exchanges (before := []) h hkept, List.nil_append, core_run_succ (step_drawn_request h hkept rest)]

end

/-- A `Fail` in answer to the request (R151, R153). -/
theorem takeDraw_fail_drawn {s : State} (hreq : s.rngReq = .idle) (hdraw : s.drawAt = none) (secret : Byte)
    (draws : List Byte) (rest : List Event) :
    takeDraw .fail (s.drawn secret draws rest).request =
      failed { s with icoef := icoefZero, schedule := rest } .rng (kept draws + 1) := by
  have hdrop : (s.drawn secret draws rest).request.dropRequest = s.drawn secret draws rest :=
    State.dropRequest_request hreq
  have hclear : (s.drawn secret draws rest).clearDraws = { s with icoef := icoefZero, schedule := rest } := by
    rw [State.clearDraws, State.drawn, ← hdraw]
  calc takeDraw .fail (s.drawn secret draws rest).request
      = (s.drawn secret draws rest).request.dropRequest.clearDraws.raise .rng (kept draws + 1) := rfl
    _ = _ := by rw [hdrop, hclear]; rfl

/-- Settles O35: the run over the exchanges, then the answer. -/
theorem genptsReportsTheFailedDraw : Obligations.GenptsReportsTheFailedDraw := by
  refine ⟨rfl, fun s secret n thr data draws rest h hs hkept => ?_⟩
  have ⟨_, _, _, _, _, hreq, hdraw⟩ := h
  rw [run_accepted_exchanges h hkept hs 1, core_run_succ (step_drawn_answer h hkept true data rest)]
  exact congrArg Host.Outcome.next (takeDraw_fail_drawn hreq hdraw secret draws rest)

/-- What ICOEF holds after the draws, where it held 0 before them (R151). -/
theorem icoefAt_drawn {s : State} (hzero : s.icoef = icoefZero) (secret : Byte) (draws : List Byte) (rest : List Event)
    {i : Nat} (hi : i < 255) : icoefAt (s.drawn secret draws rest).icoef i = (coefficients secret draws).getD i 0 := by
  rw [State.drawn, hzero, icoefAt_icoefFill _ _ hi, icoefAt_icoefZero]

/-- Settles O36: the first turn by its definition; a later one, and an answer, by the run over the exchanges. -/
theorem genptsWaitsForTheSource : Obligations.GenptsWaitsForTheSource := by
  intro s secret n thr h hzero
  have ⟨hrst, hrun, hready, hthr, hle, hreq, hdraw⟩ := h
  obtain ⟨exps, logs, htables⟩ := exists_tables_of_ready hready
  refine ⟨⟨_, execGenpts_start htables hdraw (genptsCheck_none.2 ⟨hthr, hle⟩) secret, rfl, rfl, fun i hi => ?_⟩,
    fun draws rest hs hkept => ⟨_, run_accepted_exchanges h hkept hs 0, rfl, rfl, fun i hi => ?_⟩,
    fun draws b rest hs hkept => ⟨s.drawn secret (draws ++ [b]) rest, ?_, ?_, rfl, fun i hi => ?_⟩⟩
  · have hstart : s.startDraws secret = s.drawn secret [] s.schedule := (State.drawn_nil ..).symm
    rw [hstart]
    exact icoefAt_drawn hzero secret [] s.schedule hi
  · exact icoefAt_drawn hzero secret draws rest hi
  · have hs' : s.schedule = exchanges draws ++ .engine :: .rng false b :: rest := by
      rw [hs, exchanges_append, List.append_assoc]
      rfl
    rw [Nat.mul_succ, run_accepted_exchanges h hkept hs' 1, core_run_succ (step_drawn_answer h hkept false b rest)]
    exact congrArg _ (takeDraw_drawn hreq secret draws b rest)
  · simp only [State.rngReqPin, State.drawn, hreq]
  · exact icoefAt_drawn hzero secret _ rest hi

/-! ### A GENPTS without an answer (R156, R241) -/

/-- The events that end no draw: turns of the engine, transactions and zero bytes. -/
def EndsNoDraw (e : Event) : Prop := e = .engine ∨ e = .rng false 0 ∨ ∃ op, e = .bus op

/-- What no such event changes of a GENPTS in the loop of R151. -/
structure StillDraws (s t : State) : Prop where
  rstN : t.rstN = s.rstN
  eng : t.eng = s.eng
  tstate : t.tstate = s.tstate
  drawAt : t.drawAt = s.drawAt
  icoef : t.icoef = s.icoef
  schedule : t.schedule ⊆ s.schedule

theorem StillDraws.refl (s : State) : StillDraws s s := ⟨rfl, rfl, rfl, rfl, rfl, List.Subset.refl _⟩

theorem StillDraws.trans {s t u : State} (h1 : StillDraws s t) (h2 : StillDraws t u) : StillDraws s u :=
  ⟨h2.rstN.trans h1.rstN, h2.eng.trans h1.eng, h2.tstate.trans h1.tstate, h2.drawAt.trans h1.drawAt,
    h2.icoef.trans h1.icoef, List.Subset.trans h2.schedule h1.schedule⟩

/-- A transaction leaves the running command and its draws (R68, R69). -/
theorem stillDraws_busStep {s : State} (hbusy : s.busy = true) {op : BusOp} {rest : List Event}
    (hrest : rest ⊆ s.schedule) : StillDraws s (busStep (s.setSchedule rest) op) := by
  have hb := busStep_behind (s.setSchedule rest) op
  have heng : (busStep (s.setSchedule rest) op).eng = s.eng := by
    rcases busStep_eng (s.setSchedule rest) op with ⟨heng, -⟩ | ⟨hidle, -⟩
    · exact heng
    · cases hidle.symm.trans hbusy
  exact ⟨hb.rstN, heng, hb.tstate, hb.drawAt, hb.icoef, hb.schedule ▸ hrest⟩

/-- A step on such an event, or with no event left. -/
theorem DrawsAt.stillDraws {s t : State} {secret n thr : Byte} {k : Nat} (h : DrawsAt s secret n thr k)
    (hev : ∀ e ∈ s.schedule, EndsNoDraw e) (hstep : step s = .next t) : StillDraws s t := by
  have htail {e : Event} {rest : List Event} (hs : s.schedule = e :: rest) : rest ⊆ s.schedule :=
    hs ▸ List.subset_cons_self e rest
  have hhead {e : Event} {rest : List Event} (hs : s.schedule = e :: rest) : EndsNoDraw e :=
    hev e (hs ▸ List.mem_cons_self)
  cases steps_of_step hstep with
  | passes rest hrest =>
    refine ⟨rfl, rfl, rfl, rfl, rfl, ?_⟩
    rcases hrest with rfl | ⟨e, hs⟩
    · exact List.Subset.refl _
    · exact htail hs
  | bus op rest hs =>
    obtain ⟨w, heng, -⟩ := h.running
    exact stillDraws_busStep (by rw [State.busy, heng]) (htail hs)
  | rst level rest hs => rcases hhead hs with he | he | ⟨op, he⟩ <;> cases he
  | answers w fail data rest _ hs =>
    have hzero : takeDraw (.byte 0) (s.setSchedule rest) = (s.setSchedule rest).dropRequest := by
      simp only [takeDraw, State.setSchedule_drawAt, h.drawAt, if_true]
    rcases hhead hs with he | he | ⟨op, he⟩
    · cases he
    · cases he
      exact hzero ▸ ⟨rfl, rfl, rfl, rfl, rfl, htail hs⟩
    · cases he
  | runs w rest t _ hrest heng hreq hrun =>
    have hlater : DrawsAt (s.setSchedule rest) secret n thr k := h.congr rfl rfl rfl rfl
    cases hrun.symm.trans (hlater.runCommand hreq heng)
    refine ⟨rfl, rfl, rfl, rfl, rfl, ?_⟩
    rcases hrest with ⟨rfl, -⟩ | hs
    · exact List.Subset.refl _
    · exact htail hs

/-- Any number of such steps. -/
theorem DrawsAt.stillDraws_run {s t : State} {secret n thr : Byte} {k : Nat} (h : DrawsAt s secret n thr k)
    (hev : ∀ e ∈ s.schedule, EndsNoDraw e) {m : Nat} (hrun : Host.Core.run Sys2Proof.core m s = .next t) :
    StillDraws s t := by
  induction m generalizing s with
  | zero =>
    cases hrun
    exact StillDraws.refl _
  | succ m ih =>
    obtain ⟨u, hu, -⟩ := step_steps s
    rw [core_run_succ hu] at hrun
    have hfirst := h.stillDraws hev hu
    have hlater : DrawsAt u secret n thr k := h.congr hfirst.rstN hfirst.eng hfirst.tstate hfirst.drawAt
    exact hfirst.trans (ih hlater (fun e he => hev e (hfirst.schedule he)) hrun)

/-- Settles O38: the invariant gives the coefficient still to be drawn, and the events to come end no draw. -/
theorem unansweredGenptsStaysBusy : Obligations.UnansweredGenptsStaysBusy := by
  intro s t k m hinv hreq hdraw hrst hev hrun
  obtain ⟨w, secret, n, thr, heng, ⟨hdec, -⟩, hready, -, -, hlt, -⟩ := hinv.drawInsideGenpts k hdraw
  have hdraws : DrawsAt s secret n thr k := ⟨hrst, ⟨w, heng, hdec⟩, hready, hdraw, hlt hreq⟩
  have hstill := hdraws.stillDraws_run hev hrun
  exact ⟨hstill.drawAt.trans hdraw, hstill.icoef, hstill.eng, by rw [State.busy, hstill.eng, heng]⟩

/-! ### The loops of Lagrange interpolation (R172 to R174) -/

/-- A term is skipped when some other node is the point (R172). -/
theorem skipped_iff {pt : Byte} {xs : Nat → Byte} {n i : Nat} :
    skipped pt xs n i = true ↔ ∃ j, j < n ∧ j ≠ i ∧ xs j = pt := by
  simp [skipped]

theorem termLoop_append (logs : Table) (pt : Byte) (xs : Nat → Byte) (i : Nat) (l l' : List Nat) (product : Nat) :
    termLoop logs pt xs i (l ++ l') product =
      (termLoop logs pt xs i l product).bind (termLoop logs pt xs i l') := by
  induction l generalizing product with
  | nil => rfl
  | cons j rest ih =>
    simp only [List.cons_append, termLoop]
    split
    · exact ih product
    · split
      · rfl
      · exact ih _

theorem sumLoop_append (exps logs : Table) (pt : Byte) (xs ys : Nat → Byte) (n : Nat) (l l' : List Nat) (sum : Byte) :
    sumLoop exps logs pt xs ys n (l ++ l') sum =
      (sumLoop exps logs pt xs ys n l sum).bind (sumLoop exps logs pt xs ys n l') := by
  induction l generalizing sum with
  | nil => rfl
  | cons i rest ih =>
    simp only [List.cons_append, sumLoop]
    split
    · exact ih sum
    · split
      · exact ih sum
      · split
        · rfl
        · exact ih _

/-- A factor of R174 adds a logarithm and subtracts one. -/
theorem times_times_inverse {u d : Byte} (hu : u ≠ 0) (p : Nat) :
    times (expAt expsTable (p % 255)) (times u (inverse d)) =
      expAt expsTable ((p + logOf logsTable u + 255 - logOf logsTable d) % 255) := by
  have hsub : p + logOf logsTable u + 255 - logOf logsTable d =
      p + (logOf logsTable u + (255 - logOf logsTable d)) := by
    have := logOf_le d
    omega
  rw [expAt_mod, iterate_times, one_times, times_eq_iterate hu, inverse, expAt_mod, expAt_mod, hsub,
    Function.iterate_add_apply, Function.iterate_add_apply]

/-- Where no factor reads logs[0], the loop over the nodes below `m` ends with the logarithm of their product. -/
theorem termLoop_range {pt : Byte} {xs ys : Nat → Byte} {i m : Nat} (hy : ys i ≠ 0)
    (h : ∀ j, j < m → j ≠ i → xs j ≠ pt ∧ xs j ≠ xs i) :
    ∃ p, termLoop logsTable pt xs i (List.range m) (logOf logsTable (ys i)) = .ok p ∧ p ≤ 255 ∧
      expAt expsTable p = lagrangeTerm pt xs ys i m := by
  induction m with
  | zero => exact ⟨_, rfl, logOf_le _, expAt_logOf hy⟩
  | succ m ih =>
    obtain ⟨p, hp, hle, hval⟩ := ih fun j hj => h j (Nat.lt_succ_of_lt hj)
    rw [List.range_succ, termLoop_append, hp]
    by_cases hm : m = i
    · exact ⟨p, if_pos hm, hle, by rw [lagrangeTerm, if_pos hm, hval]⟩
    · obtain ⟨hpt, hne⟩ := h m (Nat.lt_succ_self m) hm
      have hu : pt ^^^ xs m ≠ 0 := fun h0 => hpt (BitVec.xor_eq_zero_iff.1 h0).symm
      have hd : xs i ^^^ xs m ≠ 0 := fun h0 => hne (BitVec.xor_eq_zero_iff.1 h0).symm
      refine ⟨(p + logOf logsTable (pt ^^^ xs m) + 255 - logOf logsTable (xs i ^^^ xs m)) % 255, ?_,
        (Nat.mod_lt _ (by decide)).le, ?_⟩
      · exact (if_neg hm).trans (if_neg hd)
      · rw [← times_times_inverse hu, expAt_mod, ← expAt_eq_iterate hle, hval, lagrangeTerm, if_neg hm]

/-- A term with y = 0 is 0. -/
theorem lagrangeTerm_eq_zero (pt : Byte) (xs : Nat → Byte) {ys : Nat → Byte} {i : Nat} (hy : ys i = 0) (m : Nat) :
    lagrangeTerm pt xs ys i m = 0 := by
  induction m with
  | zero => exact hy
  | succ m ih => rw [lagrangeTerm, ih, zero_times, ite_self]

/-- The loop's step on term `i`, where it does not read logs[0] (R172). -/
theorem sumLoop_singleton {pt : Byte} {xs ys : Nat → Byte} {n i : Nat} (hi : i < n)
    (h : ¬ termReadsLogZero pt xs ys n i) (sum : Byte) :
    sumLoop expsTable logsTable pt xs ys n [i] sum =
      .ok (if ∃ j, j < n ∧ j ≠ i ∧ xs j = pt then sum else sum ^^^ lagrangeTerm pt xs ys i n) := by
  by_cases hskip : ∃ j, j < n ∧ j ≠ i ∧ xs j = pt
  · rw [if_pos hskip, sumLoop, if_pos (skipped_iff.2 hskip), ite_self, sumLoop]
  · rw [if_neg hskip]
    by_cases hy : ys i = 0
    · rw [sumLoop, if_pos hy, lagrangeTerm_eq_zero pt xs hy, byte_xor_zero, sumLoop]
    · have hpt (j : Nat) (hj : j < n) (hji : j ≠ i) : xs j ≠ pt := fun heq => hskip ⟨j, hj, hji, heq⟩
      have hne (j : Nat) (hj : j < n) (hji : j ≠ i) : xs j ≠ xs i := fun heq => h ⟨hi, hy, hpt, j, hj, hji, heq⟩
      obtain ⟨p, hp, -, hval⟩ := termLoop_range hy fun j hj hji => ⟨hpt j hj hji, hne j hj hji⟩
      rw [sumLoop, if_neg hy, if_neg (mt skipped_iff.1 hskip), hp, ← hval]
      rfl

/-- Where no term reads logs[0], the loop gives the sum of R174. -/
theorem lagrange_eq_sum {pt : Byte} {xs ys : Nat → Byte} {n : Nat} (h : ∀ i, ¬ termReadsLogZero pt xs ys n i) :
    lagrange expsTable logsTable pt xs ys n = .ok (lagrangeSum pt xs ys n n) := by
  have hsum (m : Nat) (hm : m ≤ n) :
      sumLoop expsTable logsTable pt xs ys n (List.range m) 0 = .ok (lagrangeSum pt xs ys n m) := by
    induction m with
    | zero => rfl
    | succ m ih =>
      rw [List.range_succ, sumLoop_append, ih (Nat.le_of_succ_le hm), lagrangeSum]
      exact sumLoop_singleton hm (h m) _
  exact hsum n le_rfl

/-- With pairwise distinct nodes no term reads logs[0] (R173). -/
theorem not_termReadsLogZero_of_distinct {xs : Nat → Byte} {n : Nat}
    (h : ∀ i j, i < n → j < n → i ≠ j → xs i ≠ xs j) (pt : Byte) (ys : Nat → Byte) (i : Nat) :
    ¬ termReadsLogZero pt xs ys n i := by
  rintro ⟨hi, -, -, j, hj, hji, heq⟩
  exact h j i hj hi hji heq

/-! ### The bytes as a field (R2, R119) -/

/-- The field of R2: addition is XOR (so negation does nothing), multiplication is `times`, and 0 has the inverse 0, as
in every field of Mathlib. (The operations that `Byte` carries itself are the arithmetic modulo 256.) -/
@[reducible] def byteField : Field Byte :=
  @Field.ofMinimalAxioms Byte ⟨fun a b => a ^^^ b⟩ ⟨times⟩ ⟨id⟩ ⟨fun a => if a = 0 then 0 else inverse a⟩ ⟨0⟩ ⟨1⟩
    BitVec.xor_assoc byte_zero_xor (fun _ => BitVec.xor_self) times_assoc times_comm one_times
    (fun a ha => (congrArg (times a) (if_neg ha)).trans (times_inverse ha)) (if_pos rfl) times_xor ⟨0, 1, by decide⟩

/-- The bytes with XOR and `times` are read in a field without loss. -/
structure IsFieldMap {F : Type} [Field F] (φ : Byte → F) : Prop where
  injective : Function.Injective φ
  map_xor : ∀ a b, φ (a ^^^ b) = φ a + φ b
  map_times : ∀ a b, φ (times a b) = φ a * φ b

theorem exists_isFieldMap : ∃ (F : Type) (_ : Field F) (φ : Byte → F), IsFieldMap φ :=
  ⟨Byte, byteField, id, @IsFieldMap.mk Byte byteField id (fun _ _ h => h) (fun _ _ => rfl) fun _ _ => rfl⟩

section

open Polynomial

variable {F : Type} [Field F] {φ : Byte → F} (hφ : IsFieldMap φ)
include hφ

theorem IsFieldMap.map_zero : φ 0 = 0 := by
  have h : φ 0 + φ 0 = φ 0 + 0 := by rw [← hφ.map_xor, byte_xor_zero, add_zero]
  exact add_left_cancel h

theorem IsFieldMap.map_ne_zero {a : Byte} (ha : a ≠ 0) : φ a ≠ 0 := fun h =>
  ha (hφ.injective (h.trans hφ.map_zero.symm))

theorem IsFieldMap.map_one : φ 1 = 1 := by
  have h : φ 1 * φ 1 = φ 1 * 1 := by rw [← hφ.map_times, one_times, mul_one]
  exact mul_left_cancel₀ (hφ.map_ne_zero (by decide)) h

/-- XOR is the field's subtraction as well. -/
theorem IsFieldMap.map_xor_sub (a b : Byte) : φ (a ^^^ b) = φ a - φ b := by
  rw [eq_sub_iff_add_eq, ← hφ.map_xor, BitVec.xor_assoc, BitVec.xor_self, BitVec.xor_zero]

theorem IsFieldMap.map_inverse {a : Byte} (ha : a ≠ 0) : φ (inverse a) = (φ a)⁻¹ := by
  refine eq_inv_of_mul_eq_one_right ?_
  rw [← hφ.map_times, times_inverse ha, hφ.map_one]

/-- The value of R144 is that of the polynomial with these coefficients. -/
theorem IsFieldMap.map_polyValue (c : Nat → Byte) (x : Byte) (n : Nat) :
    φ (polyValue c x n) = (∑ k ∈ Finset.range n, C (φ (c k)) * X ^ k).eval (φ x) := by
  have hpower (k : Nat) : φ (power x k) = φ x ^ k := by
    induction k with
    | zero => rw [power, hφ.map_one, pow_zero]
    | succ k ih => rw [power, hφ.map_times, ih, pow_succ]
  induction n with
  | zero => rw [polyValue, hφ.map_zero, Finset.sum_range_zero, eval_zero]
  | succ n ih =>
    rw [polyValue, hφ.map_xor, ih, hφ.map_times, hpower, Finset.sum_range_succ, eval_add, eval_mul, eval_C, eval_pow,
      eval_X]

/-- A term of R174 over the nodes below `m` is its y times the Lagrange basis polynomial of its node at the point. -/
theorem IsFieldMap.map_lagrangeTerm (pt : Byte) {xs : Nat → Byte} (ys : Nat → Byte) {i m : Nat}
    (h : ∀ j, j < m → j ≠ i → xs j ≠ xs i) :
    φ (lagrangeTerm pt xs ys i m) =
      φ (ys i) * (Lagrange.basis (Finset.range m) (fun j => φ (xs j)) i).eval (φ pt) := by
  induction m with
  | zero => rw [lagrangeTerm, Finset.range_zero, Lagrange.basis_empty, eval_one, mul_one]
  | succ m ih =>
    have ih := ih fun j hj => h j (Nat.lt_succ_of_lt hj)
    rw [Lagrange.basis] at ih ⊢
    by_cases hm : m = i
    · subst hm
      rw [lagrangeTerm, if_pos rfl, ih, Finset.range_add_one, Finset.erase_insert Finset.notMem_range_self,
        Finset.erase_eq_of_notMem Finset.notMem_range_self]
    · have hd : xs i ^^^ xs m ≠ 0 := fun h0 => h m (Nat.lt_succ_self m) hm (BitVec.xor_eq_zero_iff.1 h0).symm
      rw [lagrangeTerm, if_neg hm, hφ.map_times, ih, hφ.map_times, hφ.map_inverse hd, hφ.map_xor_sub, hφ.map_xor_sub,
        Finset.range_add_one, Finset.erase_insert_of_ne hm, Finset.prod_insert, eval_mul,
        Lagrange.basisDivisor, eval_mul, eval_C, eval_sub, eval_X, eval_C]
      · ring
      · exact fun hmem => Finset.notMem_range_self (Finset.mem_of_mem_erase hmem)

/-- With pairwise distinct nodes the sum of R174 is the interpolation polynomial at the point: a skipped term's basis
polynomial is 0 there. -/
theorem IsFieldMap.map_lagrangeSum (pt : Byte) {xs : Nat → Byte} (ys : Nat → Byte) {n : Nat}
    (h : ∀ i j, i < n → j < n → i ≠ j → xs i ≠ xs j) :
    φ (lagrangeSum pt xs ys n n) =
      (Lagrange.interpolate (Finset.range n) (fun i => φ (xs i)) fun i => φ (ys i)).eval (φ pt) := by
  have hsum (m : Nat) (hm : m ≤ n) :
      φ (lagrangeSum pt xs ys n m) =
        ∑ i ∈ Finset.range m, φ (ys i) * (Lagrange.basis (Finset.range n) (fun j => φ (xs j)) i).eval (φ pt) := by
    induction m with
    | zero => rw [lagrangeSum, hφ.map_zero, Finset.sum_range_zero]
    | succ m ih =>
      have ih := ih (Nat.le_of_succ_le hm)
      rw [lagrangeSum, Finset.sum_range_succ]
      split
      next hskip =>
        obtain ⟨j, hj, hjm, rfl⟩ := hskip
        rw [ih, Lagrange.eval_basis_of_ne (v := fun j => φ (xs j)) hjm.symm (Finset.mem_range.2 hj), mul_zero, add_zero]
      next => rw [hφ.map_xor, ih, hφ.map_lagrangeTerm pt ys fun j hj hjm => h j m hj hm hjm]
  rw [hsum n le_rfl, Lagrange.interpolate_apply, eval_finsetSum]
  simp only [eval_mul, eval_C]

/-- Interpolating the values of a polynomial with `n` coefficients at `n` distinct nodes gives its value at any point
(G2, G3): the interpolation polynomial is the polynomial. -/
theorem IsFieldMap.lagrangeSum_polyValue (c : Nat → Byte) (pt : Byte) {xs : Nat → Byte} {n : Nat}
    (h : ∀ i j, i < n → j < n → i ≠ j → xs i ≠ xs j) :
    lagrangeSum pt xs (fun i => polyValue c (xs i) n) n n = polyValue c pt n := by
  have hinj : Set.InjOn (fun i => φ (xs i)) (Finset.range n) := fun i hi j hj heq =>
    by_contra fun hij => h i j (Finset.mem_range.1 hi) (Finset.mem_range.1 hj) hij (hφ.injective heq)
  have hdeg : (∑ k ∈ Finset.range n, C (φ (c k)) * X ^ k : F[X]).degree < (Finset.range n).card := by
    rw [Finset.card_range, Finset.sum_range]
    exact degree_sum_fin_lt _
  apply hφ.injective
  rw [hφ.map_lagrangeSum pt _ h, hφ.map_polyValue]
  simp only [hφ.map_polyValue]
  rw [← Lagrange.eq_interpolate hinj hdeg]

end

/-- Settles O42: at 0 the interpolation gives the polynomial's value, its constant term. -/
theorem interpolationRecoversTheSecret : Obligations.InterpolationRecoversTheSecret := by
  intro c xs n hn h
  obtain ⟨F, _, φ, hφ⟩ := exists_isFieldMap
  rw [lagrange_eq_sum (not_termReadsLogZero_of_distinct h 0 _), hφ.lagrangeSum_polyValue c 0 h, polyValue_zero c hn]

end Sys2Proof.Machine

/-! Proofs of the statements of 42_reconstructor.md: what LAGR answers for any nodes, the checks of COMBINE's slots, its
unique slots, and the secret it writes. -/

namespace Sys2Proof.Machine

open Sys2Proof.Spec

/-! ### LAGR where no term reads logs[0] (R172, R174, R175) -/

/-- LAGR with the tables ready and a legal count: what the interpolation gives. -/
theorem exec_lagr_ready {s : State} {exps logs : Table} (h : s.tstate = .ready exps logs)
    (hn : s.npts.toNat ≤ 256) (pt : Byte) :
    exec (.lagr pt) s = .next (finishResult (lagrange exps logs pt s.xsAt s.ysAt s.npts.toNat) s) :=
  execLagr_ready h hn pt

/-- Settles O39: the loop gives the sum of R174, and RESULT is LAGR's only output. -/
theorem lagrWritesTheInterpolatedValue : Obligations.LagrWritesTheInterpolatedValue := by
  intro s pt hready hn hreads
  rw [exec_lagr_ready hready hn, lagrange_eq_sum hreads, finishResult_ok]

/-- The sum of R174 at a node is that node's y: the interpolation polynomial takes it there. -/
theorem lagrangeSum_at_node {xs : Nat → Byte} (ys : Nat → Byte) {n m : Nat} (hm : m < n)
    (h : ∀ i j, i < n → j < n → i ≠ j → xs i ≠ xs j) : lagrangeSum (xs m) xs ys n n = ys m := by
  obtain ⟨F, _, φ, hφ⟩ := exists_isFieldMap
  have hinj : Set.InjOn (fun i => φ (xs i)) (Finset.range n) := fun i hi j hj heq =>
    by_contra fun hij => h i j (Finset.mem_range.1 hi) (Finset.mem_range.1 hj) hij (hφ.injective heq)
  apply hφ.injective
  rw [hφ.map_lagrangeSum (xs m) ys h]
  exact Lagrange.eval_interpolate_at_node _ hinj (Finset.mem_range.2 hm)

/-- Settles O41: distinct nodes keep every term off logs[0], and the sum at a node is its y. -/
theorem lagrAtANodeGivesItsValue : Obligations.LagrAtANodeGivesItsValue := by
  intro s m hready hn hm hdistinct
  rw [exec_lagr_ready hready hn, lagrange_eq_sum (not_termReadsLogZero_of_distinct hdistinct _ _),
    lagrangeSum_at_node _ hm hdistinct, finishResult_ok]

/-! ### The first index that raises -/

/-- A member of a rising list stands after smaller members only. -/
theorem exists_eq_append_cons_of_rising {l : List Nat} (hl : l.Pairwise (· < ·)) {u : Nat} (hu : u ∈ l) :
    ∃ before rest, l = before ++ u :: rest ∧ ∀ v ∈ before, v ∈ l ∧ v < u := by
  obtain ⟨before, rest, rfl⟩ := List.append_of_mem hu
  have hbelow := (List.pairwise_append.1 hl).2.2
  exact ⟨before, rest, rfl, fun v hv => ⟨List.mem_append_left _ hv, hbelow v hv u List.mem_cons_self⟩⟩

/-! ### LAGR at repeated nodes (R173) -/

/-- The factor of another node with the same x reads logs[0]. -/
theorem termLoop_error (logs : Table) (pt : Byte) {xs : Nat → Byte} {i : Nat} {l : List Nat}
    (h : ∃ j ∈ l, j ≠ i ∧ xs j = xs i) (product : Nat) : termLoop logs pt xs i l product = .error i := by
  induction l generalizing product with
  | nil => simp at h
  | cons j rest ih =>
    by_cases hj : j ≠ i ∧ xs j = xs i
    · obtain ⟨hji, hx⟩ := hj
      have hzero : xs i ^^^ xs j = 0 := BitVec.xor_eq_zero_iff.2 hx.symm
      rw [termLoop, if_neg hji, if_pos hzero]
    · obtain ⟨k, hk, hki, hx⟩ := h
      have hrest : ∃ j ∈ rest, j ≠ i ∧ xs j = xs i :=
        ⟨k, (List.mem_cons.1 hk).resolve_left fun hkj => hj (hkj ▸ ⟨hki, hx⟩), hki, hx⟩
      rw [termLoop, ih hrest, ih hrest, ite_eq_left_iff, ite_eq_left_iff]
      exact fun _ _ => rfl

/-- Without such a node no factor does. -/
theorem termLoop_ok (logs : Table) (pt : Byte) {xs : Nat → Byte} {i : Nat} {l : List Nat}
    (h : ∀ j ∈ l, j ≠ i → xs j ≠ xs i) (product : Nat) : ∃ p, termLoop logs pt xs i l product = .ok p := by
  induction l generalizing product with
  | nil => exact ⟨product, rfl⟩
  | cons j rest ih =>
    have ih := ih fun k hk => h k (List.mem_cons_of_mem j hk)
    rw [termLoop]
    by_cases hji : j = i
    · rw [if_pos hji]
      exact ih product
    · have hx : xs i ^^^ xs j ≠ 0 := fun h0 => h j List.mem_cons_self hji (BitVec.xor_eq_zero_iff.1 h0).symm
      rw [if_neg hji, if_neg hx]
      exact ih _

/-- The outer loop stops at a term that reads logs[0]. -/
theorem sumLoop_cons_error (exps logs : Table) {pt : Byte} {xs ys : Nat → Byte} {n i : Nat}
    (h : termReadsLogZero pt xs ys n i) (rest : List Nat) (sum : Byte) :
    sumLoop exps logs pt xs ys n (i :: rest) sum = .error i := by
  obtain ⟨-, hy, hpt, j, hj, hji, hx⟩ := h
  have hskip : ¬ skipped pt xs n i = true := fun hs =>
    let ⟨k, hk, hki, hkpt⟩ := skipped_iff.1 hs
    hpt k hk hki hkpt
  rw [sumLoop, if_neg hy, if_neg hskip, termLoop_error logs pt ⟨j, List.mem_range.2 hj, hji, hx⟩]

/-- It passes over the terms that do not. -/
theorem sumLoop_ok (exps logs : Table) {pt : Byte} {xs ys : Nat → Byte} {n : Nat} {l : List Nat}
    (h : ∀ i ∈ l, i < n ∧ ¬ termReadsLogZero pt xs ys n i) (sum : Byte) :
    ∃ v, sumLoop exps logs pt xs ys n l sum = .ok v := by
  induction l generalizing sum with
  | nil => exact ⟨sum, rfl⟩
  | cons i rest ih =>
    have ih := ih fun k hk => h k (List.mem_cons_of_mem i hk)
    obtain ⟨hi, hreads⟩ := h i List.mem_cons_self
    rw [sumLoop]
    by_cases hy : ys i = 0
    · rw [if_pos hy]
      exact ih sum
    by_cases hskip : skipped pt xs n i = true
    · rw [if_neg hy, if_pos hskip]
      exact ih sum
    have hne (j : Nat) (hj : j ∈ List.range n) (hji : j ≠ i) : xs j ≠ xs i := fun hx =>
      hreads ⟨hi, hy, fun k hk hki hkpt => hskip (skipped_iff.2 ⟨k, hk, hki, hkpt⟩), j, List.mem_range.1 hj, hji, hx⟩
    obtain ⟨p, hp⟩ := termLoop_ok logs pt hne (logOf logs (ys i))
    rw [if_neg hy, if_neg hskip, hp]
    exact ih _

/-- The interpolation raises at the first term that reads logs[0]. -/
theorem lagrange_error (exps logs : Table) {pt : Byte} {xs ys : Nat → Byte} {n i : Nat}
    (h : termReadsLogZero pt xs ys n i) (hfirst : ∀ k, k < i → ¬ termReadsLogZero pt xs ys n k) :
    lagrange exps logs pt xs ys n = .error i := by
  obtain ⟨before, rest, hrange, hbefore⟩ :=
    exists_eq_append_cons_of_rising List.pairwise_lt_range (List.mem_range.2 h.1)
  have hpass (k : Nat) (hk : k ∈ before) : k < n ∧ ¬ termReadsLogZero pt xs ys n k :=
    ⟨List.mem_range.1 (hbefore k hk).1, hfirst k (hbefore k hk).2⟩
  obtain ⟨v, hv⟩ := sumLoop_ok exps logs hpass 0
  rw [lagrange, hrange, sumLoop_append, hv]
  exact sumLoop_cons_error exps logs h rest v

/-- Settles O40: the loop over the terms stops at the first that reads logs[0], and ends when none does. -/
theorem lagrReportsTheFirstRepeatedNode : Obligations.LagrReportsTheFirstRepeatedNode := by
  refine ⟨rfl, fun s exps logs pt hready hn => ⟨fun i hi hfirst => ?_, fun hreads => ?_⟩⟩
  · rw [exec_lagr_ready hready hn, lagrange_error exps logs hi hfirst, finishResult_error]
  · have hpass (i : Nat) (hi : i ∈ List.range s.npts.toNat) :
        i < s.npts.toNat ∧ ¬ termReadsLogZero pt s.xsAt s.ysAt s.npts.toNat i :=
      ⟨List.mem_range.1 hi, hreads i⟩
    obtain ⟨v, hv⟩ := sumLoop_ok exps logs hpass 0
    exact ⟨v, by rw [exec_lagr_ready hready hn, lagrange, hv, finishResult_ok]⟩

/-! ### The decode checks of COMBINE's slots (R177) -/

theorem slotError_eq_none_iff {s : State} {u : Nat} : slotError s u = none ↔ slotPasses s u := by
  refine ⟨slotError_none, fun ⟨hlen, hid, hmax⟩ => ?_⟩
  rw [slotError, if_neg hlen, if_neg hid, if_neg (Nat.not_lt.2 hmax)]

/-- Slots that pass are passed over. -/
theorem firstSlotError_append {s : State} {l : List Nat} (h : ∀ u ∈ l, slotPasses s u) (rest : List Nat) :
    firstSlotError s (l ++ rest) = firstSlotError s rest := by
  induction l with
  | nil => rfl
  | cons u l ih =>
    rw [List.cons_append, firstSlotError, slotError_eq_none_iff.2 (h u List.mem_cons_self)]
    exact ih fun v hv => h v (List.mem_cons_of_mem u hv)

theorem firstSlotError_eq_none {s : State} {l : List Nat} (h : ∀ u ∈ l, slotPasses s u) :
    firstSlotError s l = none := by
  rw [← List.append_nil l, firstSlotError_append h, firstSlotError]

/-- COMBINE ends at the first slot that fails a decode check, with that check's code. -/
theorem exec_combine_badSlot {s : State} {exps logs : Table} (h : s.tstate = .ready exps logs)
    (hn : s.nslots.toNat ≤ s.slots) {u : Nat} (hu : u < s.nslots.toNat) (hpass : ∀ v, v < u → slotPasses s v)
    {code : Code} (hcode : slotError s u = some code) (pt : Byte) :
    exec (.combine pt) s = .next (failed s code u) := by
  obtain ⟨before, rest, hrange, hbefore⟩ :=
    exists_eq_append_cons_of_rising List.pairwise_lt_range (List.mem_range.2 hu)
  have hfirst : firstSlotError s (List.range s.nslots.toNat) = some (code, u) := by
    rw [hrange, firstSlotError_append fun v hv => hpass v (hbefore v hv).2, firstSlotError, hcode]
  exact execCombine_badSlot h hn hfirst pt

/-- COMBINE once every slot has passed its decode checks. -/
theorem exec_combine_passed {s : State} {exps logs : Table} (h : s.tstate = .ready exps logs)
    (hn : s.nslots.toNat ≤ s.slots) (hpass : ∀ v, v < s.nslots.toNat → slotPasses s v) (pt : Byte) :
    exec (.combine pt) s = .next (finishCombine exps logs pt (uniqueSlots s) s) :=
  execCombine_ready h hn (firstSlotError_eq_none fun v hv => hpass v (List.mem_range.1 hv)) pt

/-- Settles O43: the checks of the first failing slot in their order; after them COMBINE ends with another code. -/
theorem combineReportsTheFirstBadSlot : Obligations.CombineReportsTheFirstBadSlot := by
  refine ⟨rfl, rfl, rfl, fun s exps logs pt hready hn => ⟨fun u hu hpass => ?_, fun hpass => ?_⟩⟩
  · refine ⟨fun hlen => ?_, fun hlen hid => ?_, fun hlen hid hmax => ?_⟩ <;>
      apply exec_combine_badSlot hready hn hu hpass
    · exact if_pos hlen
    · rw [slotError, if_neg hlen, if_pos hid]
    · rw [slotError, if_neg hlen, if_neg hid, if_pos hmax]
  · refine ⟨_, exec_combine_passed hready hn hpass pt, ?_⟩
    rcases finishCombine_cases exps logs pt (uniqueSlots s) s with ⟨u, -, h⟩ | ⟨k, h⟩ | ⟨bytes, -, h⟩ <;> rw [h] <;>
      simp

/-! ### The unique slots (R178) -/

theorem dedupLoop_append (ids : Nat → Byte) (seen l l' : List Nat) :
    dedupLoop ids seen (l ++ l') = dedupLoop ids (dedupLoop ids seen l) l' := by
  induction l generalizing seen with
  | nil => rfl
  | cons u rest ih =>
    rw [List.cons_append, dedupLoop, dedupLoop]
    split
    · exact ih seen
    · exact ih _

theorem firstWithId_succ {s : State} {m u : Nat} :
    firstWithId s (m + 1) u ↔ firstWithId s m u ∨ u = m ∧ ∀ v, v < m → s.slotIdAt v ≠ s.slotIdAt m := by
  rw [firstWithId, firstWithId, Nat.lt_succ_iff_lt_or_eq, or_and_right]
  refine or_congr_right (and_congr_right ?_)
  rintro rfl
  rfl

/-- The ids of the first slots are those of all the slots. -/
theorem exists_firstWithId_iff {s : State} {m : Nat} {id : Byte} :
    (∃ u, firstWithId s m u ∧ s.slotIdAt u = id) ↔ ∃ v, v < m ∧ s.slotIdAt v = id := by
  constructor
  · rintro ⟨u, hu, hid⟩
    exact ⟨u, hu.1, hid⟩
  · rintro ⟨v, hv, rfl⟩
    induction v using Nat.strong_induction_on with
    | _ v ih =>
      by_cases h : ∃ w, w < v ∧ s.slotIdAt w = s.slotIdAt v
      · obtain ⟨w, hwv, hid⟩ := h
        rw [← hid]
        exact ih w hwv (hwv.trans hv)
      · exact ⟨v, ⟨hv, fun w hwv hid => h ⟨w, hwv, hid⟩⟩, rfl⟩

/-- The loop's step on one slot (R178). -/
theorem dedupLoop_singleton (ids : Nat → Byte) (seen : List Nat) (m : Nat) :
    dedupLoop ids seen [m] = if ∃ u ∈ seen, ids u = ids m then seen else seen ++ [m] := by
  simp only [dedupLoop, List.any_eq_true, beq_iff_eq]

/-- The loop over the slots below `m` keeps the first slot of each id, in rising order. -/
theorem dedupLoop_range (s : State) (m : Nat) :
    (dedupLoop s.slotIdAt [] (List.range m)).Pairwise (· < ·) ∧
      ∀ u, u ∈ dedupLoop s.slotIdAt [] (List.range m) ↔ firstWithId s m u := by
  induction m with
  | zero => exact ⟨.nil, fun u => ⟨nofun, fun h => absurd h.1 (Nat.not_lt_zero u)⟩⟩
  | succ m ih =>
    obtain ⟨hrising, hmem⟩ := ih
    rw [List.range_succ, dedupLoop_append, dedupLoop_singleton]
    simp only [hmem, exists_firstWithId_iff, firstWithId_succ]
    by_cases h : ∃ v, v < m ∧ s.slotIdAt v = s.slotIdAt m
    · obtain ⟨v, hv, hid⟩ := h
      rw [if_pos ⟨v, hv, hid⟩]
      exact ⟨hrising, fun u => by rw [hmem, or_iff_left fun hnew => hnew.2 v hv hid]⟩
    · rw [if_neg h]
      refine ⟨List.pairwise_append.2 ⟨hrising, List.pairwise_singleton _ m, fun u hu w hw => ?_⟩, fun u => ?_⟩
      · rw [List.mem_singleton.1 hw]
        exact ((hmem u).1 hu).1
      · rw [List.mem_append, hmem, List.mem_singleton, and_iff_left fun v hv hid => h ⟨v, hv, hid⟩]

/-- Settles O44: the loop's list for every slot below NSLOTS. -/
theorem firstOccurrenceOfAnIdWins : Obligations.FirstOccurrenceOfAnIdWins :=
  fun s => dedupLoop_range s s.nslots.toNat

theorem uniqueSlots_rising (s : State) : (uniqueSlots s).Pairwise (· < ·) := (firstOccurrenceOfAnIdWins s).1

theorem mem_uniqueSlots {s : State} {u : Nat} : u ∈ uniqueSlots s ↔ firstWithId s s.nslots.toNat u :=
  (firstOccurrenceOfAnIdWins s).2 u

/-- The unique slots have pairwise distinct ids. -/
theorem uniqueSlots_ids_ne (s : State) {i j : Nat} (hi : i < (uniqueSlots s).length)
    (hj : j < (uniqueSlots s).length) (hij : i ≠ j) :
    s.slotIdAt ((uniqueSlots s).getD i 0) ≠ s.slotIdAt ((uniqueSlots s).getD j 0) := by
  rw [List.getD_eq_getElem _ _ hi, List.getD_eq_getElem _ _ hj]
  have hfirst (k : Nat) (hk : k < (uniqueSlots s).length) (v : Nat) (hv : v < (uniqueSlots s)[k]) :
      s.slotIdAt v ≠ s.slotIdAt (uniqueSlots s)[k] :=
    (mem_uniqueSlots.1 (List.getElem_mem hk)).2 v hv
  rcases Nat.lt_or_gt_of_ne hij with hlt | hlt
  · exact hfirst j hj _ (List.pairwise_iff_getElem.1 (uniqueSlots_rising s) i j hi hj hlt)
  · exact (hfirst i hi _ (List.pairwise_iff_getElem.1 (uniqueSlots_rising s) j i hj hi hlt)).symm

/-! ### The length check (R179) -/

/-- L is the length of slot 0, where there is a slot: slot 0 is always the first with its id. -/
theorem payloadLength_uniqueSlots {s : State} (h : 0 < s.nslots.toNat) :
    payloadLength s (uniqueSlots s) = s.slotLenAt 0 := by
  have hzero : 0 ∈ uniqueSlots s := mem_uniqueSlots.2 ⟨h, fun v hv => absurd hv (Nat.not_lt_zero v)⟩
  obtain ⟨before, rest, hunique, hbefore⟩ := exists_eq_append_cons_of_rising (uniqueSlots_rising s) hzero
  have hnil : before = [] := List.eq_nil_iff_forall_not_mem.2 fun v hv => Nat.not_lt_zero v (hbefore v hv).2
  rw [hunique, hnil, List.nil_append, payloadLength]

/-- Slots of length L are passed over. -/
theorem firstMismatch_append {s : State} {len : Nat} {l : List Nat} (h : ∀ u ∈ l, s.slotLenAt u = len)
    (rest : List Nat) : firstMismatch s len (l ++ rest) = firstMismatch s len rest := by
  induction l with
  | nil => rfl
  | cons u l ih =>
    rw [List.cons_append, firstMismatch, if_pos (h u List.mem_cons_self)]
    exact ih fun v hv => h v (List.mem_cons_of_mem u hv)

theorem firstMismatch_eq_none {s : State} {len : Nat} {l : List Nat} (h : ∀ u ∈ l, s.slotLenAt u = len) :
    firstMismatch s len l = none := by
  rw [← List.append_nil l, firstMismatch_append h, firstMismatch]

theorem finishCombine_mismatch {s : State} {unique : List Nat} {u : Nat}
    (h : firstMismatch s (payloadLength s unique) unique = some u) (exps logs : Table) (pt : Byte) :
    finishCombine exps logs pt unique s = failed s .lenMismatch u := by
  rw [finishCombine, h]
  rfl

/-- Settles O45: L is the length of slot 0, and the check stops at the first unique slot of another length. -/
theorem combineReportsTheFirstMismatch : Obligations.CombineReportsTheFirstMismatch := by
  refine ⟨rfl, fun s exps logs pt u hready hn hpass hu hlen hfirst => ?_⟩
  obtain ⟨before, rest, hunique, hbefore⟩ :=
    exists_eq_append_cons_of_rising (uniqueSlots_rising s) (mem_uniqueSlots.2 hu)
  have hsame (v : Nat) (hv : v ∈ before) : s.slotLenAt v = s.slotLenAt 0 :=
    hfirst v (hbefore v hv).2 (mem_uniqueSlots.1 (hbefore v hv).1)
  have hmismatch : firstMismatch s (payloadLength s (uniqueSlots s)) (uniqueSlots s) = some u := by
    rw [payloadLength_uniqueSlots (Nat.zero_lt_of_lt hu.1), hunique, firstMismatch_append hsame, firstMismatch,
      if_neg hlen]
  rw [exec_combine_passed hready hn hpass, finishCombine_mismatch hmismatch]

/-! ### The secret (R180 to R183) -/

theorem collect_eq_map {f : Nat → Except Nat Byte} {g : Nat → Byte} {l : List Nat} (h : ∀ i ∈ l, f i = .ok (g i)) :
    collect f l = .ok (l.map g) := by
  induction l with
  | nil => rfl
  | cons i rest ih =>
    rw [collect, h i List.mem_cons_self, ih fun j hj => h j (List.mem_cons_of_mem i hj)]
    rfl

/-- What R180 writes to SECRET[j]: the interpolation over the unique slots' ids and payload bytes `j`. -/
def secretByte (pt : Byte) (s : State) (j : Nat) : Byte :=
  lagrangeSum pt (fun i => s.slotIdAt ((uniqueSlots s).getD i 0)) (fun i => s.payAt ((uniqueSlots s).getD i 0) j)
    (uniqueSlots s).length (uniqueSlots s).length

/-- The unique slots' ids are distinct, so no byte's interpolation raises (R182). -/
theorem combineBytes_uniqueSlots (pt : Byte) (s : State) (len : Nat) :
    combineBytes expsTable logsTable pt s (uniqueSlots s) len = .ok ((List.range len).map (secretByte pt s)) :=
  collect_eq_map fun _ _ => lagrange_eq_sum
    (not_termReadsLogZero_of_distinct (fun _ _ hi hj hij => uniqueSlots_ids_ne s hi hj hij) pt _)

theorem finishCombine_written {exps logs : Table} {pt : Byte} {s : State} {unique : List Nat} {bytes : List Byte}
    (hlen : ∀ u ∈ unique, s.slotLenAt u = payloadLength s unique)
    (hbytes : combineBytes exps logs pt s unique (payloadLength s unique) = .ok bytes) :
    finishCombine exps logs pt unique s =
      ((s.setSecret bytes).setSeclen (BitVec.ofNat 17 (payloadLength s unique))).complete := by
  rw [finishCombine, firstMismatch_eq_none hlen, hbytes]

theorem Loc.secret_offset (j : Nat) : (Loc.secret j).offset = (Loc.secret 0).offset + 4 * j := rfl

/-- SECRET[j] after the bytes are written. -/
theorem State.secretAt_setSecret (s : State) {bytes : List Byte} {j : Nat} (h : j < bytes.length) :
    (s.setSecret bytes).secretAt j = bytes[j] := by
  rw [State.secretAt, Loc.secret_offset]
  exact State.elemByte_setElems_same s h

/-- Every other byte of RAM after it. -/
theorem State.elemByte_setSecret_other (s : State) {bytes : List Byte} {a : Nat}
    (h : ∀ j, j < bytes.length → a ≠ (Loc.secret j).offset) : (s.setSecret bytes).elemByte a = s.elemByte a :=
  State.elemByte_setElems_other s fun j hj => Loc.secret_offset j ▸ h j hj

/-- Settles O46: COMBINE passes its checks, and its outputs are the interpolated bytes and their number. -/
theorem combineWritesTheSecret : Obligations.CombineWritesTheSecret := by
  intro s pt len hready hn hpass hagree hnone
  have hpayload : payloadLength s (uniqueSlots s) = len := by
    rcases Nat.eq_zero_or_pos s.nslots.toNat with h0 | hpos
    · rw [uniqueSlots, h0, hnone h0]
      rfl
    · rw [payloadLength_uniqueSlots hpos]
      exact hagree 0 ⟨hpos, fun v hv => absurd hv (Nat.not_lt_zero v)⟩
  have hlen (u : Nat) (hu : u ∈ uniqueSlots s) : s.slotLenAt u = payloadLength s (uniqueSlots s) :=
    (hagree u (mem_uniqueSlots.1 hu)).trans hpayload.symm
  have hcombine := (exec_combine_passed hready hn hpass pt).trans
    (congrArg _ (finishCombine_written hlen (combineBytes_uniqueSlots pt s _)))
  rw [hpayload] at hcombine
  refine ⟨_, hcombine, fun j hj => ?_, fun a ha => ?_, rfl⟩
  · have hbyte := s.secretAt_setSecret (bytes := (List.range len).map (secretByte pt s)) (j := j) (by simpa using hj)
    rw [List.getElem_map, List.getElem_range] at hbyte
    exact hbyte
  · exact s.elemByte_setSecret_other fun j hj => ha j (by simpa using hj)

end Sys2Proof.Machine

/-! Proofs of the statements of 60_exceptions.md: the life of a command from its acceptance to its completion, and the
requests of a GENPTS among the transactions of the host. -/

namespace Sys2Proof.Machine

open Sys2Proof.Spec

/-! ### Acceptance and the engine's turn (R200, R201, R210, R212, R250) -/

/-- Settles O15: CMD is reached while idle, and the write of it is the acceptance. -/
theorem idleCmdWriteIsAccepted : Obligations.IdleCmdWriteIsAccepted := by
  intro s w rest hrst hbusy hs
  have hreach : reachable (s.setSchedule rest) 0x14 = some .cmd :=
    reachable_of_idle (l := .cmd) (s := s.setSchedule rest) hrst hbusy rfl
  have haccept : writeLoc (s.setSchedule rest) w .cmd = (s.setSchedule rest).accept w := by
    rw [writeLoc, cmdWrite, State.setSchedule_busy, hbusy, if_neg Bool.false_ne_true]
  have hw := busStep_write w hreach rfl
  rw [haccept] at hw
  exact ⟨_, (step_bus hrst hs).trans (congrArg _ hw), rfl, rfl⟩

/-- With no event left the step is the engine's turn (R250). -/
theorem step_of_no_event {s : State} (hrst : s.rstN = true) (hs : s.schedule = []) : step s = engineTurn s := by
  rw [step_active hrst]
  simp only [activeTurn, hs]

/-- An engine event gives the engine its turn (R250). -/
theorem step_of_engine_event {s : State} {rest : List Event} (hrst : s.rstN = true)
    (hs : s.schedule = .engine :: rest) : step s = engineTurn (s.setSchedule rest) := by
  rw [step_active hrst]
  simp only [activeTurn, hs]

/-- With no request out the engine's turn runs the accepted word (R201). -/
theorem engineTurn_idle {s : State} {w : Word} (heng : s.eng = .busy w) (hreq : s.rngReq = .idle) :
    engineTurn s = runCommand w s := by
  simp only [engineTurn, heng, hreq]

/-- With a request out the engine's turn does nothing (R212). -/
theorem engineTurn_pending {s : State} {w : Word} (heng : s.eng = .busy w) (hreq : s.rngReq = .pending) :
    engineTurn s = .next s := by
  simp only [engineTurn, heng, hreq]

/-- Settles O7: which turn the step is, and what the turn does. -/
theorem stepRunsTheAcceptedCommand : Obligations.StepRunsTheAcceptedCommand := by
  intro s w i hrst heng hdec
  refine ⟨fun rest hreq hs => ?_, fun hreq hs => ?_, fun rest hreq hs => ?_, fun hreq hs => ?_,
    fun fail data rest hreq hs => step_answer hrst heng hreq hs⟩
  · exact (step_engine hrst heng hreq hs).trans (runCommand_ok hdec _)
  · rw [step_of_no_event hrst hs, engineTurn_idle heng hreq, runCommand_ok hdec]
  · exact (step_of_engine_event hrst hs).trans (engineTurn_pending (s := s.setSchedule rest) heng hreq)
  · rw [step_of_no_event hrst hs, engineTurn_pending heng hreq]

/-- Settles O8: each turn answers a next state. -/
theorem noStepStops : Obligations.NoStepStops := by
  intro s
  obtain ⟨t, ht, -⟩ := step_steps s
  exact ⟨t, ht⟩

/-! ### What a running word ends in (R201 to R204, R212) -/

/-- The three ways in which a running word ends its turn: a success, an error, or a GENPTS with a request out. -/
theorem Ends.completes_or_waits {cmd : Except Verdict Instr} {s t : State} (h : Ends cmd s t) :
    (t.busy = false ∧ t.done = true ∧ t.err = s.err ∧ t.errCode = .ok ∧ t.errInfo = 0) ∨
    (t.busy = false ∧ t.done = true ∧ t.err = true ∧ t.errCode ≠ .ok) ∨
    (t.eng = s.eng ∧ t.done = s.done ∧ t.err = s.err ∧ t.errCode = s.errCode ∧ t.errInfo = s.errInfo ∧
      t.rngReqPin = true ∧ ∃ secret n thr, cmd = .ok (.genpts secret n thr)) := by
  cases h with
  | failed code info hcode => exact .inr (.inl ⟨rfl, rfl, rfl, hcode⟩)
  | rejected code hcode => exact .inr (.inl ⟨rfl, rfl, rfl, hcode⟩)
  | nop | init | treset | result | secret => exact .inl ⟨rfl, rfl, rfl, rfl, rfl⟩
  | points => exact .inl ⟨rfl, rfl, by simp, rfl, rfl⟩
  | starts secret n thr hcmd | requests secret n thr k hcmd =>
    exact .inr (.inr ⟨rfl, rfl, rfl, rfl, rfl, rfl, secret, n, thr, hcmd⟩)
  | waits secret n thr k hcmd _ hreq =>
    exact .inr (.inr ⟨rfl, rfl, rfl, rfl, rfl, by rw [State.rngReqPin, hreq], secret, n, thr, hcmd⟩)

/-- With RNGREQ idle the `rng_req` pin is down (R212). -/
theorem rngReqPin_of_idle {s : State} (h : s.rngReq = .idle) : s.rngReqPin = false := by
  rw [State.rngReqPin, h]

/-- What an answer ends in: the error of a `Fail`, or a command still BUSY. -/
theorem takeDraw_completes_or_goes_on (a : RngAnswer) (s : State) :
    (a = .fail ∧ (takeDraw a s).busy = false ∧ (takeDraw a s).done = true ∧ (takeDraw a s).err = true ∧
      (takeDraw a s).errCode = .rng) ∨
    ((takeDraw a s).eng = s.eng ∧ (takeDraw a s).done = s.done ∧ (takeDraw a s).err = s.err ∧
      (takeDraw a s).errCode = s.errCode ∧ (takeDraw a s).errInfo = s.errInfo) := by
  rcases takeDraw_cases a s with ⟨-, h⟩ | ⟨k, b, -, -, -, h⟩ | ⟨k, -, rfl, h⟩ <;> rw [h]
  · exact .inr ⟨rfl, rfl, rfl, rfl, rfl⟩
  · exact .inr ⟨rfl, rfl, rfl, rfl, rfl⟩
  · exact .inl ⟨rfl, rfl, rfl, rfl, rfl⟩

/-- Settles O17: the endings of a word and those of an answer, neither of which touches OVR. -/
theorem commandCompletesOrWaits : Obligations.CommandCompletesOrWaits := by
  refine ⟨fun w s t _ hrun => ?_, fun a s _ => ?_⟩
  · have hends := ends_of_runCommand hrun
    exact ⟨hends.behind.ovr, hends.completes_or_waits⟩
  · exact ⟨(takeDraw_behind a s).ovr, rngReqPin_of_idle (takeDraw_rngReq a s), takeDraw_completes_or_goes_on a s⟩

/-- What a completion with an error leaves as it was, besides the fields no command touches (R204): RESULT, NPTS,
SECLEN, the buffers and the tables; ICOEF keeps its content or becomes 0. -/
structure SameButCompletion (s t : State) : Prop extends SameBehindTheEngine s t where
  result : t.result = s.result
  npts : t.npts = s.npts
  seclen : t.seclen = s.seclen
  ram : t.ram = s.ram
  tstate : t.tstate = s.tstate
  icoef : t.icoef = s.icoef ∨ t.icoef = icoefZero

/-- A word that completes with an error (R204). -/
theorem Ends.sameButCompletion {cmd : Except Verdict Instr} {s t : State} (h : Ends cmd s t)
    (hbusy : s.busy = true) (hidle : t.busy = false) (hcode : t.errCode ≠ .ok) : SameButCompletion s t := by
  have hbehind := h.behind
  cases h with
  | failed => exact ⟨hbehind, rfl, rfl, rfl, rfl, rfl, .inl rfl⟩
  | rejected => exact ⟨hbehind, rfl, rfl, rfl, rfl, rfl, .inr rfl⟩
  | nop | init | treset | result | secret | points => exact absurd rfl hcode
  | starts | requests | waits => cases hbusy.symm.trans hidle

/-- An answer that ends the command: the `Fail` of R151. -/
theorem takeDraw_sameButCompletion {a : RngAnswer} {s : State} (hbusy : s.busy = true)
    (hidle : (takeDraw a s).busy = false) : SameButCompletion s (takeDraw a s) := by
  have hbehind := takeDraw_behind a s
  rcases takeDraw_cases a s with ⟨-, h⟩ | ⟨k, b, -, -, -, h⟩ | ⟨k, -, -, h⟩ <;> rw [h] at hidle hbehind ⊢
  · cases hbusy.symm.trans hidle
  · cases hbusy.symm.trans hidle
  · exact ⟨hbehind, rfl, rfl, rfl, rfl, rfl, .inr rfl⟩

/-- A word that completes leaves no request out, if none was. -/
theorem Ends.rngReq_idle {cmd : Except Verdict Instr} {s t : State} (h : Ends cmd s t) (hreq : s.rngReq = .idle)
    (hbusy : s.busy = true) (hidle : t.busy = false) : t.rngReq = .idle := by
  cases h with
  | points => simpa using hreq
  | starts | requests | waits => cases hbusy.symm.trans hidle
  | _ => exact hreq

/-- A step without a change of the reset pin in which a command completes with an error (R204). -/
theorem step_failed {s t : State} (hbusy : s.busy = true) (hrst : ∀ level rest, s.schedule ≠ .rst level :: rest)
    (hstep : step s = .next t) (hidle : t.busy = false) (hcode : t.errCode ≠ .ok) :
    t.rngReq = .idle ∧ ∃ rest, SameButCompletion (s.setSchedule rest) t := by
  cases steps_of_step hstep with
  | passes => cases hbusy.symm.trans hidle
  | bus op rest hs =>
    have heng : (busStep (s.setSchedule rest) op).eng = s.eng :=
      (stillDraws_busStep hbusy (hs ▸ List.subset_cons_self _ _)).eng
    rw [State.busy, heng] at hidle
    cases hbusy.symm.trans hidle
  | rst level rest hs => exact absurd hs (hrst level rest)
  | answers w fail data rest =>
    exact ⟨takeDraw_rngReq _ _, rest, takeDraw_sameButCompletion (s := s.setSchedule rest) hbusy hidle⟩
  | runs w rest t _ _ _ hreq _ hends =>
    exact ⟨hends.rngReq_idle hreq hbusy hidle, rest, hends.sameButCompletion hbusy hidle hcode⟩

/-- Settles O18: what such a step leaves as it was, field by field. -/
theorem failedCommandChangesNothingElse : Obligations.FailedCommandChangesNothingElse := by
  intro s t _ hbusy hrst hstep hidle hcode
  obtain ⟨hreq, rest, h⟩ := step_failed hbusy hrst hstep hidle hcode
  exact ⟨h.result, h.ncoef, h.npts, h.nslots, h.seclen, State.elemByte_congr h.ram h.ramEpoch, h.ram, .inl h.tstate,
    h.icoef, hreq, h.ieDone, h.ieErr, h.ovr, h.slotsM1, h.maxlenM1, h.rstN, h.busResp⟩

/-! ### ERR and `irq` (R208, R209) -/

/-- ERR after a transaction: as it was, or cleared by a write of 1 to its bit of STATUS (R25). -/
theorem busStep_err (s : State) (op : BusOp) :
    (busStep s op).err = s.err ∨ ∃ d, op = .write 0x10 d ∧ d.getLsbD 3 = true := by
  rcases busEffect_cases s op with h | ⟨addr, d, l, rfl, hreach, -, h⟩ <;> rw [busStep, h]
  · exact .inl rfl
  · cases l with
    | status =>
      have haddr : addr = 0x10 := BitVec.eq_of_toNat_eq (reachable_some hreach).2.1.symm
      cases hd : d.getLsbD 3 with
      | true => exact .inr ⟨d, by rw [haddr], hd⟩
      | false => exact .inl ((congrArg (s.err && !·) hd).trans (Bool.and_true _))
    | cmd =>
      simp only [writeLoc, cmdWrite]
      cases s.busy <;> exact .inl rfl
    | _ => exact .inl rfl

/-- Once reset is released the level 1 of the pin changes nothing (R240). -/
theorem setRstN_true {s : State} (h : s.rstN = true) : s.setRstN true = s := by
  rw [State.setRstN, h, Bool.and_self, if_pos rfl]

/-- Neither a command nor an answer clears ERR (R202, R203). -/
theorem Ends.err {cmd : Except Verdict Instr} {s t : State} (h : Ends cmd s t) (herr : s.err = true) :
    t.err = true := by
  rcases h.completes_or_waits with ⟨-, -, he, -⟩ | ⟨-, -, he, -⟩ | ⟨-, -, he, -⟩
  · exact he.trans herr
  · exact he
  · exact he.trans herr

theorem takeDraw_err {s : State} (a : RngAnswer) (herr : s.err = true) : (takeDraw a s).err = true := by
  rcases takeDraw_completes_or_goes_on a s with ⟨-, -, -, he, -⟩ | ⟨-, -, he, -⟩
  · exact he
  · exact he.trans herr

/-- Settles O20: the kinds of step one by one. -/
theorem errStaysUntilWrittenOrReset : Obligations.ErrStaysUntilWrittenOrReset := by
  intro s t hrst herr hstep
  cases steps_of_step hstep with
  | passes => exact .inl herr
  | bus op rest hs =>
    rcases busStep_err (s.setSchedule rest) op with he | ⟨d, rfl, hd⟩
    · exact .inl (he.trans herr)
    · exact .inr (.inl ⟨d, rest, hs, hd⟩)
  | rst level rest hs =>
    cases level with
    | false => exact .inr (.inr ⟨rest, hs⟩)
    | true =>
      rw [setRstN_true (s := s.setSchedule rest) hrst]
      exact .inl herr
  | answers w fail data rest => exact .inl (takeDraw_err _ herr)
  | runs w rest t _ _ _ _ _ hends => exact .inl (hends.err herr)

/-- CTRL reads IE_DONE and IE_ERR in bits 0 and 1 (R24). -/
theorem ctrlWord_getLsbD (s : State) (n : Nat) :
    s.ctrlWord.getLsbD n = ((n == 0 && s.ieDone) || (n == 1 && s.ieErr)) := by
  simp only [State.ctrlWord, BitVec.getLsbD_setWidth, BitVec.getLsbD_append, BitVec.getLsbD_ofBool]
  rcases n with _ | _ | n <;> simp

/-- Settles O57: the four bits are the four flags. -/
theorem irqFollowsStatusAndCtrl : Obligations.IrqFollowsStatusAndCtrl := by
  intro s
  simp only [readLoc, ctrlWord_getLsbD, statusWord_getLsbD]
  simp [State.irq]

/-! ### The share points of a GENPTS (R151 to R153, R155) -/

/-- A polynomial's value depends on the coefficients below its length alone (R144). -/
theorem polyValue_congr {c c' : Nat → Byte} {n : Nat} (h : ∀ i, i < n → c i = c' i) (x : Byte) :
    polyValue c x n = polyValue c' x n := by
  induction n with
  | zero => rfl
  | succ n ih => rw [polyValue, polyValue, ih fun i hi => h i (Nat.lt_succ_of_lt hi), h n (Nat.lt_succ_self n)]

/-- The node of share `i + 1` is not 0 (R152). -/
theorem shareNode_ne_zero {n : Byte} {i : Nat} (hi : i < n.toNat) : BitVec.ofNat 8 (i + 1) ≠ (0 : Byte) := by
  have hn : n.toNat < 256 := n.isLt
  intro h
  have hnode : (i + 1) % 2 ^ 8 = 0 := by simpa using congrArg BitVec.toNat h
  omega

/-- The nodes 1..N of the shares (R152). -/
def shareNodes (n : Byte) : List Byte := (List.range n.toNat).map fun i => BitVec.ofNat 8 (i + 1)

/-- The values at them of the polynomial with these coefficients (R152). -/
def shareValues (c : Nat → Byte) (n thr : Byte) : List Byte :=
  (List.range n.toNat).map fun i => polyValue c (BitVec.ofNat 8 (i + 1)) thr.toNat

theorem shareNodes_length (n : Byte) : (shareNodes n).length = n.toNat := by
  rw [shareNodes, List.length_map, List.length_range]

theorem shareValues_length (c : Nat → Byte) (n thr : Byte) : (shareValues c n thr).length = n.toNat := by
  rw [shareValues, List.length_map, List.length_range]

/-- The buffers with the points of R152 written. -/
def State.setPoints (s : State) (c : Nat → Byte) (n thr : Byte) : State :=
  (s.setXs (shareNodes n)).setYs (shareValues c n thr)

/-- The state in which a GENPTS with these coefficients ends (R152, R153). -/
def State.pointsDone (s : State) (c : Nat → Byte) (n thr : Byte) : State :=
  completed { s.setPoints c n thr with npts := n.setWidth 9, icoef := icoefZero, drawAt := none }

/-- GENPTS's outputs with the tables of R112 (R152). -/
theorem finishGenpts_eq (n thr : Byte) (s : State) :
    finishGenpts expsTable logsTable n thr s = s.pointsDone (icoefAt s.icoef) n thr := by
  have hys := collect_eq_map (l := List.range n.toNat) fun i hi =>
    hornerEval_eq_polyValue (shareNode_ne_zero (List.mem_range.1 hi)) (icoefAt s.icoef) thr.toNat
  rw [finishGenpts, hys]
  rfl

theorem Loc.xs_offset (i : Nat) : (Loc.xs i).offset = (Loc.xs 0).offset + 4 * i := rfl

theorem Loc.ys_offset (i : Nat) : (Loc.ys i).offset = (Loc.ys 0).offset + 4 * i := rfl

/-- XS and YS are windows apart (R66). -/
theorem Loc.xs_offset_ne_ys_offset {i : Nat} (hi : i < 256) (j : Nat) : (Loc.xs i).offset ≠ (Loc.ys j).offset := by
  simp only [Loc.offset]
  omega

theorem State.xsAt_setXs (s : State) {bs : List Byte} {i : Nat} (h : i < bs.length) : (s.setXs bs).xsAt i = bs[i] := by
  rw [State.xsAt, Loc.xs_offset]
  exact State.elemByte_setElems_same s h

theorem State.ysAt_setYs (s : State) {bs : List Byte} {i : Nat} (h : i < bs.length) : (s.setYs bs).ysAt i = bs[i] := by
  rw [State.ysAt, Loc.ys_offset]
  exact State.elemByte_setElems_same s h

/-- A write of YS leaves XS, another window (R66). -/
theorem State.xsAt_setYs (s : State) (bs : List Byte) {i : Nat} (hi : i < 256) : (s.setYs bs).xsAt i = s.xsAt i :=
  State.elemByte_setElems_other s fun j _ => Loc.xs_offset_ne_ys_offset hi j

/-- XS after the points are written. -/
theorem State.xsAt_setPoints (s : State) (c : Nat → Byte) {n : Byte} (thr : Byte) {i : Nat} (hi : i < n.toNat) :
    (s.setPoints c n thr).xsAt i = BitVec.ofNat 8 (i + 1) := by
  have hi256 : i < 256 := hi.trans n.isLt
  rw [State.setPoints, State.xsAt_setYs _ _ hi256, State.xsAt_setXs _ (by rwa [shareNodes_length])]
  simp only [shareNodes, List.getElem_map, List.getElem_range]

/-- YS after them. -/
theorem State.ysAt_setPoints (s : State) (c : Nat → Byte) {n : Byte} (thr : Byte) {i : Nat} (hi : i < n.toNat) :
    (s.setPoints c n thr).ysAt i = polyValue c (BitVec.ofNat 8 (i + 1)) thr.toNat := by
  rw [State.setPoints, State.ysAt_setYs _ (by rwa [shareValues_length])]
  simp only [shareValues, List.getElem_map, List.getElem_range]

/-- Every other byte of RAM after them. -/
theorem State.elemByte_setPoints_other (s : State) (c : Nat → Byte) {n : Byte} (thr : Byte) {a : Nat}
    (h : ∀ i, i < n.toNat → a ≠ (Loc.xs i).offset ∧ a ≠ (Loc.ys i).offset) :
    (s.setPoints c n thr).elemByte a = s.elemByte a := by
  rw [State.setPoints, State.setYs_eq, State.elemByte_setElems_other, State.setXs_eq, State.elemByte_setElems_other]
  · exact fun i hi => (h i (by rwa [shareNodes_length] at hi)).1
  · exact fun i hi => (h i (by rwa [shareValues_length] at hi)).2

/-- The points of R152 as the buffers hold them. -/
theorem pointsWritten_setPoints (s : State) (c : Nat → Byte) (n thr : Byte) :
    pointsWritten c n thr s (s.setPoints c n thr) := by
  refine ⟨fun k hk1 hkn => ?_, fun a ha => s.elemByte_setPoints_other c thr ha⟩
  obtain ⟨i, rfl⟩ : ∃ i, k = i + 1 := ⟨k - 1, by omega⟩
  exact ⟨s.xsAt_setPoints c thr hkn, s.ysAt_setPoints c thr hkn⟩

/-- The points as written depend on the coefficients below T, and on the bytes of RAM they are written over. -/
theorem pointsWritten_congr {c c' : Nat → Byte} {n thr : Byte} {s s' t : State} (h : pointsWritten c n thr s t)
    (hc : ∀ i, i < thr.toNat → c i = c' i) (hs : ∀ a, s.elemByte a = s'.elemByte a) :
    pointsWritten c' n thr s' t := by
  obtain ⟨hpoints, hother⟩ := h
  refine ⟨fun k hk1 hkn => ?_, fun a ha => (hother a ha).trans (hs a)⟩
  obtain ⟨hx, hy⟩ := hpoints k hk1 hkn
  exact ⟨hx, hy.trans (polyValue_congr hc _)⟩

theorem pointsWritten_pointsDone (s : State) (c : Nat → Byte) (n thr : Byte) :
    pointsWritten c n thr s (s.pointsDone c n thr) :=
  pointsWritten_setPoints s c n thr

/-- The engine's turn on a GENPTS with all its coefficients drawn (R152). -/
theorem exec_genpts_points {s : State} {n thr : Byte} (hready : tablesReady s) (hreq : s.rngReq = .idle)
    (hdraw : s.drawAt = some thr.toNat) (secret : Byte) :
    exec (.genpts secret n thr) s = .next (s.pointsDone (icoefAt s.icoef) n thr) := by
  rw [exec, execGenpts_finish hready hdraw hreq le_rfl, finishGenpts_eq]

/-- The draws of which the last byte is the `T - 1`-th nonzero one. -/
theorem kept_complete {thr last : Byte} {draws : List Byte} (hthr : 2 ≤ thr.toNat) (hlast : last ≠ 0)
    (hkept : kept draws = thr.toNat - 2) : kept (draws ++ [last]) + 1 = thr.toNat := by
  have hone : kept [last] = 1 := by rw [kept, filter_nonzero hlast]; rfl
  rw [kept_append, hone]
  omega

/-- ICOEF holds the coefficients drawn below their number, whatever it held before (R151). -/
theorem icoefAt_drawn_lt (s : State) (secret : Byte) (draws : List Byte) (rest : List Event) {i : Nat}
    (hi : i < kept draws + 1) (hlt : kept draws + 1 ≤ 255) :
    icoefAt (s.drawn secret draws rest).icoef i = (coefficients secret draws).getD i 0 := by
  have hlen : i < (coefficients secret draws).length := hi
  rw [State.drawn, icoefAt_icoefFill _ _ (by omega), List.getD_eq_getElem _ _ hlen, List.getD_eq_getElem _ _ hlen]

/-- The whole run of an accepted GENPTS: the exchanges, then the turn that writes the points (R151, R152). -/
theorem run_genpts_points {s : State} {secret n thr last : Byte} {draws : List Byte} {rest : List Event}
    (h : genptsAccepted s secret n thr) (hready : tablesReady s)
    (hs : s.schedule = exchanges (draws ++ [last]) ++ .engine :: rest) (hlast : last ≠ 0)
    (hkept : kept draws = thr.toNat - 2) :
    Host.Core.run Sys2Proof.core (2 * (draws.length + 1) + 1) s =
      .next ((s.drawn secret (draws ++ [last]) rest).pointsDone
        (icoefAt (s.drawn secret (draws ++ [last]) rest).icoef) n thr) := by
  have ⟨hrst, ⟨w, heng, hdec⟩, _, hthr, _, hreq, _⟩ := h
  have hfew : kept draws < thr.toNat - 1 := by omega
  have hall := kept_complete hthr hlast hkept
  have hs' : s.schedule = exchanges draws ++ .engine :: .rng false last :: .engine :: rest := by
    rw [hs, exchanges_append, List.append_assoc]
    rfl
  have hanswer : takeDraw (portAnswer false last) (s.drawn secret draws (.engine :: rest)).request =
      s.drawn secret (draws ++ [last]) (.engine :: rest) := takeDraw_drawn hreq secret draws last _
  have hturn : step (s.drawn secret (draws ++ [last]) (.engine :: rest)) =
      exec (.genpts secret n thr) (s.drawn secret (draws ++ [last]) rest) :=
    (step_engine (s := s.drawn secret (draws ++ [last]) (.engine :: rest)) hrst heng hreq rfl).trans
      (runCommand_ok hdec _)
  rw [exec_genpts_points (s := s.drawn secret (draws ++ [last]) rest) hready hreq (congrArg some hall)] at hturn
  have hcount : 2 * (draws.length + 1) + 1 = 2 * draws.length + (2 + 1) := by omega
  rw [hcount, run_accepted_exchanges h hfew hs' 2, core_run_succ (step_drawn_answer h hfew false last _), hanswer,
    core_run_succ hturn]
  rfl

/-- Settles O34: the last turn by its definition, and the run up to it. -/
theorem genptsWritesTheSharePoints : Obligations.GenptsWritesTheSharePoints := by
  refine ⟨fun s secret n thr hready _ _ hreq hdraw =>
      ⟨_, exec_genpts_points hready hreq hdraw secret, pointsWritten_pointsDone s _ n thr, rfl⟩,
    fun s secret n thr last draws rest h hready hs hlast hkept =>
      ⟨_, run_genpts_points h hready hs hlast hkept, ?_, ?_⟩⟩
  · have ⟨_, _, _, hthr, _, _, _⟩ := h
    have hthr255 : thr.toNat < 256 := thr.isLt
    have hall := kept_complete hthr hlast hkept
    exact pointsWritten_congr (pointsWritten_pointsDone _ _ n thr)
      (fun i hi => icoefAt_drawn_lt s secret _ rest (by omega) (by omega)) fun _ => rfl
  · have ⟨_, _, _, _, _, _, hdraw⟩ := h
    simp only [State.pointsDone, State.setPoints, State.setXs, State.setYs, State.setElems, State.drawn, completed,
      hdraw]

/-! ### The order of transactions and the turns of a GENPTS (R201, R212) -/

/-- A state with the fields that the bus neither reads nor writes, ICOEF, RNGREQ, the loop of R151 and the events to
come, as in another. -/
def State.withPort (s u : State) : State :=
  { s with icoef := u.icoef, rngReq := u.rngReq, drawAt := u.drawAt, schedule := u.schedule }

theorem readLoc_withPort (s u : State) (l : Loc) : readLoc (s.withPort u) l = readLoc s l := by
  cases l <;> rfl

theorem reachable_withPort (s u : State) (addr : Word) : reachable (s.withPort u) addr = reachable s addr := rfl

theorem writeLoc_withPort (s u : State) (d : Word) (l : Loc) :
    writeLoc (s.withPort u) d l = (writeLoc s d l).withPort u := by
  cases l with
  | cmd =>
    have hb : (s.withPort u).busy = s.busy := rfl
    simp only [writeLoc, cmdWrite, hb]
    cases s.busy <;> rfl
  | _ => rfl

theorem busResponse_withPort (s u : State) (op : BusOp) : busResponse (s.withPort u) op = busResponse s op := by
  cases op with
  | read addr => simp only [busResponse, reachable_withPort, readLoc_withPort]
  | write addr d => rfl

theorem busEffect_withPort (s u : State) (op : BusOp) :
    busEffect (s.withPort u) op = (busEffect s op).withPort u := by
  cases op with
  | read addr => rfl
  | write addr d =>
    simp only [busEffect, reachable_withPort, writeLoc_withPort]
    cases reachable s addr with
    | none => rfl
    | some l => cases h : l.readOnly <;> simp [h]

/-- A transaction acts the same whatever these fields hold, and leaves them. -/
theorem busStep_withPort (s u : State) (op : BusOp) : busStep (s.withPort u) op = (busStep s op).withPort u := by
  rw [busStep, busResponse_withPort, busEffect_withPort]
  rfl

/-- A transaction does not look at the events to come. -/
theorem busStep_setSchedule (s : State) (op : BusOp) (rest : List Event) :
    busStep (s.setSchedule rest) op = (busStep s op).setSchedule rest := by
  have hb := busStep_behind s op
  have hsame : (busStep s op).withPort (s.setSchedule rest) = (busStep s op).setSchedule rest := by
    simp only [State.withPort, State.setSchedule, ← hb.icoef, ← hb.rngReq, ← hb.drawAt]
  exact (busStep_withPort s (s.setSchedule rest) op).trans hsame

/-- The fields that a turn of a GENPTS and an answer to it depend on are the same. -/
structure SameAtThePort (s t : State) : Prop where
  rstN : t.rstN = s.rstN
  eng : t.eng = s.eng
  tstate : t.tstate = s.tstate
  rngReq : t.rngReq = s.rngReq
  drawAt : t.drawAt = s.drawAt
  icoef : t.icoef = s.icoef

/-- A transaction keeps them while a command runs (R68, R69). -/
theorem SameAtThePort.busStep {s t : State} (h : SameAtThePort s t) (hbusy : s.busy = true) (op : BusOp) :
    SameAtThePort s (busStep t op) := by
  have hb := busStep_behind t op
  have hbusyt : t.busy = true := by rw [State.busy, h.eng]; exact hbusy
  have heng := (stillDraws_busStep (op := op) hbusyt (List.Subset.refl t.schedule)).eng
  exact ⟨hb.rstN.trans h.rstN, heng.trans h.eng, hb.tstate.trans h.tstate, hb.rngReq.trans h.rngReq,
    hb.drawAt.trans h.drawAt, hb.icoef.trans h.icoef⟩

/-- The step on event `e`, from any state like `s` at the port, changes ICOEF, RNGREQ and the loop of R151 alone, to
what they are in `u`. -/
def TurnLeads (s : State) (e : Event) (u : State) : Prop :=
  ∀ t rest, SameAtThePort s t → step (t.setSchedule (e :: rest)) = .next (t.withPort (u.setSchedule rest))

/-- The step on a transaction, with the fields of the port the state's own. -/
theorem step_bus_setSchedule {s : State} (hrst : s.rstN = true) (op : BusOp) (rest : List Event) :
    step (s.setSchedule (.bus op :: rest)) = .next ((busStep s op).setSchedule rest) :=
  (step_bus (s := s.setSchedule (.bus op :: rest)) hrst rfl).trans (congrArg _ (busStep_setSchedule s op rest))

/-- The same with them as in another state. -/
theorem step_bus_withPort {s : State} (hrst : s.rstN = true) (u : State) (op : BusOp) (rest : List Event) :
    step (s.withPort (u.setSchedule (.bus op :: rest))) = .next ((busStep s op).withPort (u.setSchedule rest)) :=
  (step_bus (s := s.withPort (u.setSchedule (.bus op :: rest))) hrst rfl).trans
    (congrArg _ (busStep_withPort s (u.setSchedule rest) op))

/-- Such a step gives the same after any transactions as before them (R201). -/
theorem TurnLeads.run_comm {s t u : State} {e : Event} (h : TurnLeads s e u) (hrst : s.rstN = true)
    (hbusy : s.busy = true) (hsame : SameAtThePort s t) (ops : List BusOp) (rest : List Event) :
    Host.Core.run Sys2Proof.core (ops.length + 1) (t.setSchedule (ops.map .bus ++ e :: rest)) =
      Host.Core.run Sys2Proof.core (ops.length + 1) (t.setSchedule (e :: (ops.map .bus ++ rest))) := by
  induction ops generalizing t with
  | nil => rfl
  | cons op ops ih =>
    have hrstt : t.rstN = true := hsame.rstN.trans hrst
    have hafter : SameAtThePort s (Machine.busStep t op) := hsame.busStep hbusy op
    have hbus := step_bus_setSchedule hrstt op (ops.map .bus ++ e :: rest)
    have hbusTurn := h _ (ops.map .bus ++ rest) hafter
    have hturn := h _ (.bus op :: (ops.map .bus ++ rest)) hsame
    have hturnBus := step_bus_withPort hrstt u op (ops.map .bus ++ rest)
    rw [List.length_cons, List.map_cons, List.cons_append, List.cons_append, core_run_succ hbus, ih hafter,
      core_run_succ hbusTurn, core_run_succ hturn, core_run_succ hturnBus]

/-- An answer outside the loop of R151 only drops the request. -/
theorem takeDraw_none {s : State} (h : s.drawAt = none) (a : RngAnswer) : takeDraw a s = s.dropRequest := by
  simp only [takeDraw, h]

/-- A byte in it: zero is discarded, another is kept (R151). -/
theorem takeDraw_byte {s : State} {k : Nat} (h : s.drawAt = some k) (b : Byte) :
    takeDraw (.byte b) s = if b = 0 then s.dropRequest else s.dropRequest.keepDraw k b := by
  simp only [takeDraw, h]

/-- A byte in answer to the request (R151, R212). -/
theorem turnLeads_answer {s : State} {w : Word} (hrst : s.rstN = true) (heng : s.eng = .busy w)
    (hreq : s.rngReq = .pending) (b : Byte) : TurnLeads s (.rng false b) (takeDraw (.byte b) s) := by
  intro t rest h
  have hstep : step (t.setSchedule (.rng false b :: rest)) = .next (takeDraw (.byte b) (t.setSchedule rest)) :=
    step_answer (s := t.setSchedule (.rng false b :: rest)) (h.rstN.trans hrst) (h.eng.trans heng)
      (h.rngReq.trans hreq) rfl
  refine hstep.trans (congrArg _ ?_)
  have hdraw : (t.setSchedule rest).drawAt = s.drawAt := h.drawAt
  cases hd : s.drawAt with
  | none =>
    rw [takeDraw_none (hdraw.trans hd), takeDraw_none hd]
    simp only [State.withPort, State.setSchedule, State.dropRequest, h.drawAt, h.icoef]
  | some k =>
    rw [takeDraw_byte (hdraw.trans hd), takeDraw_byte hd]
    split_ifs <;>
      simp only [State.withPort, State.setSchedule, State.dropRequest, State.keepDraw, h.drawAt, h.icoef]

/-- The engine's turn that makes a later request (R151, R212). -/
theorem turnLeads_request {s : State} {secret n thr : Byte} {k : Nat} (hdraws : DrawsAt s secret n thr k)
    (hreq : s.rngReq = .idle) : TurnLeads s .engine s.request := by
  intro t rest h
  have hlater : DrawsAt (t.setSchedule (.engine :: rest)) secret n thr k :=
    hdraws.congr h.rstN h.eng h.tstate h.drawAt
  rw [hlater.step_request (h.rngReq.trans hreq) rfl]
  simp only [State.withPort, State.setSchedule, State.request, h.drawAt, h.icoef]

/-- The engine's turn that makes the first request (R151, R212). -/
theorem turnLeads_start {s : State} {secret n thr : Byte} (haccepted : genptsAccepted s secret n thr) :
    TurnLeads s .engine (s.startDraws secret).request := by
  intro t rest h
  have ⟨hrst, ⟨w, heng, hdec⟩, hready, hthr, hle, hreq, hdraw⟩ := haccepted
  have hreadyt : t.ready = true := by
    rw [State.ready, h.tstate]
    exact hready
  have hlater : genptsAccepted (t.setSchedule (.engine :: rest)) secret n thr :=
    ⟨h.rstN.trans hrst, ⟨w, h.eng.trans heng, hdec⟩, hreadyt, hthr, hle, h.rngReq.trans hreq,
      h.drawAt.trans hdraw⟩
  have hnone : kept [] < thr.toNat - 1 := (by omega : 0 < thr.toNat - 1)
  refine (step_accepted hlater rfl).trans ((step_drawn_request hlater hnone rest).trans (congrArg _ ?_))
  rw [State.drawn_nil]
  simp only [State.withPort, State.setSchedule, State.request, State.startDraws, h.icoef]

/-- The engine's turn that makes the next request, whichever it is. -/
theorem exists_turnLeads_engine {s : State} {w : Word} (hrst : s.rstN = true) (heng : s.eng = .busy w)
    (hreq : s.rngReq = .idle) (hready : s.ready = true) {secret n thr : Byte}
    (hdec : decode w = .ok (.genpts secret n thr)) (hthr : 2 ≤ thr.toNat) (hle : thr.toNat ≤ n.toNat)
    (hlt : ∀ k, s.drawAt = some k → k < thr.toNat) : ∃ u, TurnLeads s .engine u := by
  cases hd : s.drawAt with
  | none => exact ⟨_, turnLeads_start ⟨hrst, ⟨w, heng, hdec⟩, hready, hthr, hle, hreq, hd⟩⟩
  | some k => exact ⟨_, turnLeads_request ⟨hrst, ⟨w, heng, hdec⟩, hready, hd, hlt k hd⟩ hreq⟩

/-- Settles O37: a transaction leaves the request and the draws, an answer drops the request, and the turns of a GENPTS
commute with the transactions. -/
theorem genptsResumesWhereItWaited : Obligations.GenptsResumesWhereItWaited := by
  intro s w rest hrst heng
  have hbusy : s.busy = true := by rw [State.busy, heng]
  have hself : SameAtThePort s s := ⟨rfl, rfl, rfl, rfl, rfl, rfl⟩
  refine ⟨fun op hreq hs => ?_, fun fail data hreq hs => ?_, fun ops e he => ?_⟩
  · have hkept : SameAtThePort s ((busStep s op).setSchedule rest) :=
      have h := hself.busStep hbusy op
      ⟨h.rstN, h.eng, h.tstate, h.rngReq, h.drawAt, h.icoef⟩
    refine ⟨_, (step_bus hrst hs).trans (congrArg _ (busStep_setSchedule s op rest)), ?_, hkept.eng, hkept.drawAt,
      hkept.icoef⟩
    rw [State.rngReqPin, hkept.rngReq, hreq]
  · exact ⟨_, step_answer hrst heng hreq hs, rngReqPin_of_idle (takeDraw_rngReq _ _)⟩
  · have hturn : ∃ u, TurnLeads s e u := by
      rcases he with ⟨hreq, b, rfl⟩ | ⟨hreq, rfl, hready, secret, n, thr, hdec, hthr, hle, hlt⟩
      · exact ⟨_, turnLeads_answer hrst heng hreq b⟩
      · exact exists_turnLeads_engine hrst heng hreq hready hdec hthr hle hlt
    obtain ⟨u, hu⟩ := hturn
    exact hu.run_comm hrst hbusy hself ops rest

end Sys2Proof.Machine

/-! Proofs of the statements of 70_reset_and_hazards.md: the reset pin, the events while it is held low, and the events
the released block ignores. -/

namespace Sys2Proof.Machine

/-! ### The reset pin (R43, R240) -/

/-- A level of the pin is taken whatever its level was (R240). -/
theorem step_rst {s : State} {level : Bool} {rest : List Event} (hs : s.schedule = .rst level :: rest) :
    step s = .next ((s.setSchedule rest).setRstN level) := by
  cases hrst : s.rstN with
  | false => rw [step_inReset hrst, resetTurn, hs]
  | true => rw [step_active hrst, activeTurn, hs]

/-- Going low, staying low and the release each leave the reset state; only a repeated level 1 does not (R240). -/
theorem setRstN_resets {s : State} {level : Bool} (h : (level && s.rstN) = false) :
    s.setRstN level = { s.takeReset with rstN := level } := by
  rw [State.setRstN, h, if_neg Bool.false_ne_true]

/-- While `rst_n` = 0 no transaction reaches a location (R240). -/
theorem reachable_inReset {s : State} (h : s.rstN = false) (addr : Word) : reachable s addr = none := by
  rw [reachable, if_pos h]

/-- While `rst_n` = 0 a transaction gets ERR and does nothing else (R240). -/
theorem busStep_inReset {s : State} (h : s.rstN = false) (op : BusOp) : busStep s op = s.respond ⟨false, 0⟩ := by
  cases op with
  | read addr => exact busStep_none_read (reachable_inReset h addr)
  | write addr d => exact busStep_none_write d (reachable_inReset h addr)

/-! ### What the released block ignores (R201, R212, R240) -/

/-- With no command accepted the engine's turn does nothing (R201). -/
theorem engineTurn_no_command {s : State} (heng : s.eng = .idle) : engineTurn s = .next s := by
  simp only [engineTurn, heng]

/-- An answer to a request the block does not hold is ignored (R240). -/
theorem answerTurn_ignored {s : State} (h : s.rngReq = .idle ∨ s.eng = .idle) (a : RngAnswer) : answerTurn a s = s := by
  rcases answerTurn_cases a s with ⟨-, hignored⟩ | ⟨w, heng, hreq, -⟩
  · exact hignored
  · rw [heng, hreq] at h
    rcases h with h | h <;> cases h

/-- Settles O13: the events one by one, first at either level of the pin, then while it is low, then released. -/
theorem resetPinForcesResetState : Obligations.ResetPinForcesResetState := by
  intro s rest
  refine ⟨fun hs => ?_, fun op hrst hs => ?_, fun hrst hs => ?_, fun fail data hrst hs => ?_, fun hrst hs => ?_,
    fun fail data hrst hignored hs => ?_, fun hrst heng hs => ?_⟩
  · rw [step_rst hs, setRstN_resets (Bool.false_and _)]
    rfl
  · rw [step_inReset hrst, resetTurn, hs]
    exact congrArg _ (busStep_inReset (s := s.setSchedule rest) hrst op)
  · rw [step_inReset hrst, resetTurn, hs]
    rfl
  · rw [step_inReset hrst, resetTurn, hs]
    rfl
  · rw [step_rst hs, setRstN_resets (s := s.setSchedule rest) (level := true) hrst]
    rfl
  · rw [step_active hrst, activeTurn, hs]
    exact congrArg _ (answerTurn_ignored (s := s.setSchedule rest) hignored _)
  · exact (step_of_engine_event hrst hs).trans (engineTurn_no_command (s := s.setSchedule rest) heng)

end Sys2Proof.Machine
